-- ==== Sys2Proof/Word.lean ====
section
/-! DEFINITION. The byte, the unit of every wire field (00_scope.md R6), and the 64-bit carrier of a Parameter value. -/

namespace Sys2Proof

/-- "every wire field is one byte or a sequence of bytes" (R6). -/
abbrev Byte := BitVec 8

/-- The 64-bit carrier of a `u64` or `i64` value (R6, R23). -/
abbrev Word64 := BitVec 64

end Sys2Proof
end

