-- ==== Sys2Proof/Config.lean ====
section
/-! DEFINITION. What is fixed when the block is built (00_scope.md R6, 10_state.md R35), the results a transport call
can have (41_packet_codec.md R150, R151), and the free values: `REPLY_LEN_OTHER` (92_eei_decisions.md D24) and the
transport's answers (00_scope.md R9). -/

namespace Sys2Proof

/-- `PARAM_WIDTH_POLICY` (R6, R35). `reject` is this hardware's value; `truncate` is the source repository's. -/
inductive ParamWidthPolicy where
  | reject
  | truncate
deriving DecidableEq, Repr, Inhabited

/-- `SW_ADDR_CHECK` (R6, R35). `strict` is this hardware's value; `countOnly` is the source repository's. -/
inductive SwAddrCheck where
  | strict
  | countOnly
deriving DecidableEq, Repr, Inhabited

/-- `STATUS_ENCODE_SUCCESS` (R6, R35). The spec names one value. -/
inductive StatusEncodeSuccess where
  | shortCircuit
deriving DecidableEq, Repr, Inhabited

/-- `REPLY_LEN_OTHER : InstructionCode -> Option Nat` for the seven codes other than Ping and Read (R6, R145, D24).
`none` means that no reply is read. -/
structure ReplyLenTable where
  write     : Option Nat
  regWrite  : Option Nat
  action    : Option Nat
  reset     : Option Nat
  reboot    : Option Nat
  syncWrite : Option Nat
  bulkRead  : Option Nat
deriving DecidableEq, Repr, Inhabited

/-- The constants of R6 that are not plain numbers. -/
structure Config where
  paramWidthPolicy    : ParamWidthPolicy
  swAddrCheck         : SwAddrCheck
  statusEncodeSuccess : StatusEncodeSuccess
  replyLenOther       : ReplyLenTable
deriving DecidableEq, Repr, Inhabited

/-- The transport's error. The spec names it and no member but the read timeout (R64, R151).
DESIGN CHOICE (log 11): every other error is a number. -/
inductive IoError where
  | timeout
  | other (code : Nat)
deriving DecidableEq, Repr, Inhabited

/-- `write(frame) -> Result<bytes_written, IoError>` (00_scope.md section 6). -/
inductive TxResult where
  | ok (written : Nat)
  | err (e : IoError)
deriving DecidableEq, Repr, Inhabited

/-- `read_exact(n) -> Result<bytes, IoError>`, "which returns exactly n bytes or an error" (00_scope.md section 6). -/
inductive RxResult where
  | ok (bytes : List Byte)
  | err (e : IoError)
deriving DecidableEq, Repr, Inhabited

/-- FREE VALUE (log 6): the OPEN parameter `REPLY_LEN_OTHER` (R145, D24). -/
opaque Config.openReplyLen : ReplyLenTable

/-- FREE VALUE (log 5): what the transport answers to a `TxWrite` (R9, I15), by the number of calls made before it. -/
opaque Config.txDraw : Nat → TxResult

/-- FREE VALUE (log 5): whether the transport answers an `RxReadExact` with an error (R9, I15), by the number of calls
made before it. -/
opaque Config.rxFailure : Nat → Option IoError

/-- FREE VALUE (log 5): the bytes the transport answers to an `RxReadExact` (R9, I15), by the number of calls made before
it and the byte's index. -/
opaque Config.rxByte : Nat → Nat → Byte

/-- This hardware's constants (R35): Reject, Strict and ShortCircuit, and the OPEN reply lengths. -/
def Config.hardware : Config where
  paramWidthPolicy    := .reject
  swAddrCheck         := .strict
  statusEncodeSuccess := .shortCircuit
  replyLenOther       := Config.openReplyLen

/-- "Each has exactly one legal value for this hardware: `Reject`, `Strict` and `ShortCircuit`" (R35). The reply
lengths may be any. -/
abbrev Config.isHardware (c : Config) : Prop :=
  c.paramWidthPolicy = .reject ∧ c.swAddrCheck = .strict ∧ c.statusEncodeSuccess = .shortCircuit

/-- `MAX_PARAM_BYTES` (R6, D14). -/
@[simp] abbrev maxParamBytes : Nat := 253

/-- `MIN_FRAME_BYTES` (R6, R72). -/
@[simp] abbrev minFrameBytes : Nat := 6

/-- `MAX_FRAME_BYTES` (R6, R72). -/
@[simp] abbrev maxFrameBytes : Nat := 259

/-- `BROADCAST_ID` (R6, R20). -/
@[simp] abbrev broadcastId : Byte := 0xFE#8

/-- The byte that is no device address (20_memory.md R58); also the header byte (30_encoding.md R70). -/
@[simp] abbrev headerByte : Byte := 0xFF#8

end Sys2Proof
end

