-- ==== Sys2Proof/Syntax.lean ====
section
/-! DEFINITION. The value types of 10_state.md and the ONE inductive of instructions: one constructor for each of the
32 rows of spec/opcode_table.json (9 wire instructions, 23 host commands). -/

namespace Sys2Proof

/-- The closed set of nine instruction codes (R21). -/
inductive InstructionCode where
  | ping | read | write | regWrite | action | reset | reboot | syncWrite | bulkRead
deriving DecidableEq, Repr, Inhabited

/-- The closed set of eight status flags (R22). `success` is the pseudo-flag. -/
inductive StatusFlag where
  | success | instruction | overload | checksum | range | overheating | angleLimit | inputVoltage
deriving DecidableEq, Repr, Inhabited

/-- A status flag set: "a subset of the seven named flags (indices 1..7)" (R22). One Bool for each named flag, so that
equal sets are equal data (log 9). -/
structure FlagSet where
  instruction  : Bool
  overload     : Bool
  checksum     : Bool
  range        : Bool
  overheating  : Bool
  angleLimit   : Bool
  inputVoltage : Bool
deriving DecidableEq, Repr, Inhabited

/-- A device address is `Broadcast` or `Id(n)` with n at most 253 (R20). -/
inductive DeviceAddress where
  | broadcast
  | id (n : Fin 254)
deriving DecidableEq, Repr

/-- `kind: Signed | Unsigned` (R23). -/
inductive ParamKind where
  | unsigned | signed
deriving DecidableEq, Repr, Inhabited

/-- `Parameter` (R23). `value` is the 64-bit form of the u64 (unsigned) or of the i64 (signed, two's complement);
`byteLength` is any u8, since the commands check its range (R85, R102; log 8). -/
structure Parameter where
  kind       : ParamKind
  value      : Word64
  byteLength : Byte
deriving DecidableEq, Repr, Inhabited

/-- `Instruction(InstructionCode) | Status(status flag set)` (R24). -/
inductive Operation where
  | instruction (code : InstructionCode)
  | status (flags : FlagSet)
deriving DecidableEq, Repr, Inhabited

/-- `Packet` (R24). -/
structure Packet where
  deviceAddress : Byte
  operation     : Operation
  parameters    : List Parameter
  checksum      : Byte
deriving DecidableEq, Repr, Inhabited

/-- `SyncWriteEntry` (R26). -/
structure SyncWriteEntry where
  deviceId        : Byte
  registerAddress : Byte
  data            : Parameter
deriving DecidableEq, Repr, Inhabited

/-- `BulkReadEntry` (R27). -/
structure BulkReadEntry where
  deviceId        : Byte
  readLength      : Byte
  registerAddress : Byte
deriving DecidableEq, Repr, Inhabited

/-- One device's part of a SyncWrite parameter block on the wire: `[d, data bytes]` (R77). -/
structure SyncGroup where
  deviceId : Byte
  data     : List Byte
deriving DecidableEq, Repr, Inhabited

/-- `ReplyContext` (R29). -/
structure ReplyContext where
  code            : InstructionCode
  requestedLength : Byte
deriving DecidableEq, Repr, Inhabited

/-- The instructions: the rows of spec/opcode_table.json. -/
inductive Instr where
  /-- Ping, wire code 0x01 (R74, R76). -/
  | ping (id : Byte)
  /-- Read, wire code 0x02: `[register_address, read_length]` (R76). -/
  | read (id reg length : Byte)
  /-- Write, wire code 0x03: `[register_address, data bytes]` (R76). -/
  | write (id reg : Byte) (data : List Byte)
  /-- RegWrite, wire code 0x04: `[register_address, data bytes]` (R76). -/
  | regWrite (id reg : Byte) (data : List Byte)
  /-- Action, wire code 0x05 (R76). -/
  | action (id : Byte)
  /-- Reset, wire code 0x06 (R76): a frame for a device, not the block's reset (R260). -/
  | reset (id : Byte)
  /-- Reboot, wire code 0x07 (R76). -/
  | reboot (id : Byte)
  /-- SyncWrite, wire code 0x83: `[first, c*bl]` and each device's bytes (R77). -/
  | syncWrite (first : Byte) (groups : List SyncGroup)
  /-- BulkRead, wire code 0x92: `[0x00]` and each entry's three bytes (R78). -/
  | bulkRead (entries : List BulkReadEntry)
  /-- BUILD_PING, cmd 0x01 (R82, R123). -/
  | buildPing (addr : Byte)
  /-- BUILD_READ, cmd 0x02 (R82, R124). -/
  | buildRead (addr reg length : Byte)
  /-- BUILD_WRITE, cmd 0x03 (R82, R125). -/
  | buildWrite (addr reg : Byte) (data : Parameter)
  /-- BUILD_REGWRITE, cmd 0x04 (R82, R126). -/
  | buildRegWrite (addr reg : Byte) (data : Parameter)
  /-- BUILD_ACTION, cmd 0x05 (R82, R127). -/
  | buildAction (addr : Byte)
  /-- BUILD_RESET, cmd 0x06 (R82, R128). -/
  | buildReset (addr : Byte)
  /-- BUILD_REBOOT, cmd 0x07 (R82, R129). -/
  | buildReboot (addr : Byte)
  /-- BUILD_SYNCWRITE, cmd 0x83 (R82, R180). -/
  | buildSyncWrite (entries : List SyncWriteEntry)
  /-- BUILD_BULKREAD, cmd 0x92 (R82, R190). -/
  | buildBulkRead (entries : List BulkReadEntry)
  /-- GENERATE, cmd 0x10 (R82, R130). -/
  | generate (packet : Packet)
  /-- PARSE, cmd 0x11 (R82, R140). -/
  | parse (buf : List Byte) (ctxCode reqLen : Byte)
  /-- EXPECTED_REPLY_LENGTH, cmd 0x12 (R82, R145). -/
  | expectedReplyLength (ctxCode reqLen : Byte)
  /-- SEND, cmd 0x13 (R82, R150). -/
  | send (packet : Packet) (ctxCode reqLen : Byte)
  /-- RECEIVE, cmd 0x14 (R82, R151). -/
  | receive
  /-- CHECKSUM, cmd 0x15 (R82, R121). -/
  | checksum (id len op : Byte) (bytes : List Byte)
  /-- PARAM_UNSIGNED, cmd 0x20 (R82, R100). -/
  | paramUnsigned (value : Word64) (byteLength : Byte)
  /-- PARAM_SIGNED, cmd 0x21 (R82, R101). -/
  | paramSigned (value : Word64) (byteLength : Byte)
  /-- PARAM_AS_BYTES, cmd 0x22 (R82, R103). -/
  | paramAsBytes (p : Parameter)
  /-- PARAM_FROM_SLICE, cmd 0x23 (R82, R104). -/
  | paramFromSlice (ps : List Parameter)
  /-- OPCODE_ENCODE, cmd 0x30 (R82, R106). -/
  | opcodeEncode (code : InstructionCode)
  /-- OPCODE_DECODE, cmd 0x31 (R82, R107). -/
  | opcodeDecode (byte : Byte)
  /-- STATUS_DECODE, cmd 0x40 (R82, R170). -/
  | statusDecode (byte : Byte)
  /-- STATUS_ENCODE, cmd 0x41 (R82, R171). -/
  | statusEncode (flags : List StatusFlag)
deriving DecidableEq, Repr

end Sys2Proof
end

