-- ==== Sys2Proof/Machine/Bytes.lean ====
section
/-! DEFINITION. The byte helpers the encodings and the meanings share: little-endian assembly (00_scope.md section 6,
20_memory.md R51), the vocabulary of opcodes (30_encoding.md R74, 40_parameter.md R105), the checksum
(41_packet_codec.md R120) and the frame layout (30_encoding.md R70). -/

namespace Sys2Proof.Machine

/-- `LE_n(v)`: the n low bytes of the 64-bit form, least significant first (00_scope.md section 6, R103). -/
def leBytes : Nat → Word64 → List Byte
  | 0, _ => []
  | n + 1, w => w.setWidth 8 :: leBytes n (w >>> 8)

/-- `unLE(s) = Σ_k s[k] * 256^k` (00_scope.md section 6). -/
def unLE : List Byte → Nat
  | [] => 0
  | b :: rest => b.toNat + 256 * unLE rest

/-- `opcode(c)`, the instruction codes (R74, R105). -/
def opcode : InstructionCode → Byte
  | .ping => 0x01#8
  | .read => 0x02#8
  | .write => 0x03#8
  | .regWrite => 0x04#8
  | .action => 0x05#8
  | .reset => 0x06#8
  | .reboot => 0x07#8
  | .syncWrite => 0x83#8
  | .bulkRead => 0x92#8

/-- The nine members (R21), in the order of R74. -/
def allCodes : List InstructionCode :=
  [.ping, .read, .write, .regWrite, .action, .reset, .reboot, .syncWrite, .bulkRead]

/-- `code_of(b)`: "the member for byte b when one exists" (R105); no byte maps to a default member (R75, R107). -/
def codeOf (b : Byte) : Option InstructionCode :=
  allCodes.find? fun c => opcode c == b

/-- The sum of the bytes over unbounded naturals (R120). -/
def byteSum : List Byte → Nat
  | [] => 0
  | b :: rest => b.toNat + byteSum rest

/-- `checksum(id, L, op, pb) = ~((id + L + op + Σ pb) mod 256)` (R120). -/
def checksum (id len op : Byte) (pb : List Byte) : Byte :=
  ~~~ BitVec.ofNat 8 (id.toNat + len.toNat + op.toNat + byteSum pb)

/-- The checksum accumulator: "an 8-bit accumulator that adds modulo 256" (R32). -/
def accumulate (acc : Byte) : List Byte → Byte
  | [] => acc
  | b :: rest => accumulate (acc + b) rest

/-- The wire length of a parameter block: `len = P + 2` (R72), as its byte. -/
def wireLength (pb : List Byte) : Byte := BitVec.ofNat 8 (pb.length + 2)

/-- The instruction frame: `[0xFF, 0xFF, device_address, wire_length, opcode_byte, <parameter_bytes...>, checksum]`
(R70). -/
def frameBytes (id op : Byte) (pb : List Byte) : List Byte :=
  [0xFF#8, 0xFF#8, id, wireLength pb, op] ++ pb ++ [checksum id (wireLength pb) op pb]

/-- `resolve` (R20). -/
def resolve : DeviceAddress → Byte
  | .broadcast => 0xFE#8
  | .id n => BitVec.ofNat 8 n.val

/-- The device address a raw u8 operand names: 0..253 resolve to `Id`, 0xFE to `Broadcast`, and 0xFF is not a device
address (R20, R58). -/
def addressOf (b : Byte) : Option DeviceAddress :=
  if h : b.toNat < 254 then some (.id ⟨b.toNat, h⟩)
  else if b = 0xFE#8 then some .broadcast
  else none

/-- The index of a status flag (R22). -/
def flagIndex : StatusFlag → Nat
  | .success => 0
  | .instruction => 1
  | .overload => 2
  | .checksum => 3
  | .range => 4
  | .overheating => 5
  | .angleLimit => 6
  | .inputVoltage => 7

/-- The eight members in the order of R22. -/
def allFlags : List StatusFlag :=
  [.success, .instruction, .overload, .checksum, .range, .overheating, .angleLimit, .inputVoltage]

end Sys2Proof.Machine
end

