-- ==== Sys2Proof/Machine/Flags.lean ====
section
/-! DEFINITION. The status flags codec (42_status_flags.md R170, R171; 10_state.md R22; 30_encoding.md R79). The block
has no flags of its own (10_state.md R36): these are the device's, data inside a Status packet (R172). -/

namespace Sys2Proof.Machine

/-- The empty flag set: success (R22). -/
def noFlags : FlagSet := ⟨false, false, false, false, false, false, false⟩

/-- `flag ∈ S`. `Success` is in no flag set (R22). -/
def hasFlag (s : FlagSet) : StatusFlag → Bool
  | .success => false
  | .instruction => s.instruction
  | .overload => s.overload
  | .checksum => s.checksum
  | .range => s.range
  | .overheating => s.overheating
  | .angleLimit => s.angleLimit
  | .inputVoltage => s.inputVoltage

/-- `S ∪ { flag }`; the pseudo-flag `Success` stands for no bit (R22). -/
def addFlag (s : FlagSet) : StatusFlag → FlagSet
  | .success => s
  | .instruction => { s with instruction := true }
  | .overload => { s with overload := true }
  | .checksum => { s with checksum := true }
  | .range => { s with range := true }
  | .overheating => { s with overheating := true }
  | .angleLimit => { s with angleLimit := true }
  | .inputVoltage => { s with inputVoltage := true }

/-- The named flags, indices 1..7 (R22). -/
def namedFlags : List StatusFlag :=
  [.instruction, .overload, .checksum, .range, .overheating, .angleLimit, .inputVoltage]

/-- `status_decode`: for i in 1..7, bit i set puts `flag_of_index(i)` in the set; "bit 0 is ignored" (R170). -/
def statusDecode (b : Byte) : FlagSet :=
  namedFlags.foldl (fun s f => if b.getLsbD (flagIndex f) then addFlag s f else s) noFlags

/-- `for f in flags: r <- r | (1 << index(f))` (R171). -/
def orBits (r : Byte) : List StatusFlag → Byte
  | [] => r
  | f :: rest => orBits (r ||| (1#8 <<< flagIndex f)) rest

/-- `status_encode`: `Success` anywhere gives 0x00 (`STATUS_ENCODE_SUCCESS = ShortCircuit`), else the OR of the flags'
bits (R171). -/
def statusEncode (setting : StatusEncodeSuccess) (flags : List StatusFlag) : Byte :=
  match setting with
  | .shortCircuit => if flags.contains .success then 0x00#8 else orBits 0x00#8 flags

/-- The members of a flag set, in index order. -/
def flagList (s : FlagSet) : List StatusFlag := namedFlags.filter (hasFlag s)

end Sys2Proof.Machine
end

