-- ==== Sys2Proof/WellFormed.lean ====
section
/-! DEFINITION. Which instruction terms can stand on the wire. A host command's operands are typed values and every one
can be expressed (30_encoding.md R85), so every host command is well formed; a wire instruction is well formed when the
block can emit its frame (30_encoding.md R70 to R78, 43_multi_device.md R180, R190). -/

namespace Sys2Proof

/-- A device address on the wire: 0x00..0xFE (R70, R58). -/
def validAddress (b : Byte) : Bool := b != headerByte

/-- A concrete device id: 0..253 (R20, R58). -/
def concreteId (b : Byte) : Bool := b.toNat ≤ 253

/-- A Parameter's data is 1..4 bytes (R6, R76). -/
def validData (data : List Byte) : Bool := 1 ≤ data.length && data.length ≤ 4

/-- Every id is below the next one. -/
def strictlyAscending : List Byte → Bool
  | a :: b :: rest => a.toNat < b.toNat && strictlyAscending (b :: rest)
  | _ => true

/-- `n` data bytes from register `first` are a run of values of one width 1..4 whose addresses are all u8 values
(R182). -/
def runFits (first : Byte) (n : Nat) : Bool :=
  [1, 2, 3, 4].any fun bl => n % bl == 0 && first.toNat + n ≤ 255 + bl

/-- The data bytes of each device of a SyncWrite: the first device's count (R77: `c*bl`). -/
def groupSize : List SyncGroup → Nat
  | [] => 0
  | g :: _ => g.data.length

/-- A SyncWrite parameter block the block can emit (R77, R180): at least one device, concrete ids in ascending order,
the same count of data bytes for each, a run of u8 addresses, at most 253 bytes. -/
def validGroups (first : Byte) (groups : List SyncGroup) : Bool :=
  !groups.isEmpty
    && groups.all (fun g => concreteId g.deviceId)
    && strictlyAscending (groups.map SyncGroup.deviceId)
    && 1 ≤ groupSize groups
    && groups.all (fun g => g.data.length == groupSize groups)
    && runFits first (groupSize groups)
    && 2 + groups.length * (1 + groupSize groups) ≤ maxParamBytes

/-- No id stands twice (R27). -/
def distinctIds : List Byte → Bool
  | [] => true
  | d :: rest => !rest.contains d && distinctIds rest

/-- A BulkRead parameter block the block can emit (R78, R190). -/
def validBulk (entries : List BulkReadEntry) : Bool :=
  !entries.isEmpty
    && distinctIds (entries.map BulkReadEntry.deviceId)
    && entries.all (fun e => concreteId e.deviceId)
    && 1 + 3 * entries.length ≤ maxParamBytes

/-- The check on instruction terms. -/
def Instr.wellFormed : Instr → Bool
  | .ping id => validAddress id
  | .read id _ _ => validAddress id
  | .write id _ data => validAddress id && validData data
  | .regWrite id _ data => validAddress id && validData data
  | .action id => validAddress id
  | .reset id => validAddress id
  | .reboot id => validAddress id
  | .syncWrite first groups => validGroups first groups
  | .bulkRead entries => validBulk entries
  | .buildPing _ => true
  | .buildRead _ _ _ => true
  | .buildWrite _ _ _ => true
  | .buildRegWrite _ _ _ => true
  | .buildAction _ => true
  | .buildReset _ => true
  | .buildReboot _ => true
  | .buildSyncWrite _ => true
  | .buildBulkRead _ => true
  | .generate _ => true
  | .parse _ _ _ => true
  | .expectedReplyLength _ _ => true
  | .send _ _ _ => true
  | .receive => true
  | .checksum _ _ _ _ => true
  | .paramUnsigned _ _ => true
  | .paramSigned _ _ => true
  | .paramAsBytes _ => true
  | .paramFromSlice _ => true
  | .opcodeEncode _ => true
  | .opcodeDecode _ => true
  | .statusDecode _ => true
  | .statusEncode _ => true

/-- A wire instruction, as against a host command (the table's "format"). -/
def Instr.isWire : Instr → Bool
  | .ping _ | .read _ _ _ | .write _ _ _ | .regWrite _ _ _ | .action _ | .reset _ | .reboot _
  | .syncWrite _ _ | .bulkRead _ => true
  | .buildPing _ | .buildRead _ _ _ | .buildWrite _ _ _ | .buildRegWrite _ _ _ | .buildAction _ | .buildReset _
  | .buildReboot _ | .buildSyncWrite _ | .buildBulkRead _ | .generate _ | .parse _ _ _ | .expectedReplyLength _ _
  | .send _ _ _ | .receive | .checksum _ _ _ _ | .paramUnsigned _ _ | .paramSigned _ _ | .paramAsBytes _
  | .paramFromSlice _ | .opcodeEncode _ | .opcodeDecode _ | .statusDecode _ | .statusEncode _ => false

end Sys2Proof
end

