-- ==== Sys2Proof/Decode.lean ====
section
/-! DEFINITION. Decoding and encoding. A wire instruction is its frame (30_encoding.md R70, R74, R76 to R78). A host
command is a record of the command code and typed operands (R82, R85); the spec gives the record no byte layout, and the
one here is the model's (DESIGN CHOICE, log 1). Decoding is total on any bytes and rejects by name. -/

namespace Sys2Proof

open Sys2Proof.Machine

/-- The table's two formats: `host_command` and `wire_instruction_frame`. -/
inductive Format where
  | hostCommand
  | wireFrame
deriving DecidableEq, Repr

/-- What the host hands to the block: bytes in one of the two formats. -/
structure Encoded where
  format : Format
  bytes  : List Byte
deriving DecidableEq, Repr

/-- Why bytes are no instruction. -/
inductive DecodeError where
  /-- A record with no command code. -/
  | emptyRecord
  /-- A command code that is not in R82's table (R84). -/
  | illegalCommand (cmd : Byte)
  /-- The bytes after the command code are not that command's operands. -/
  | malformedOperands (cmd : Byte)
  /-- Bytes are left over after the last operand. -/
  | trailingBytes (cmd : Byte)
  /-- A frame of fewer than 6 bytes (R72). -/
  | frameTooShort
  /-- A frame that does not start `0xFF 0xFF` (R70). -/
  | badHeader
  /-- A length byte that is not P + 2 (R72). -/
  | badLength
  /-- A checksum byte that is not R120's. -/
  | badChecksum
  /-- An opcode byte that is not in R74's table (R75). -/
  | unknownOpcode (op : Byte)
  /-- A parameter block, or an id, that the opcode's instruction does not have (R70, R76 to R78). -/
  | badParameters (op : Byte)
deriving DecidableEq, Repr

/-! ### Reading a host command record -/

/-- A reader takes a value off the front of the bytes. -/
abbrev Reader (α : Type) := List Byte → Option (α × List Byte)

/-- The reader that takes nothing. -/
def readNothing {α : Type} (a : α) : Reader α := fun b => some (a, b)

/-- Read with `r`, then go on with what it gave. -/
def readThen {α β : Type} (r : Reader α) (f : α → Reader β) : Reader β := fun b =>
  match r b with
  | none => none
  | some (a, rest) => f a rest

/-- A u8 operand is one byte. -/
def readU8 : Reader Byte
  | [] => none
  | b :: rest => some (b, rest)

/-- A u64 or i64 operand is eight bytes, least significant first. -/
def readU64 : Reader Word64 := fun b =>
  if b.length < 8 then none else some (BitVec.ofNat 64 (unLE (b.take 8)), b.drop 8)

/-- A member of a closed set is one byte, its position in the set's list. -/
def readMember {α : Type} (members : List α) : Reader α := fun b =>
  match b with
  | [] => none
  | i :: rest => (members[i.toNat]?).map fun a => (a, rest)

/-- Read a list's elements, each after a byte 0x01, up to a byte 0x00; `fuel` bounds the number of markers. -/
def readElements {α : Type} (r : Reader α) : Nat → Reader (List α)
  | 0, _ => none
  | _ + 1, [] => none
  | fuel + 1, marker :: rest =>
    if marker = 0x00#8 then some ([], rest)
    else if marker = 0x01#8 then
      match r rest with
      | none => none
      | some (a, rest') =>
        match readElements r fuel rest' with
        | none => none
        | some (as, rest'') => some (a :: as, rest'')
    else none

/-- A list operand, of any length. -/
def readList {α : Type} (r : Reader α) : Reader (List α) := fun b => readElements r b.length b

/-- A Parameter operand: kind, value, byte_length (R23, R85). -/
def readParameter : Reader Parameter :=
  readThen (readMember [ParamKind.unsigned, .signed]) fun kind =>
  readThen readU64 fun value =>
  readThen readU8 fun byteLength => readNothing ⟨kind, value, byteLength⟩

/-- The flag set of a Status packet operand is one byte, bit 0 clear. -/
def readFlagSet : Reader FlagSet := fun b =>
  match b with
  | [] => none
  | f :: rest => if f.getLsbD 0 then none else some (statusDecode f, rest)

/-- The operation of a Packet operand: 0x00 and an instruction code, or 0x01 and a flag set (R24). -/
def readOperation : Reader Operation :=
  readThen (readMember [false, true]) fun isStatus =>
    if isStatus then readThen readFlagSet fun f => readNothing (.status f)
    else readThen (readMember allCodes) fun c => readNothing (.instruction c)

/-- A Packet operand (R24). -/
def readPacket : Reader Packet :=
  readThen readU8 fun addr =>
  readThen readOperation fun operation =>
  readThen (readList readParameter) fun parameters =>
  readThen readU8 fun cks => readNothing ⟨addr, operation, parameters, cks⟩

/-- A SyncWriteEntry operand (R26). -/
def readSyncEntry : Reader SyncWriteEntry :=
  readThen readU8 fun id => readThen readU8 fun reg => readThen readParameter fun data => readNothing ⟨id, reg, data⟩

/-- A BulkReadEntry operand (R27). -/
def readBulkEntry : Reader BulkReadEntry :=
  readThen readU8 fun id => readThen readU8 fun len => readThen readU8 fun reg => readNothing ⟨id, len, reg⟩

/-- The operands of each host command, in R82's order, by its command code. -/
def commandTable : List (Byte × Reader Instr) :=
  [ (0x01#8, readThen readU8 fun a => readNothing (.buildPing a)),
    (0x02#8, readThen readU8 fun a => readThen readU8 fun r => readThen readU8 fun n => readNothing (.buildRead a r n)),
    (0x03#8, readThen readU8 fun a => readThen readU8 fun r => readThen readParameter fun d => readNothing (.buildWrite a r d)),
    (0x04#8, readThen readU8 fun a => readThen readU8 fun r => readThen readParameter fun d => readNothing (.buildRegWrite a r d)),
    (0x05#8, readThen readU8 fun a => readNothing (.buildAction a)),
    (0x06#8, readThen readU8 fun a => readNothing (.buildReset a)),
    (0x07#8, readThen readU8 fun a => readNothing (.buildReboot a)),
    (0x83#8, readThen (readList readSyncEntry) fun es => readNothing (.buildSyncWrite es)),
    (0x92#8, readThen (readList readBulkEntry) fun es => readNothing (.buildBulkRead es)) ]
  ++
  [ (0x10#8, readThen readPacket fun p => readNothing (.generate p)),
    (0x11#8, readThen (readList readU8) fun b => readThen readU8 fun c => readThen readU8 fun n => readNothing (.parse b c n)),
    (0x12#8, readThen readU8 fun c => readThen readU8 fun n => readNothing (.expectedReplyLength c n)),
    (0x13#8, readThen readPacket fun p => readThen readU8 fun c => readThen readU8 fun n => readNothing (.send p c n)),
    (0x14#8, readNothing .receive),
    (0x15#8, readThen readU8 fun i => readThen readU8 fun l => readThen readU8 fun o => readThen (readList readU8) fun b =>
      readNothing (.checksum i l o b)) ]
  ++
  [ (0x20#8, readThen readU64 fun v => readThen readU8 fun n => readNothing (.paramUnsigned v n)),
    (0x21#8, readThen readU64 fun v => readThen readU8 fun n => readNothing (.paramSigned v n)),
    (0x22#8, readThen readParameter fun p => readNothing (.paramAsBytes p)),
    (0x23#8, readThen (readList readParameter) fun ps => readNothing (.paramFromSlice ps)),
    (0x30#8, readThen (readMember allCodes) fun c => readNothing (.opcodeEncode c)),
    (0x31#8, readThen readU8 fun b => readNothing (.opcodeDecode b)),
    (0x40#8, readThen readU8 fun b => readNothing (.statusDecode b)),
    (0x41#8, readThen (readList (readMember allFlags)) fun fs => readNothing (.statusEncode fs)) ]

/-- Read one host command off the front of the bytes: the command code matches all 8 bits (R82), an unassigned one is
illegal whatever follows it (R84). -/
def readCommand : List Byte → Except DecodeError (Instr × List Byte)
  | [] => .error .emptyRecord
  | cmd :: rest =>
    match commandTable.lookup cmd with
    | none => .error (.illegalCommand cmd)
    | some r =>
      match r rest with
      | none => .error (.malformedOperands cmd)
      | some answer => .ok answer

/-- A command record is one host command and nothing after it. -/
def decodeCommand (record : List Byte) : Except DecodeError Instr :=
  match readCommand record with
  | .error e => .error e
  | .ok (i, []) => .ok i
  | .ok (_, _ :: _) => .error (.trailingBytes (record.headD 0x00#8))

/-! ### Reading a wire instruction frame -/

/-- The devices of a SyncWrite parameter block: each an id and `n` data bytes (R77); `fuel` bounds their number. -/
def splitGroups (n : Nat) : Nat → List Byte → Option (List SyncGroup)
  | _, [] => some []
  | 0, _ :: _ => none
  | fuel + 1, id :: rest =>
    if rest.length < n then none
    else (splitGroups n fuel (rest.drop n)).map fun gs => ⟨id, rest.take n⟩ :: gs

/-- The entries of a BulkRead parameter block: `[read_length, device_id, register_address]` (R78). -/
def splitTriples : List Byte → Option (List BulkReadEntry)
  | [] => some []
  | len :: id :: reg :: rest => (splitTriples rest).map fun es => ⟨id, len, reg⟩ :: es
  | _ => none

/-- An empty parameter block (R76). -/
def noBlock (i : Instr) : List Byte → Option Instr
  | [] => some i
  | _ :: _ => none

/-- Read's parameter block: `[register_address, read_length]` (R76). -/
def readBlock (id : Byte) : List Byte → Option Instr
  | [reg, length] => some (.read id reg length)
  | _ => none

/-- Write's and RegWrite's parameter block: `[register_address, data bytes]` (R76). -/
def writeBlock (make : Byte → List Byte → Instr) : List Byte → Option Instr
  | reg :: data => some (make reg data)
  | [] => none

/-- SyncWrite's parameter block, sent to 0xFE: `[first, c*bl]` and the devices (R77). -/
def syncBlock (id : Byte) : List Byte → Option Instr
  | first :: size :: body =>
    if id = broadcastId then (splitGroups size.toNat body.length body).map (.syncWrite first) else none
  | _ => none

/-- BulkRead's parameter block, sent to 0xFE: `[0x00]` and the entries (R78). -/
def bulkBlock (id : Byte) : List Byte → Option Instr
  | reserved :: body => if id = broadcastId ∧ reserved = 0x00#8 then (splitTriples body).map .bulkRead else none
  | [] => none

/-- The instruction of a frame's id, opcode and parameter block (R76, R77, R78). -/
def wireInstr (id : Byte) (code : InstructionCode) (pb : List Byte) : Option Instr :=
  match code with
  | .ping => noBlock (.ping id) pb
  | .read => readBlock id pb
  | .write => writeBlock (.write id) pb
  | .regWrite => writeBlock (.regWrite id) pb
  | .action => noBlock (.action id) pb
  | .reset => noBlock (.reset id) pb
  | .reboot => noBlock (.reboot id) pb
  | .syncWrite => syncBlock id pb
  | .bulkRead => bulkBlock id pb

/-- A wire instruction's frame, all of its fields checked (R70, R72, R74, R120). -/
def decodeFrame (frame : List Byte) : Except DecodeError Instr :=
  match frame with
  | h0 :: h1 :: id :: len :: op :: p0 :: rest =>
    let tail := p0 :: rest
    let pb := tail.dropLast
    if h0 ≠ headerByte ∨ h1 ≠ headerByte then .error .badHeader
    else if len.toNat ≠ pb.length + 2 then .error .badLength
    else if tail.getLast? ≠ some (checksum id len op pb) then .error .badChecksum
    else
      match codeOf op with
      | none => .error (.unknownOpcode op)
      | some code =>
        match wireInstr id code pb with
        | none => .error (.badParameters op)
        | some i => if i.wellFormed then .ok i else .error (.badParameters op)
  | _ => .error .frameTooShort

/-- THE DECODER, total on any bytes. -/
def decode (e : Encoded) : Except DecodeError Instr :=
  match e.format with
  | .hostCommand => decodeCommand e.bytes
  | .wireFrame => decodeFrame e.bytes

/-! ### Encoding -/

/-- A u64 or i64 operand's eight bytes. -/
def writeU64 (v : Word64) : List Byte := leBytes 8 v

/-- A list operand: 0x01 before each element, 0x00 at the end. -/
def writeList {α : Type} (w : α → List Byte) : List α → List Byte
  | [] => [0x00#8]
  | a :: as => 0x01#8 :: (w a ++ writeList w as)

/-- A kind's position in `[Unsigned, Signed]`. -/
def writeKind : ParamKind → Byte
  | .unsigned => 0x00#8
  | .signed => 0x01#8

/-- An instruction code's position in R74's list. -/
def writeCode : InstructionCode → Byte
  | .ping => 0x00#8
  | .read => 0x01#8
  | .write => 0x02#8
  | .regWrite => 0x03#8
  | .action => 0x04#8
  | .reset => 0x05#8
  | .reboot => 0x06#8
  | .syncWrite => 0x07#8
  | .bulkRead => 0x08#8

/-- A status flag is "carried as its index 0..7" (R171). -/
def writeFlag (f : StatusFlag) : List Byte := [BitVec.ofNat 8 (flagIndex f)]

/-- A Parameter operand. -/
def writeParameter (p : Parameter) : List Byte := writeKind p.kind :: (writeU64 p.value ++ [p.byteLength])

/-- A Packet operand's operation. -/
def writeOperation : Operation → List Byte
  | .instruction c => [0x00#8, writeCode c]
  | .status f => [0x01#8, orBits 0x00#8 (flagList f)]

/-- A Packet operand. -/
def writePacket (p : Packet) : List Byte :=
  p.deviceAddress :: (writeOperation p.operation ++ (writeList writeParameter p.parameters ++ [p.checksum]))

/-- A SyncWriteEntry operand. -/
def writeSyncEntry (e : SyncWriteEntry) : List Byte := e.deviceId :: e.registerAddress :: writeParameter e.data

/-- A BulkReadEntry operand. -/
def writeBulkEntry (e : BulkReadEntry) : List Byte := [e.deviceId, e.readLength, e.registerAddress]

/-- One device's part of a SyncWrite parameter block (R77). -/
def groupBytes (g : SyncGroup) : List Byte := g.deviceId :: g.data

/-- One entry's part of a BulkRead parameter block (R78). -/
def entryBytes (e : BulkReadEntry) : List Byte := [e.readLength, e.deviceId, e.registerAddress]

/-- A host command record. -/
def hostCommand (bytes : List Byte) : Encoded := ⟨.hostCommand, bytes⟩

/-- A wire instruction frame. -/
def wireFrame (id op : Byte) (pb : List Byte) : Encoded := ⟨.wireFrame, frameBytes id op pb⟩

/-- THE ENCODER: the bytes of an instruction (R70, R74, R76 to R78 for a wire instruction; R82's codes and operand order
for a host command). -/
def encode : Instr → Encoded
  | .ping id => wireFrame id 0x01#8 []
  | .read id reg length => wireFrame id 0x02#8 [reg, length]
  | .write id reg data => wireFrame id 0x03#8 (reg :: data)
  | .regWrite id reg data => wireFrame id 0x04#8 (reg :: data)
  | .action id => wireFrame id 0x05#8 []
  | .reset id => wireFrame id 0x06#8 []
  | .reboot id => wireFrame id 0x07#8 []
  | .syncWrite first groups =>
    wireFrame broadcastId 0x83#8 (first :: BitVec.ofNat 8 (groupSize groups) :: groups.flatMap groupBytes)
  | .bulkRead entries => wireFrame broadcastId 0x92#8 (0x00#8 :: entries.flatMap entryBytes)
  | .buildPing a => hostCommand [0x01#8, a]
  | .buildRead a r n => hostCommand [0x02#8, a, r, n]
  | .buildWrite a r d => hostCommand (0x03#8 :: a :: r :: writeParameter d)
  | .buildRegWrite a r d => hostCommand (0x04#8 :: a :: r :: writeParameter d)
  | .buildAction a => hostCommand [0x05#8, a]
  | .buildReset a => hostCommand [0x06#8, a]
  | .buildReboot a => hostCommand [0x07#8, a]
  | .buildSyncWrite es => hostCommand (0x83#8 :: writeList writeSyncEntry es)
  | .buildBulkRead es => hostCommand (0x92#8 :: writeList writeBulkEntry es)
  | .generate p => hostCommand (0x10#8 :: writePacket p)
  | .parse b c n => hostCommand (0x11#8 :: (writeList (fun x => [x]) b ++ [c, n]))
  | .expectedReplyLength c n => hostCommand [0x12#8, c, n]
  | .send p c n => hostCommand (0x13#8 :: (writePacket p ++ [c, n]))
  | .receive => hostCommand [0x14#8]
  | .checksum i l o b => hostCommand (0x15#8 :: i :: l :: o :: writeList (fun x => [x]) b)
  | .paramUnsigned v n => hostCommand (0x20#8 :: (writeU64 v ++ [n]))
  | .paramSigned v n => hostCommand (0x21#8 :: (writeU64 v ++ [n]))
  | .paramAsBytes p => hostCommand (0x22#8 :: writeParameter p)
  | .paramFromSlice ps => hostCommand (0x23#8 :: writeList writeParameter ps)
  | .opcodeEncode c => hostCommand [0x30#8, writeCode c]
  | .opcodeDecode b => hostCommand [0x31#8, b]
  | .statusDecode b => hostCommand [0x40#8, b]
  | .statusEncode fs => hostCommand (0x41#8 :: writeList writeFlag fs)

/-! ### The table's words -/

/-- More zero bytes than any command record of zero operands has. -/
def zeroOperands : List Byte := List.replicate 16 0x00#8

/-- The command record of a table word: its bytes, first byte the least significant, then the operand bytes of zeros
that the command has. -/
def tableRecord (nbits w : Nat) : List Byte :=
  let bytes := (List.range (nbits / 8)).map (fun k => BitVec.ofNat 8 (w >>> (8 * k)))
  match readCommand (bytes ++ zeroOperands) with
  | .ok (_, rest) => (bytes ++ zeroOperands).take (bytes.length + zeroOperands.length - rest.length)
  | .error _ => bytes

/-- What the decoder reads from a table word. A code that the table gives both to a wire instruction and to a host
command is read as the host command (log 4). -/
def decodeTableWord (nbits w : Nat) : Option Instr :=
  match decode (hostCommand (tableRecord nbits w)) with
  | .ok i => some i
  | .error _ => none

end Sys2Proof
end

