-- ==== Sys2Proof/Machine/Response.lean ====
section
/-! DEFINITION. What a command answers (30_encoding.md R82, R83; 60_exceptions.md R220) and what the transport is asked
(00_scope.md R9). -/

namespace Sys2Proof.Machine

/-- The payload of a `TransportError`: "IoError, or ShortWrite(k)" (R220). -/
inductive TransportFailure where
  | io (e : IoError)
  | shortWrite (written : Nat)
deriving DecidableEq, Repr

/-- The errors of R220 with their payloads (R83). -/
inductive CmdError where
  | noDynamixels
  | inconsistentSize
  | inconsistentLength
  | inconsistentAddresses
  | duplicateDeviceId (id : Byte)
  | invalidDeviceId (id : Byte)
  | parameterTooWide
  | invalidByteLength
  | frameTooLong
  | notAnInstruction
  | invalidHeader
  | invalidLength
  | invalidChecksum
  | unknownInstruction (code : Byte)
  | unsupportedReadLength
  | transportError (why : TransportFailure)
  | exchangeInFlight
  | noExchange
  | illegalCommand
deriving DecidableEq, Repr

/-- The OK payloads of R82's table. -/
inductive Payload where
  | packet (p : Packet)
  | frame (bytes : List Byte)
  | replyLength (n : Option Nat)
  | written (n : Nat)
  | byte (b : Byte)
  | parameter (p : Parameter)
  | bytes (bs : List Byte)
  | code (c : InstructionCode)
  | flags (fs : FlagSet)
deriving DecidableEq, Repr

/-- A response: OK with a payload, or an error (R83). -/
inductive Response where
  | ok (payload : Payload)
  | error (e : CmdError)
deriving DecidableEq, Repr

/-- A call of the transport with its result (R9, R150, R151). -/
inductive TransportCall where
  | write (frame : List Byte) (result : TxResult)
  | readExact (n : Nat) (result : RxResult)
deriving DecidableEq, Repr

/-- The payload an error response carries (R83, R223): the offending byte, the transport's error, or nothing. -/
inductive ErrorPayload where
  | none
  | byte (b : Byte)
  | transport (why : TransportFailure)
deriving DecidableEq, Repr

/-- The numeric error codes (R220, D4). -/
def errorCode : CmdError → Byte
  | .noDynamixels => 0x01#8
  | .inconsistentSize => 0x02#8
  | .inconsistentLength => 0x03#8
  | .inconsistentAddresses => 0x04#8
  | .duplicateDeviceId _ => 0x05#8
  | .invalidDeviceId _ => 0x06#8
  | .parameterTooWide => 0x07#8
  | .invalidByteLength => 0x08#8
  | .frameTooLong => 0x09#8
  | .notAnInstruction => 0x0A#8
  | .invalidHeader => 0x10#8
  | .invalidLength => 0x11#8
  | .invalidChecksum => 0x12#8
  | .unknownInstruction _ => 0x13#8
  | .unsupportedReadLength => 0x14#8
  | .transportError _ => 0x20#8
  | .exchangeInFlight => 0x21#8
  | .noExchange => 0x22#8
  | .illegalCommand => 0xFF#8

/-- A response's `code` field: 0x00 is OK (R83, R220). -/
def responseCode : Response → Byte
  | .ok _ => 0x00#8
  | .error e => errorCode e

/-- What an error response records (R83, R223). -/
def errorPayload : CmdError → ErrorPayload
  | .duplicateDeviceId id => .byte id
  | .invalidDeviceId id => .byte id
  | .unknownInstruction code => .byte code
  | .transportError why => .transport why
  | .noDynamixels | .inconsistentSize | .inconsistentLength | .inconsistentAddresses | .parameterTooWide
  | .invalidByteLength | .frameTooLong | .notAnInstruction | .invalidHeader | .invalidLength | .invalidChecksum
  | .unsupportedReadLength | .exchangeInFlight | .noExchange | .illegalCommand => .none

/-- The class of an error (R221). -/
inductive ErrorClass where
  | build | parse | exchange | command
deriving DecidableEq, Repr

/-- R220's class column: codes 0x01..0x0A build, 0x10..0x14 parse, 0x20..0x22 exchange, 0xFF command (R221). -/
def errorClass : CmdError → ErrorClass
  | .noDynamixels | .inconsistentSize | .inconsistentLength | .inconsistentAddresses | .duplicateDeviceId _
  | .invalidDeviceId _ | .parameterTooWide | .invalidByteLength | .frameTooLong | .notAnInstruction => .build
  | .invalidHeader | .invalidLength | .invalidChecksum | .unknownInstruction _ | .unsupportedReadLength => .parse
  | .transportError _ | .exchangeInFlight | .noExchange => .exchange
  | .illegalCommand => .command

end Sys2Proof.Machine
end

