-- ==== Sys2Proof/Machine/State.lean ====
section
/-! DEFINITION. The machine's state, plain data. The spec's own state is `outstanding` (10_state.md R33), the constants
`config` (R35, R37) and the responses (30_encoding.md R83, R40); the other fields stand for the host and the transport
(00_scope.md R9). The block has no registers, pc, flags, modes or memory (R36, 20_memory.md R61). -/

namespace Sys2Proof.Machine

/-- An open exchange: `{ ctx: ReplyContext, expect: Nat }` (R33). -/
structure Exchange where
  ctx    : ReplyContext
  expect : Nat
deriving DecidableEq, Repr

/-- What the host does next (R9, R260). -/
inductive HostEvent where
  /-- Issue a command record, or hand over a wire instruction to be encoded (log 3). -/
  | issue (e : Encoded)
  /-- Reset between commands (R260). -/
  | reset
  /-- Reset while a command is in progress: `committed` says whether it comes after the command's commit point, its
  transport call (R260, I18; log 12). -/
  | resetDuring (e : Encoded) (committed : Bool)
deriving DecidableEq, Repr

/-- No command faults: "no operation panics", errors are "returned not thrown" (60_exceptions.md R231, R233). Nobody
raises a fault; the type is empty (log 22). -/
inductive Fault where
deriving DecidableEq, Repr

/-- Why a step has no meaning. -/
inductive Refusal where
  /-- Raised by an arm of exec whose instruction has no meaning yet; none is left. Safe: the model stops. -/
  | notModelled (mnemonic : String)
  /-- Raised by the step when the host's bytes are no command record and no wire instruction: the host has no such
  move, since a command's operands are typed values (R85). Safe: the model stops. -/
  | undecodable (why : DecodeError)
deriving DecidableEq, Repr

/-- The machine's state. -/
structure State where
  /-- `st.outstanding`, the exchange tracker (R33). -/
  outstanding : Option Exchange
  /-- The constants fixed when the block is built (R6, R35, R37). -/
  config : Config
  /-- The host's events still to come, the next one first (R8, R65; log 2). -/
  host : List HostEvent
  /-- The transport's answers to the next `TxWrite` calls; past the last one, free draws (R9; log 5). -/
  txAnswers : List TxResult
  /-- The transport's answers to the next `RxReadExact` calls; past the last one, free draws of the length asked for (R9;
  logs 5, 16). -/
  rxAnswers : List RxResult
  /-- The transport calls made, newest first (R253; log 10). -/
  bus : List TransportCall
  /-- The responses returned, newest first (R83; log 10). -/
  responses : List Response
deriving DecidableEq, Repr

/-- The state after power-on or reset (R40, R260, R261): no outstanding exchange, the built constants, no response
pending; no host event, no transport answer and no transport call yet (log 2, log 5, log 10). -/
def State.reset : State where
  outstanding := none
  config      := Config.hardware
  host        := []
  txAnswers   := []
  rxAnswers   := []
  bus         := []
  responses   := []

end Sys2Proof.Machine
end

