-- ==== Sys2Proof/Machine/Ops.lean ====
section
/-! DEFINITION. The shared operations on the state: returning a response (30_encoding.md R83), an error response, which
is the block's analogue of taking an exception (60_exceptions.md R231), the two transport calls (00_scope.md R9), the
exchange tracker (10_state.md R33) and reset (70_reset_and_hazards.md R260). There is no return from an error to model:
"No trap-return command exists, and there is nothing to return from" (R232). -/

namespace Sys2Proof.Machine

/-- Return a response: "Every command returns exactly one response" (R83). -/
def State.answer (s : State) (r : Response) : State := { s with responses := r :: s.responses }

/-- `raise E(info)`: the command ends with an error response; "Nothing is saved, no mode or mask changes, no vector is
taken and no handler runs" (R231). -/
def State.raise (s : State) (e : CmdError) : State := s.answer (.error e)

/-- The response of a result (R83). -/
def resultResponse : Except CmdError Payload → Response
  | .ok v => .ok v
  | .error e => .error e

/-- End a command with its result: `return v` or `raise E` (00_scope.md section 6). -/
def State.finish (s : State) : Except CmdError Payload → State
  | .ok v => s.answer (.ok v)
  | .error e => s.raise e

/-- The transport's next answer to a `TxWrite`: the next of `txAnswers`, or a free draw (R9, I15). -/
def State.txAnswer (s : State) : TxResult :=
  match s.txAnswers with
  | r :: _ => r
  | [] => Config.txDraw s.bus.length

/-- A free draw of the answer to an `RxReadExact(n)`: "any byte sequence of the requested length, or an `IoError`" (R9,
I15). -/
def State.rxDraw (s : State) (n : Nat) : RxResult :=
  match Config.rxFailure s.bus.length with
  | some e => .err e
  | none => .ok ((List.range n).map (Config.rxByte s.bus.length))

/-- The transport's next answer to an `RxReadExact(n)`: the next of `rxAnswers`, or a free draw (R9). A listed answer of
another number of bytes breaks the transport's contract; RECEIVE rejects it (R151; log 16). -/
def State.rxAnswer (s : State) (n : Nat) : RxResult :=
  match s.rxAnswers with
  | r :: _ => r
  | [] => s.rxDraw n

/-- `TxWrite(frame)`: the call is made, and its answer is used up. -/
def State.txWrite (s : State) (frame : List Byte) : State :=
  { s with txAnswers := s.txAnswers.tail, bus := .write frame s.txAnswer :: s.bus }

/-- `RxReadExact(n)`: the call is made, and its answer is used up. -/
def State.rxReadExact (s : State) (n : Nat) : State :=
  { s with rxAnswers := s.rxAnswers.tail, bus := .readExact n (s.rxAnswer n) :: s.bus }

/-- `st.outstanding <- v` (R33). -/
def State.setOutstanding (s : State) (v : Option Exchange) : State := { s with outstanding := v }

/-- The reset: "`st.outstanding <- none`. The configuration constants are unchanged"; nothing is flushed, sent or read
(R260). -/
def State.applyReset (s : State) : State := s.setOutstanding none

/-- A command that a reset abandons after its commit point has made its step, but "no response is returned for the
command" (R260): the responses are those from before it. -/
def State.withoutResponse (s before : State) : State := { s with responses := before.responses }

/-- The host's first event is taken. -/
def State.withHost (s : State) (rest : List HostEvent) : State := { s with host := rest }

end Sys2Proof.Machine
end

