-- ==== Sys2Proof/Machine/Operands.lean ====
section
/-! DEFINITION. The operand forms: Parameters (10_state.md R23, 40_parameter.md R102 to R104), reply contexts
(41_packet_codec.md R141, R145) and device addresses (10_state.md R20). -/

namespace Sys2Proof.Machine

/-- The unsigned Parameter `{Unsigned, v, n}` of a value the block supplies itself. -/
def unsignedParam (v n : Nat) : Parameter := ⟨.unsigned, BitVec.ofNat 64 v, BitVec.ofNat 8 n⟩

/-- The 1-byte unsigned Parameter of a byte. -/
def byteParam (b : Byte) : Parameter := unsignedParam b.toNat 1

/-- `byte_length` is 1..4 (R6, R23). -/
abbrev validWidth (n : Byte) : Prop := 1 ≤ n.toNat ∧ n.toNat ≤ 4

/-- The number a Parameter holds: a u64 or an i64 (R23). -/
def paramValue (p : Parameter) : Int :=
  match p.kind with
  | .unsigned => p.value.toNat
  | .signed => p.value.toInt

/-- `fits(Unsigned, v, n) = v < 256^n` and `fits(Signed, v, n) = -(2^(8n-1)) <= v < 2^(8n-1)` (R23). -/
def fits (kind : ParamKind) (value : Word64) (n : Nat) : Bool :=
  match kind with
  | .unsigned => decide (value.toNat < 256 ^ n)
  | .signed => decide (-(2 ^ (8 * n - 1) : Int) ≤ value.toInt) && decide (value.toInt < 2 ^ (8 * n - 1))

/-- `check_param(p)` (R102): InvalidByteLength first, then ParameterTooWide. A command that R37 lists as a reader of
PARAM_WIDTH_POLICY passes the constant, and under `Truncate`, which is not this hardware, its second check is skipped
(R100; log 7). Every other command passes `reject`, for which this is R102 as written. -/
def checkParam (policy : ParamWidthPolicy) (p : Parameter) : Except CmdError Unit :=
  if ¬ validWidth p.byteLength then .error .invalidByteLength
  else if policy = .reject ∧ fits p.kind p.value p.byteLength.toNat = false then .error .parameterTooWide
  else .ok ()

/-- `for p in ps (in order): check_param(p)`: "the first failing p raises its error" (R104). -/
def checkParams (policy : ParamWidthPolicy) : List Parameter → Except CmdError Unit
  | [] => .ok ()
  | p :: ps =>
    match checkParam policy p with
    | .error e => .error e
    | .ok _ => checkParams policy ps

/-- The bytes of a Parameter: `LE_{byte_length}` of the 64-bit two's-complement form (R103). -/
def asBytes (p : Parameter) : List Byte := leBytes p.byteLength.toNat p.value

/-- The parameter block: "concatenation of each parameter's `as_bytes()`, in order" (R104). -/
def fromSlice (ps : List Parameter) : List Byte := ps.flatMap asBytes

/-- `ctx_of(ctx_code)` (R141): the instruction code, or `UnknownInstruction(ctx_code)` (R107). -/
def ctxOf (ctxCode : Byte) : Except CmdError InstructionCode :=
  match codeOf ctxCode with
  | some c => .ok c
  | none => .error (.unknownInstruction ctxCode)

/-- A Read context's requested length is 1..4 (R6, D17). -/
abbrev readLengthOk (reqLen : Byte) : Prop := 1 ≤ reqLen.toNat ∧ reqLen.toNat ≤ 4

/-- `REPLY_LEN_OTHER(code)` (R145). Ping and Read have lengths of their own and are not looked up. -/
def replyLenOther (t : ReplyLenTable) : InstructionCode → Option Nat
  | .ping => none
  | .read => none
  | .write => t.write
  | .regWrite => t.regWrite
  | .action => t.action
  | .reset => t.reset
  | .reboot => t.reboot
  | .syncWrite => t.syncWrite
  | .bulkRead => t.bulkRead

/-- EXPECTED_REPLY_LENGTH of a decoded context (R145): 6 for Ping, `6 + req_len` for Read, the OPEN parameter for every
other code. -/
def replyLengthOf (t : ReplyLenTable) (code : InstructionCode) (reqLen : Byte) : Except CmdError (Option Nat) :=
  match code with
  | .ping => .ok (some 6)
  | .read => if ¬ readLengthOk reqLen then .error .unsupportedReadLength else .ok (some (6 + reqLen.toNat))
  | .write | .regWrite | .action | .reset | .reboot | .syncWrite | .bulkRead => .ok (replyLenOther t code)

/-- EXPECTED_REPLY_LENGTH (R145). -/
def expectedReplyLength (t : ReplyLenTable) (ctxCode reqLen : Byte) : Except CmdError (Option Nat) :=
  match ctxOf ctxCode with
  | .error e => .error e
  | .ok code => replyLengthOf t code reqLen

end Sys2Proof.Machine
end

