-- ==== Sys2Proof/Machine/Builders.lean ====
section
/-! DEFINITION. The single-device instruction builders (41_packet_codec.md R122 to R129) and CHECKSUM (R121). -/

namespace Sys2Proof.Machine

/-- `mk_instruction(addr, code, ps)`, "the common builder procedure" (R122): 0xFF is no device address, each Parameter
is checked, the block has at most 253 bytes. -/
def mkInstruction (policy : ParamWidthPolicy) (addr : Byte) (code : InstructionCode) (ps : List Parameter) :
    Except CmdError Packet :=
  match addressOf addr with
  | none => .error (.invalidDeviceId addr)
  | some device =>
    match checkParams policy ps with
    | .error e => .error e
    | .ok _ =>
      if (fromSlice ps).length > maxParamBytes then .error .frameTooLong
      else .ok {
        deviceAddress := resolve device
        operation     := .instruction code
        parameters    := ps
        checksum      := checksum (resolve device) (wireLength (fromSlice ps)) (opcode code) (fromSlice ps) }

/-- A builder answers the packet (R82). -/
def packetResult (r : Except CmdError Packet) : Except CmdError Payload :=
  match r with
  | .error e => .error e
  | .ok p => .ok (.packet p)

/-- `mk_instruction(addr, Ping, [])` (R123). -/
def buildPing (c : Config) (addr : Byte) : Except CmdError Packet :=
  mkInstruction c.paramWidthPolicy addr .ping []

/-- `mk_instruction(addr, Read, [{Unsigned, reg, 1}, {Unsigned, length, 1}])` (R124). -/
def buildRead (c : Config) (addr reg length : Byte) : Except CmdError Packet :=
  mkInstruction c.paramWidthPolicy addr .read [byteParam reg, byteParam length]

/-- `mk_instruction(addr, Write, [{Unsigned, reg, 1}, data])` (R125). -/
def buildWrite (c : Config) (addr reg : Byte) (data : Parameter) : Except CmdError Packet :=
  mkInstruction c.paramWidthPolicy addr .write [byteParam reg, data]

/-- `mk_instruction(addr, RegWrite, [{Unsigned, reg, 1}, data])` (R126). -/
def buildRegWrite (c : Config) (addr reg : Byte) (data : Parameter) : Except CmdError Packet :=
  mkInstruction c.paramWidthPolicy addr .regWrite [byteParam reg, data]

/-- `mk_instruction(addr, Action, [])` (R127). -/
def buildAction (c : Config) (addr : Byte) : Except CmdError Packet :=
  mkInstruction c.paramWidthPolicy addr .action []

/-- `mk_instruction(addr, Reset, [])` (R128). -/
def buildReset (c : Config) (addr : Byte) : Except CmdError Packet :=
  mkInstruction c.paramWidthPolicy addr .reset []

/-- `mk_instruction(addr, Reboot, [])` (R129). -/
def buildReboot (c : Config) (addr : Byte) : Except CmdError Packet :=
  mkInstruction c.paramWidthPolicy addr .reboot []

/-- BUILD_PING (R123). -/
def execBuildPing (addr : Byte) (s : State) : Host.Outcome State Fault Refusal :=
  .next (s.finish (packetResult (buildPing s.config addr)))

/-- BUILD_READ (R124): every `length` is accepted (D34). -/
def execBuildRead (addr reg length : Byte) (s : State) : Host.Outcome State Fault Refusal :=
  .next (s.finish (packetResult (buildRead s.config addr reg length)))

/-- BUILD_WRITE (R125). -/
def execBuildWrite (addr reg : Byte) (data : Parameter) (s : State) : Host.Outcome State Fault Refusal :=
  .next (s.finish (packetResult (buildWrite s.config addr reg data)))

/-- BUILD_REGWRITE (R126). -/
def execBuildRegWrite (addr reg : Byte) (data : Parameter) (s : State) : Host.Outcome State Fault Refusal :=
  .next (s.finish (packetResult (buildRegWrite s.config addr reg data)))

/-- BUILD_ACTION (R127). -/
def execBuildAction (addr : Byte) (s : State) : Host.Outcome State Fault Refusal :=
  .next (s.finish (packetResult (buildAction s.config addr)))

/-- BUILD_RESET (R128): the packet asks a device to reset; this block is not reset (R260). -/
def execBuildReset (addr : Byte) (s : State) : Host.Outcome State Fault Refusal :=
  .next (s.finish (packetResult (buildReset s.config addr)))

/-- BUILD_REBOOT (R129): opcode 0x07 (I9). -/
def execBuildReboot (addr : Byte) (s : State) : Host.Outcome State Fault Refusal :=
  .next (s.finish (packetResult (buildReboot s.config addr)))

/-- CHECKSUM (R121): "it sums the operands it is given"; never raises. -/
def execChecksum (id len op : Byte) (bytes : List Byte) (s : State) : Host.Outcome State Fault Refusal :=
  .next (s.finish (.ok (.byte (checksum id len op bytes))))

end Sys2Proof.Machine
end

