-- ==== Sys2Proof/Machine/Codec.lean ====
section
/-! DEFINITION. The serializer GENERATE (41_packet_codec.md R130) with the encoder state machine (10_state.md R30), and
the parser PARSE (R140) with the decoder state machine (R31). -/

namespace Sys2Proof.Machine

/-- GENERATE (R130): the checks in the pseudocode's order, then the frame with a recomputed checksum (D23). It reads no
constant (R37). -/
def generate (packet : Packet) : Except CmdError (List Byte) :=
  match packet.operation with
  | .status _ => .error .notAnInstruction
  | .instruction code =>
    match addressOf packet.deviceAddress with
    | none => .error (.invalidDeviceId packet.deviceAddress)
    | some device =>
      match checkParams .reject packet.parameters with
      | .error e => .error e
      | .ok _ =>
        if (fromSlice packet.parameters).length > maxParamBytes then .error .frameTooLong
        else .ok (frameBytes (resolve device) (opcode code) (fromSlice packet.parameters))

/-- GENERATE and the wire instructions answer a Frame (R82). -/
def frameResult (r : Except CmdError (List Byte)) : Except CmdError Payload :=
  match r with
  | .error e => .error e
  | .ok f => .ok (.frame f)

/-- GENERATE (R130). -/
def execGenerate (packet : Packet) (s : State) : Host.Outcome State Fault Refusal :=
  .next (s.finish (frameResult (generate packet)))

/-- The encoder state machine of a packet: `Built -> Serialized` (R30). -/
inductive EncoderState where
  | built (packet : Packet)
  | serialized (frame : List Byte)
deriving DecidableEq, Repr

/-- The one transition of R30: `Serialized` holds once GENERATE has produced the frame. -/
def encoderStep : EncoderState → Except CmdError EncoderState
  | .built packet =>
    match generate packet with
    | .error e => .error e
    | .ok frame => .ok (.serialized frame)
  | .serialized frame => .ok (.serialized frame)

/-- The fields of a received frame (R71): the bytes at offsets 2, 3, 4, 5..n-2 and n-1. -/
structure StatusFields where
  id       : Byte
  len      : Byte
  err      : Byte
  pb       : List Byte
  checksum : Byte
deriving DecidableEq, Repr

/-- PARSE step 0: the context (R140, R141, D17). -/
def parseContext (ctxCode reqLen : Byte) : Except CmdError ReplyContext :=
  match ctxOf ctxCode with
  | .error e => .error e
  | .ok code =>
    if code = .read ∧ ¬ readLengthOk reqLen then .error .unsupportedReadLength
    else .ok ⟨code, reqLen⟩

/-- PARSE step 1: the buffer starts `0xFF 0xFF` (R140). -/
def hasHeader : List Byte → Bool
  | h0 :: h1 :: _ => h0 == headerByte && h1 == headerByte
  | _ => false

/-- PARSE steps 3 and 4: Ping replies have 6 bytes and Read replies `6 + req_len`; the others are not checked here. -/
def contextLengthOk (ctx : ReplyContext) (n : Nat) : Bool :=
  match ctx.code with
  | .ping => n == 6
  | .read => n == 6 + ctx.requestedLength.toNat
  | .write | .regWrite | .action | .reset | .reboot | .syncWrite | .bulkRead => true

/-- PARSE steps 2 to 6: the minimum frame, the context's exact length, the fixed fields, the length byte (R140, D15,
D16). -/
def validateLength (ctx : ReplyContext) (buf : List Byte) : Except CmdError StatusFields :=
  match buf with
  | _ :: _ :: id :: len :: err :: p0 :: rest =>
    if contextLengthOk ctx buf.length = false then .error .invalidLength
    else if len.toNat + 4 ≠ buf.length then .error .invalidLength
    else .ok ⟨id, len, err, (p0 :: rest).dropLast, (p0 :: rest).getLast (by simp)⟩
  | _ => .error .invalidLength

/-- PARSE step 8: the checksum over the received error byte (R140, R120). -/
def checksumMatches (f : StatusFields) : Bool := checksum f.id f.len f.err f.pb == f.checksum

/-- PARSE step 7: one little-endian unsigned value in a Read context, else one 1-byte Parameter for each byte (R140,
R80). -/
def replyParams (ctx : ReplyContext) (pb : List Byte) : List Parameter :=
  match ctx.code with
  | .read => [unsignedParam (unLE pb) ctx.requestedLength.toNat]
  | .ping | .write | .regWrite | .action | .reset | .reboot | .syncWrite | .bulkRead => pb.map byteParam

/-- PARSE step 9: the Status packet, with the received id and checksum bytes (R140, R25). -/
def statusPacket (ctx : ReplyContext) (f : StatusFields) : Packet :=
  ⟨f.id, .status (statusDecode f.err), replyParams ctx f.pb, f.checksum⟩

/-- PARSE of a buffer in a decoded context: steps 1 to 9 of R140. -/
def parseIn (ctx : ReplyContext) (buf : List Byte) : Except CmdError Packet :=
  if hasHeader buf = false then .error .invalidHeader
  else
    match validateLength ctx buf with
    | .error e => .error e
    | .ok f => if checksumMatches f = false then .error .invalidChecksum else .ok (statusPacket ctx f)

/-- PARSE (R140). -/
def parse (buf : List Byte) (ctxCode reqLen : Byte) : Except CmdError Packet :=
  match parseContext ctxCode reqLen with
  | .error e => .error e
  | .ok ctx => parseIn ctx buf

/-- PARSE (R140): a result with error flags is an OK response (R172). -/
def execParse (buf : List Byte) (ctxCode reqLen : Byte) (s : State) : Host.Outcome State Fault Refusal :=
  .next (s.finish (packetResult (parse buf ctxCode reqLen)))

/-- The decoder state machine of a received buffer (R31). -/
inductive DecoderState where
  | rawBytes (buf : List Byte)
  | headerValidated (buf : List Byte)
  | lengthValidated (fields : StatusFields)
  | checksumValidated (fields : StatusFields)
  | parsed (packet : Packet)
  | rejected (reason : CmdError)
deriving DecidableEq, Repr

/-- The first state: the context checks "run before `RawBytes` is examined" (R31). -/
def decoderStart (buf : List Byte) (ctxCode reqLen : Byte) : DecoderState :=
  match parseContext ctxCode reqLen with
  | .error e => .rejected e
  | .ok _ => .rawBytes buf

/-- One transition of R31, with the guards of R140; `Parsed` and `Rejected` are terminal. -/
def decoderStep (ctx : ReplyContext) : DecoderState → DecoderState
  | .rawBytes buf => if hasHeader buf then .headerValidated buf else .rejected .invalidHeader
  | .headerValidated buf =>
    match validateLength ctx buf with
    | .error e => .rejected e
    | .ok f => .lengthValidated f
  | .lengthValidated f => if checksumMatches f then .checksumValidated f else .rejected .invalidChecksum
  | .checksumValidated f => .parsed (statusPacket ctx f)
  | .parsed p => .parsed p
  | .rejected e => .rejected e

/-- `k` transitions of the decoder. -/
def decoderRun (ctx : ReplyContext) : Nat → DecoderState → DecoderState
  | 0, d => d
  | k + 1, d => decoderRun ctx k (decoderStep ctx d)

end Sys2Proof.Machine
end

