-- ==== Sys2Proof/Machine/Exchange.lean ====
section
/-! DEFINITION. The transport boundary (41_packet_codec.md section 5): EXPECTED_REPLY_LENGTH (R145), SEND (R150) and
RECEIVE (R151), the only commands that call the transport or write `st.outstanding` (20_memory.md R57). -/

namespace Sys2Proof.Machine

/-- EXPECTED_REPLY_LENGTH (R145). -/
def execExpectedReplyLength (ctxCode reqLen : Byte) (s : State) : Host.Outcome State Fault Refusal :=
  .next (s.finish (match expectedReplyLength s.config.replyLenOther ctxCode reqLen with
    | .error e => .error e
    | .ok n => .ok (.replyLength n)))

/-- The exchange a fully written request opens: none when no reply is expected (R150, R273). -/
def openedExchange (ctxCode reqLen : Byte) (expect : Option Nat) : Option Exchange :=
  match ctxOf ctxCode, expect with
  | .ok code, some m => some ⟨⟨code, reqLen⟩, m⟩
  | _, _ => none

/-- SEND after the transport's answer to the write (R150): an IoError or a count other than the frame's length is a
TransportError and opens no exchange (log 20). -/
def sendAnswered (frame : List Byte) (opened : Option Exchange) (answer : TxResult) (s : State) : State :=
  match answer with
  | .err e => s.raise (.transportError (.io e))
  | .ok k =>
    if k ≠ frame.length then s.raise (.transportError (.shortWrite k))
    else (match opened with
      | none => s
      | some x => s.setOutstanding (some x)).answer (.ok (.written frame.length))

/-- SEND's step (R150): ExchangeInFlight, the context errors, GENERATE's errors, then the one `TxWrite`. -/
def sendState (packet : Packet) (ctxCode reqLen : Byte) (s : State) : State :=
  match s.outstanding with
  | some _ => s.raise .exchangeInFlight
  | none =>
    match expectedReplyLength s.config.replyLenOther ctxCode reqLen with
    | .error e => s.raise e
    | .ok expect =>
      match generate packet with
      | .error e => s.raise e
      | .ok frame => sendAnswered frame (openedExchange ctxCode reqLen expect) s.txAnswer (s.txWrite frame)

/-- SEND (R150). -/
def execSend (packet : Packet) (ctxCode reqLen : Byte) (s : State) : Host.Outcome State Fault Refusal :=
  .next (sendState packet ctxCode reqLen s)

/-- PARSE of a reply in the exchange's context (R151; log 18). "The transport's contract is to return exactly m bytes. If
it returns another number, PARSE sees it and the length checks reject it": after PARSE's context and header checks, in
R140's order (log 16). -/
def parseReply (x : Exchange) (bytes : List Byte) : Except CmdError Packet :=
  if bytes.length = x.expect then parse bytes (opcode x.ctx.code) x.ctx.requestedLength
  else
    match parseContext (opcode x.ctx.code) x.ctx.requestedLength with
    | .error e => .error e
    | .ok _ => if hasHeader bytes = false then .error .invalidHeader else .error .invalidLength

/-- RECEIVE after the transport's answer to the read (R151). -/
def receiveAnswered (x : Exchange) (answer : RxResult) (s : State) : State :=
  match answer with
  | .err e => s.raise (.transportError (.io e))
  | .ok bytes => s.finish (packetResult (parseReply x bytes))

/-- RECEIVE's step (R151): "the exchange ends whatever follows", then the one `RxReadExact`. -/
def receiveState (s : State) : State :=
  match s.outstanding with
  | none => s.raise .noExchange
  | some x => receiveAnswered x (s.rxAnswer x.expect) ((s.setOutstanding none).rxReadExact x.expect)

/-- RECEIVE (R151). -/
def execReceive (s : State) : Host.Outcome State Fault Refusal := .next (receiveState s)

end Sys2Proof.Machine
end

