-- ==== Sys2Proof/Machine/MultiDevice.lean ====
section
/-! DEFINITION. The multi-device frame aggregator: BUILD_SYNCWRITE (43_multi_device.md R180 to R185) and BUILD_BULKREAD
(R190 to R193). -/

namespace Sys2Proof.Machine

/-- The sort key `(device_id, register_address)` is at most the other's (R184). -/
def keyLe (a b : SyncWriteEntry) : Bool :=
  a.deviceId.toNat < b.deviceId.toNat
    || (a.deviceId == b.deviceId && a.registerAddress.toNat ≤ b.registerAddress.toNat)

/-- Put an entry before the first one whose key is not lower than its own. -/
def insertEntry (e : SyncWriteEntry) : List SyncWriteEntry → List SyncWriteEntry
  | [] => [e]
  | x :: xs => if keyLe e x then e :: x :: xs else x :: insertEntry e xs

/-- The stable ascending sort by `(device_id, register_address)`: equal entries keep their input order (R184, D21). -/
def sortEntries : List SyncWriteEntry → List SyncWriteEntry
  | [] => []
  | e :: es => insertEntry e (sortEntries es)

/-- The first id of 0xFE or 0xFF, in input order (R180 check 2, R190 check 3). -/
def firstNonConcrete : List Byte → Option Byte
  | [] => none
  | d :: rest => if d.toNat ≥ 254 then some d else firstNonConcrete rest

/-- Drop a byte equal to the one after it. -/
def mergeAdjacent : List Byte → List Byte
  | a :: b :: rest => if a = b then mergeAdjacent (b :: rest) else a :: mergeAdjacent (b :: rest)
  | l => l

/-- `devs`: "the distinct device ids of entries, ascending" (R180). -/
def devicesOf (entries : List SyncWriteEntry) : List Byte :=
  mergeAdjacent ((sortEntries entries).map SyncWriteEntry.deviceId)

/-- The entries of one device, in the list's order. -/
def entriesFor (d : Byte) (entries : List SyncWriteEntry) : List SyncWriteEntry :=
  entries.filter fun e => e.deviceId == d

/-- `[a0, a0 + bl, ..., a0 + (c-1)*bl]` over unbounded naturals (R182). -/
def addressRun (a0 bl c : Nat) : List Nat := (List.range c).map fun k => a0 + k * bl

/-- `A(d)`: the register addresses of one device's sorted entries (R180 check 7). -/
def addressesFor (d : Byte) (sorted : List SyncWriteEntry) : List Nat :=
  (entriesFor d sorted).map fun e => e.registerAddress.toNat

/-- The parameters of the SyncWrite packet (R180 step 9): `[a0, c*bl]`, then for each device its id and its data. -/
def syncParams (a0 : Byte) (size : Nat) (devs : List Byte) (sorted : List SyncWriteEntry) : List Parameter :=
  byteParam a0 :: unsignedParam size 1
    :: devs.flatMap fun d => byteParam d :: (entriesFor d sorted).map SyncWriteEntry.data

/-- BUILD_SYNCWRITE (R180): checks 1 to 8 in order, then step 9. Under `CountOnly`, which is not this hardware, check 7
is skipped (R182). -/
def buildSyncWrite (c : Config) (entries : List SyncWriteEntry) : Except CmdError Packet :=
  match entries with
  | [] => .error .noDynamixels
  | e0 :: _ =>
    match firstNonConcrete (entries.map SyncWriteEntry.deviceId) with
    | some d => .error (.invalidDeviceId d)
    | none =>
      match checkParams c.paramWidthPolicy (entries.map SyncWriteEntry.data) with
      | .error e => .error e
      | .ok _ =>
        let bl := e0.data.byteLength
        let sorted := sortEntries entries
        let devs := devicesOf entries
        let count := (entriesFor (devs.headD 0x00#8) entries).length
        let a0 := (sorted.headD e0).registerAddress
        if entries.any (fun e => e.data.byteLength != bl) then .error .inconsistentSize
        else if devs.any (fun d => (entriesFor d entries).length != count) then .error .inconsistentLength
        else if c.swAddrCheck = .strict
            ∧ devs.any (fun d => addressesFor d sorted != addressRun a0.toNat bl.toNat count) then
          .error .inconsistentAddresses
        else if 2 + devs.length * (1 + count * bl.toNat) > maxParamBytes then .error .frameTooLong
        else mkInstruction c.paramWidthPolicy broadcastId .syncWrite
          (syncParams a0 (count * bl.toNat) devs sorted)

/-- The id whose second occurrence comes first in input order (R190 check 2); `seen` are the ids before. -/
def firstRepeat (seen : List Byte) : List Byte → Option Byte
  | [] => none
  | d :: rest => if seen.contains d then some d else firstRepeat (d :: seen) rest

/-- The three bytes of a BulkRead entry: `[read_length, device_id, register_address]` (R78, R190 step 5). -/
def bulkParams (e : BulkReadEntry) : List Parameter :=
  [byteParam e.readLength, byteParam e.deviceId, byteParam e.registerAddress]

/-- BUILD_BULKREAD (R190): checks 1 to 4 in order, then step 5; the entry order is kept (R191). -/
def buildBulkRead (c : Config) (entries : List BulkReadEntry) : Except CmdError Packet :=
  match entries with
  | [] => .error .noDynamixels
  | _ :: _ =>
    match firstRepeat [] (entries.map BulkReadEntry.deviceId) with
    | some d => .error (.duplicateDeviceId d)
    | none =>
      match firstNonConcrete (entries.map BulkReadEntry.deviceId) with
      | some d => .error (.invalidDeviceId d)
      | none =>
        if 1 + 3 * entries.length > maxParamBytes then .error .frameTooLong
        else mkInstruction c.paramWidthPolicy broadcastId .bulkRead
          (unsignedParam 0 1 :: entries.flatMap bulkParams)

/-- BUILD_SYNCWRITE (R180). -/
def execBuildSyncWrite (entries : List SyncWriteEntry) (s : State) : Host.Outcome State Fault Refusal :=
  .next (s.finish (packetResult (buildSyncWrite s.config entries)))

/-- BUILD_BULKREAD (R190). -/
def execBuildBulkRead (entries : List BulkReadEntry) (s : State) : Host.Outcome State Fault Refusal :=
  .next (s.finish (packetResult (buildBulkRead s.config entries)))

end Sys2Proof.Machine
end

