-- ==== Sys2Proof/Machine/Parameter.lean ====
section
/-! DEFINITION. The Parameter commands (40_parameter.md R100 to R104). -/

namespace Sys2Proof.Machine

/-- A constructed Parameter that passes the checks (R100, R101). -/
def constructParam (policy : ParamWidthPolicy) (p : Parameter) : Except CmdError Payload :=
  match checkParam policy p with
  | .error e => .error e
  | .ok _ => .ok (.parameter p)

/-- PARAM_UNSIGNED (R100). -/
def execParamUnsigned (value : Word64) (byteLength : Byte) (s : State) : Host.Outcome State Fault Refusal :=
  .next (s.finish (constructParam s.config.paramWidthPolicy ⟨.unsigned, value, byteLength⟩))

/-- PARAM_SIGNED (R101). -/
def execParamSigned (value : Word64) (byteLength : Byte) (s : State) : Host.Outcome State Fault Refusal :=
  .next (s.finish (constructParam s.config.paramWidthPolicy ⟨.signed, value, byteLength⟩))

/-- The checked parameter block of a list (R102, R104). -/
def checkedSlice (ps : List Parameter) : Except CmdError Payload :=
  match checkParams .reject ps with
  | .error e => .error e
  | .ok _ => .ok (.bytes (fromSlice ps))

/-- PARAM_AS_BYTES (R103): it reads no constant (R37). -/
def execParamAsBytes (p : Parameter) (s : State) : Host.Outcome State Fault Refusal :=
  .next (s.finish (match checkParam .reject p with
    | .error e => .error e
    | .ok _ => .ok (.bytes (asBytes p))))

/-- PARAM_FROM_SLICE (R104): no upper limit on length, and it reads no constant (R37). -/
def execParamFromSlice (ps : List Parameter) (s : State) : Host.Outcome State Fault Refusal :=
  .next (s.finish (checkedSlice ps))

end Sys2Proof.Machine
end

