-- ==== Sys2Proof/Machine/Vocabulary.lean ====
section
/-! DEFINITION. The vocabulary commands: opcodes (40_parameter.md R106, R107) and status flags (42_status_flags.md R170,
R171). -/

namespace Sys2Proof.Machine

/-- OPCODE_ENCODE (R106): never raises. -/
def execOpcodeEncode (code : InstructionCode) (s : State) : Host.Outcome State Fault Refusal :=
  .next (s.finish (.ok (.byte (opcode code))))

/-- OPCODE_DECODE (R107). -/
def execOpcodeDecode (byte : Byte) (s : State) : Host.Outcome State Fault Refusal :=
  .next (s.finish (match codeOf byte with
    | some c => .ok (.code c)
    | none => .error (.unknownInstruction byte)))

/-- STATUS_DECODE (R170): never raises. -/
def execStatusDecode (byte : Byte) (s : State) : Host.Outcome State Fault Refusal :=
  .next (s.finish (.ok (.flags (statusDecode byte))))

/-- STATUS_ENCODE (R171): never raises. -/
def execStatusEncode (flags : List StatusFlag) (s : State) : Host.Outcome State Fault Refusal :=
  .next (s.finish (.ok (.byte (statusEncode s.config.statusEncodeSuccess flags))))

end Sys2Proof.Machine
end

