-- ==== Sys2Proof/Machine/Wire.lean ====
section
/-! DEFINITION. The nine wire instructions (30_encoding.md R74). "The block never executes Action, Reset or Reboot; it
only encodes them" (00_scope.md R5): the meaning of a wire instruction is its passage `Built -> Serialized` (10_state.md
R30), which is its builder's rule and then GENERATE, in one step (log 3). -/

namespace Sys2Proof.Machine

/-- Serialize what a builder returns (R30, R130). -/
def emitFrame (built : Except CmdError Packet) : Except CmdError Payload :=
  match built with
  | .error e => .error e
  | .ok p => frameResult (generate p)

/-- The data bytes of a Write or RegWrite as one Parameter of their number (R76). -/
def dataParam (data : List Byte) : Parameter := unsignedParam (unLE data) data.length

/-- The widest value width 1..4 that divides a number of data bytes (log 21). -/
def widestWidth (n : Nat) : Nat :=
  if n % 4 = 0 then 4 else if n % 3 = 0 then 3 else if n % 2 = 0 then 2 else 1

/-- One device's data bytes as entries of `bl` bytes at `addr`, `addr + bl`, ... (R182); `fuel` bounds their number. -/
def splitEntries (id : Byte) (bl : Nat) : Nat → Nat → List Byte → List SyncWriteEntry
  | 0, _, _ => []
  | _ + 1, _, [] => []
  | fuel + 1, addr, b :: rest =>
    ⟨id, BitVec.ofNat 8 addr, unsignedParam (unLE ((b :: rest).take bl)) bl⟩
      :: splitEntries id bl fuel (addr + bl) ((b :: rest).drop bl)

/-- The entries of a SyncWrite frame: the devices' bytes in values of the widest width (log 21). -/
def groupEntries (first : Byte) (groups : List SyncGroup) : List SyncWriteEntry :=
  groups.flatMap fun g =>
    splitEntries g.deviceId (widestWidth (groupSize groups)) g.data.length first.toNat g.data

/-- Ping (R74, R76, R123). -/
def execPing (id : Byte) (s : State) : Host.Outcome State Fault Refusal :=
  .next (s.finish (emitFrame (buildPing s.config id)))

/-- Read (R74, R76, R124). -/
def execRead (id reg length : Byte) (s : State) : Host.Outcome State Fault Refusal :=
  .next (s.finish (emitFrame (buildRead s.config id reg length)))

/-- Write (R74, R76, R125). -/
def execWrite (id reg : Byte) (data : List Byte) (s : State) : Host.Outcome State Fault Refusal :=
  .next (s.finish (emitFrame (buildWrite s.config id reg (dataParam data))))

/-- RegWrite (R74, R76, R126). -/
def execRegWrite (id reg : Byte) (data : List Byte) (s : State) : Host.Outcome State Fault Refusal :=
  .next (s.finish (emitFrame (buildRegWrite s.config id reg (dataParam data))))

/-- Action (R74, R76, R127). -/
def execAction (id : Byte) (s : State) : Host.Outcome State Fault Refusal :=
  .next (s.finish (emitFrame (buildAction s.config id)))

/-- Reset (R74, R76, R128): "The wire Reset instruction is not this reset" (R260). -/
def execReset (id : Byte) (s : State) : Host.Outcome State Fault Refusal :=
  .next (s.finish (emitFrame (buildReset s.config id)))

/-- Reboot (R74, R76, R129). -/
def execReboot (id : Byte) (s : State) : Host.Outcome State Fault Refusal :=
  .next (s.finish (emitFrame (buildReboot s.config id)))

/-- SyncWrite (R74, R77, R180). -/
def execSyncWrite (first : Byte) (groups : List SyncGroup) (s : State) : Host.Outcome State Fault Refusal :=
  .next (s.finish (emitFrame (buildSyncWrite s.config (groupEntries first groups))))

/-- BulkRead (R74, R78, R190). -/
def execBulkRead (entries : List BulkReadEntry) (s : State) : Host.Outcome State Fault Refusal :=
  .next (s.finish (emitFrame (buildBulkRead s.config entries)))

end Sys2Proof.Machine
end

