-- ==== Sys2Proof/Machine/Dispatch.lean ====
section
/-! DEFINITION. The one dispatch: each instruction of spec/opcode_table.json to its meaning. -/

namespace Sys2Proof.Machine

def exec (i : Instr) (s : State) : Host.Outcome State Fault Refusal :=
  match i with
  -- the wire instructions (30_encoding.md R74)
  | .ping id => Sys2Proof.Machine.execPing id s
  | .read id reg length => Sys2Proof.Machine.execRead id reg length s
  | .write id reg data => Sys2Proof.Machine.execWrite id reg data s
  | .regWrite id reg data => Sys2Proof.Machine.execRegWrite id reg data s
  | .action id => Sys2Proof.Machine.execAction id s
  | .reset id => Sys2Proof.Machine.execReset id s
  | .reboot id => Sys2Proof.Machine.execReboot id s
  | .syncWrite first groups => Sys2Proof.Machine.execSyncWrite first groups s
  | .bulkRead entries => Sys2Proof.Machine.execBulkRead entries s
  -- the host commands (30_encoding.md R82)
  | .buildPing addr => Sys2Proof.Machine.execBuildPing addr s
  | .buildRead addr reg length => Sys2Proof.Machine.execBuildRead addr reg length s
  | .buildWrite addr reg data => Sys2Proof.Machine.execBuildWrite addr reg data s
  | .buildRegWrite addr reg data => Sys2Proof.Machine.execBuildRegWrite addr reg data s
  | .buildAction addr => Sys2Proof.Machine.execBuildAction addr s
  | .buildReset addr => Sys2Proof.Machine.execBuildReset addr s
  | .buildReboot addr => Sys2Proof.Machine.execBuildReboot addr s
  | .buildSyncWrite entries => Sys2Proof.Machine.execBuildSyncWrite entries s
  | .buildBulkRead entries => Sys2Proof.Machine.execBuildBulkRead entries s
  | .generate packet => Sys2Proof.Machine.execGenerate packet s
  | .parse buf ctxCode reqLen => Sys2Proof.Machine.execParse buf ctxCode reqLen s
  | .expectedReplyLength ctxCode reqLen => Sys2Proof.Machine.execExpectedReplyLength ctxCode reqLen s
  | .send packet ctxCode reqLen => Sys2Proof.Machine.execSend packet ctxCode reqLen s
  | .receive => Sys2Proof.Machine.execReceive s
  | .checksum id len op bytes => Sys2Proof.Machine.execChecksum id len op bytes s
  | .paramUnsigned value byteLength => Sys2Proof.Machine.execParamUnsigned value byteLength s
  | .paramSigned value byteLength => Sys2Proof.Machine.execParamSigned value byteLength s
  | .paramAsBytes p => Sys2Proof.Machine.execParamAsBytes p s
  | .paramFromSlice ps => Sys2Proof.Machine.execParamFromSlice ps s
  | .opcodeEncode code => Sys2Proof.Machine.execOpcodeEncode code s
  | .opcodeDecode byte => Sys2Proof.Machine.execOpcodeDecode byte s
  | .statusDecode byte => Sys2Proof.Machine.execStatusDecode byte s
  | .statusEncode flags => Sys2Proof.Machine.execStatusEncode flags s

end Sys2Proof.Machine
end

