-- ==== Sys2Proof/Machine/Fetch.lean ====
section
/-! DEFINITION. How a step takes the host's next event (00_scope.md R8, R9; 70_reset_and_hazards.md R260), over any
meaning `run` of instructions; Step.lean gives it `exec`. -/

namespace Sys2Proof.Machine

/-- Run the instruction that the host's bytes are. An unassigned command code answers IllegalCommand, with no state
change and no transport call (R84); a frame with an unknown opcode answers UnknownInstruction (R75, I14; log 14); other
bytes are no move of the host (R85). -/
def runEncoded (run : Instr → State → Host.Outcome State Fault Refusal) (e : Encoded) (s : State) :
    Host.Outcome State Fault Refusal :=
  match decode e with
  | .ok i => run i s
  | .error (.illegalCommand _) => .next (s.raise .illegalCommand)
  | .error (.unknownOpcode op) => .next (s.raise (.unknownInstruction op))
  | .error why => .refused (.undecodable why)

/-- A reset while a command is in progress (R260, I18). Before the commit point the command is abandoned "with no
response and no transport call"; after it the command completes its step, no response is returned, and the reset
follows (log 17). -/
def runAbandoned (run : Instr → State → Host.Outcome State Fault Refusal) (e : Encoded) (committed : Bool) (s : State) :
    Host.Outcome State Fault Refusal :=
  if committed then
    match runEncoded run e s with
    | .next t => .next (t.withoutResponse s).applyReset
    | .fault f => .fault f
    | .refused r => .refused r
  else .next s.applyReset

/-- Take the host's first event. With none pending the block "waits for the host's first command" (R261; log 2). -/
def takeEvent (run : Instr → State → Host.Outcome State Fault Refusal) (s : State) : Host.Outcome State Fault Refusal :=
  match s.host with
  | [] => .next s
  | .issue e :: rest => runEncoded run e (s.withHost rest)
  | .reset :: rest => .next (s.withHost rest).applyReset
  | .resetDuring e committed :: rest => runAbandoned run e committed (s.withHost rest)

/-- Put bytes before the host's events, as its next command. -/
def State.withCommand (s : State) (record : List Byte) : State :=
  s.withHost (.issue (hostCommand record) :: s.host)

end Sys2Proof.Machine
end

