-- ==== Sys2Proof/Machine/Step.lean ====
section
/-! DEFINITION. One step of the machine: the host's next event, taken with `exec` (Machine/Fetch.lean holds how). -/

namespace Sys2Proof.Machine

/-- THE STEP: "Each host command is one atomic step" (00_scope.md R8). -/
def step (s : State) : Host.Outcome State Fault Refusal := takeEvent exec s

/-- The state whose very next step runs the instruction of a table word: its record is the host's next command (the
model's place of fetching, log 13). -/
def State.withFetchWord (s : State) (nbits w : Nat) : State := s.withCommand (tableRecord nbits w)

end Sys2Proof.Machine
end

