-- ==== Sys2Proof/Safety.lean ====
section
/-! DEFINITION. The terms the claims use: when a Parameter, a packet and a frame are well formed (10_state.md R23, R25;
30_encoding.md R70; 41_packet_codec.md R120), what is a safe run of the bus (20_memory.md R63, R64, R68) and the
invariant of the machine, which commands raise which errors (60_exceptions.md R222), and the PARSE rule by frame offsets
(41_packet_codec.md R140). -/

namespace Sys2Proof.Machine

/-- A command completes: it answers one response and changes nothing else (20_memory.md R57). -/
abbrev Answers (i : Instr) (s : State) (r : Response) : Prop :=
  exec i s = .next { s with responses := r :: s.responses }

/-- Condition 2 of R23 on the number a Parameter holds. -/
def inRange (p : Parameter) : Bool :=
  match p.kind with
  | .unsigned => decide (paramValue p < 256 ^ p.byteLength.toNat)
  | .signed =>
    decide (-(2 ^ (8 * p.byteLength.toNat - 1)) ≤ paramValue p) && decide (paramValue p < 2 ^ (8 * p.byteLength.toNat - 1))

/-- What `check_param` reports of a Parameter (R102), from the two conditions of R23. -/
def paramError (policy : ParamWidthPolicy) (p : Parameter) : Option CmdError :=
  if p.byteLength.toNat = 0 ∨ 4 < p.byteLength.toNat then some .invalidByteLength
  else if policy = .reject ∧ inRange p = false then some .parameterTooWide
  else none

/-- What the checks of a list report: the error of the first ill-formed element (R104). -/
def firstParamError (policy : ParamWidthPolicy) (ps : List Parameter) : Option CmdError :=
  ps.findSome? (paramError policy)

/-- A well-formed Parameter (R23). -/
def wellFormedParam (p : Parameter) : Bool :=
  decide (1 ≤ p.byteLength.toNat ∧ p.byteLength.toNat ≤ 4) && inRange p

/-- A frame is checksum-valid (R120): at least 6 bytes, and the last is the checksum over offsets 2..n-2 (R73). -/
def checksumValid : List Byte → Bool
  | _ :: _ :: id :: len :: op :: p0 :: rest =>
    (p0 :: rest).getLast? == some (checksum id len op (p0 :: rest).dropLast)
  | _ => false

/-- An instruction frame the block may put on the bus (R70, R72, R74, R120). -/
def instructionFrame (frame : List Byte) : Bool :=
  minFrameBytes ≤ frame.length && frame.length ≤ maxFrameBytes
    && frame[0]? == some 0xFF#8 && frame[1]? == some 0xFF#8
    && frame[2]? != some 0xFF#8
    && frame[3]? == some (BitVec.ofNat 8 (frame.length - 4))
    && (frame[4]?.bind codeOf).isSome
    && checksumValid frame

/-- A well-formed Instruction packet (R25). A Status packet keeps its received checksum, and no clause asks that it can
be recomputed. -/
def wellFormedPacket (p : Packet) : Bool :=
  p.parameters.all wellFormedParam
    && (fromSlice p.parameters).length ≤ maxParamBytes
    && p.deviceAddress != 0xFF#8
    && match p.operation with
      | .instruction code =>
        p.checksum == checksum p.deviceAddress (wireLength (fromSlice p.parameters)) (opcode code) (fromSlice p.parameters)
      | .status _ => true

/-- An answer within the transport's contract: `read_exact(n)` "returns exactly n bytes or an error" (R9). -/
def keepsContract (n : Nat) : RxResult → Bool
  | .ok bytes => bytes.length == n
  | .err _ => true

/-- The newest transport call is a request that "has been fully written" (R63). -/
def fullyWritten : List TransportCall → Bool
  | .write frame (.ok k) :: _ => k == frame.length
  | _ => false

/-- The order of the bus, newest call first: every frame written is an instruction frame (R56), and every read comes
right after a fully written request (R63, R64). -/
def busOrdered : List TransportCall → Bool
  | [] => true
  | .write frame _ :: older => instructionFrame frame && busOrdered older
  | .readExact _ _ :: older => fullyWritten older && busOrdered older

/-- An open exchange's request was the last transport call and fully written, and its length is the one EXPECTED_REPLY_
LENGTH gives its context (R33, R63, R68). -/
def exchangeOk (s : State) (x : Exchange) : Prop :=
  fullyWritten s.bus = true
    ∧ replyLengthOf s.config.replyLenOther x.ctx.code x.ctx.requestedLength = .ok (some x.expect)

/-- THE INVARIANT: this hardware's constants (R35), an ordered bus (R63, R64), and an open exchange that stands for a
fully written request (R33). -/
def State.Inv (s : State) : Prop :=
  s.config.isHardware ∧ busOrdered s.bus = true ∧ ∀ x, s.outstanding = some x → exchangeOk s x

/-- Only SEND and RECEIVE have side effects (R57). -/
def isExchange : Instr → Bool
  | .send _ _ _ => true
  | .receive => true
  | _ => false

/-- A builder command (R122). -/
def isBuilder : Instr → Bool
  | .buildPing _ | .buildRead _ _ _ | .buildWrite _ _ _ | .buildRegWrite _ _ _ | .buildAction _ | .buildReset _
  | .buildReboot _ | .buildSyncWrite _ | .buildBulkRead _ => true
  | _ => false

/-- A single-device builder (R123 to R129). -/
def isSingleBuilder : Instr → Bool
  | .buildPing _ | .buildRead _ _ _ | .buildWrite _ _ _ | .buildRegWrite _ _ _ | .buildAction _ | .buildReset _
  | .buildReboot _ => true
  | _ => false

/-- GENERATE and SEND serialize a packet (R130, R150). -/
def isSerializer : Instr → Bool
  | .generate _ | .send _ _ _ => true
  | _ => false

/-- R37's readers of the configuration constants: "PARAM_UNSIGNED, PARAM_SIGNED, every builder, STATUS_ENCODE", and the
wire instructions, which are run through their builders (log 3). -/
def readsConstants : Instr → Bool
  | .paramUnsigned _ _ | .paramSigned _ _ | .statusEncode _ => true
  | i => isBuilder i || i.isWire

/-- A host command with a Parameter operand or a list of them (R102), or a constructor of one (R100, R101). -/
def takesParameter : Instr → Bool
  | .paramUnsigned _ _ | .paramSigned _ _ | .paramAsBytes _ | .paramFromSlice _ | .buildWrite _ _ _
  | .buildRegWrite _ _ _ | .buildSyncWrite _ | .generate _ | .send _ _ _ => true
  | _ => false

/-- The byte a command takes as an instruction code (R107, R141). -/
def codeOperand : Instr → Option Byte
  | .opcodeDecode b => some b
  | .parse _ c _ => some c
  | .expectedReplyLength c _ => some c
  | .send _ c _ => some c
  | _ => none

/-- R222's table: which host commands raise which errors, and with what payload (R83). -/
def mayRaise (i : Instr) : CmdError → Bool
  | .noDynamixels => match i with | .buildSyncWrite _ | .buildBulkRead _ => true | _ => false
  | .inconsistentSize | .inconsistentLength | .inconsistentAddresses => match i with | .buildSyncWrite _ => true | _ => false
  | .duplicateDeviceId d => match i with | .buildBulkRead es => (es.map BulkReadEntry.deviceId).contains d | _ => false
  | .invalidDeviceId d =>
    match i with
    | .buildSyncWrite _ | .buildBulkRead _ => d == 0xFE#8 || d == 0xFF#8
    | _ => (isSingleBuilder i || isSerializer i) && d == 0xFF#8
  | .parameterTooWide | .invalidByteLength => takesParameter i
  | .frameTooLong => match i with | .buildSyncWrite _ | .buildBulkRead _ => true | _ => isSerializer i
  | .notAnInstruction => isSerializer i
  | .invalidHeader | .invalidLength | .invalidChecksum => match i with | .parse _ _ _ | .receive => true | _ => false
  | .unknownInstruction b => codeOperand i == some b
  | .unsupportedReadLength => match i with | .parse _ _ _ | .expectedReplyLength _ _ | .send _ _ _ => true | _ => false
  | .transportError _ => isExchange i
  | .exchangeInFlight => match i with | .send _ _ _ => true | _ => false
  | .noExchange => match i with | .receive => true | _ => false
  | .illegalCommand => false

/-- PARSE as R140 writes it, by offsets into the buffer: steps 0 to 9, the first failing one deciding. -/
def parseByOffsets (buf : List Byte) (ctxCode reqLen : Byte) : Response :=
  match codeOf ctxCode with
  | none => .error (.unknownInstruction ctxCode)
  | some code =>
    let n := buf.length
    let at_ (k : Nat) : Byte := buf.getD k 0#8
    let pb := (buf.drop 5).take (n - 6)
    if code = .read ∧ (reqLen.toNat < 1 ∨ 4 < reqLen.toNat) then .error .unsupportedReadLength
    else if n < 2 ∨ at_ 0 ≠ 0xFF#8 ∨ at_ 1 ≠ 0xFF#8 then .error .invalidHeader
    else if n < 6 then .error .invalidLength
    else if code = .ping ∧ n ≠ 6 then .error .invalidLength
    else if code = .read ∧ n ≠ 6 + reqLen.toNat then .error .invalidLength
    else if (at_ 3).toNat ≠ n - 4 then .error .invalidLength
    else if checksum (at_ 2) (at_ 3) (at_ 4) pb ≠ at_ (n - 1) then .error .invalidChecksum
    else .ok (.packet {
      deviceAddress := at_ 2
      operation     := .status (statusDecode (at_ 4))
      parameters    := if code = .read then [unsignedParam (unLE pb) reqLen.toNat] else pb.map byteParam
      checksum      := at_ (n - 1) })

end Sys2Proof.Machine
end

