-- ==== Sys2Proof/Certificates/Slice0/Obligations.lean ====
section
/-! DEFINITION. The statements for the provers. Each docstring names the rule of spec/ it formalises. "Answers i s r" is
`exec i s = .next { s with responses := r :: s.responses }`: the command completes, and nothing but the response changes. -/

open Sys2Proof Sys2Proof.Machine

/-! ### Reset, the step, and the encodings -/

/-- The state after reset satisfies the invariant, with no exchange open and no response pending (R40, R261).
The bus trace and the response list are the model's (log 10). -/
def Obligations.ResetSatisfiesInvariant : Prop :=
  State.reset.Inv ∧ State.reset.outstanding = none ∧ State.reset.responses = []

/-- R260. Reset clears the tracker and nothing else; a command it arrives in is abandoned before its transport call, or
completes its step after it; either way no response is returned. A wire Reset is not this reset.
The host's queue and the mark of the commit point are the model's (logs 2, 12). -/
def Obligations.ResetClearsOnlyTheExchange : Prop :=
  ∀ (s : State) (rest : List HostEvent),
    (s.host = .reset :: rest → step s = .next { s with host := rest, outstanding := none })
    ∧ (∀ e, s.host = .resetDuring e false :: rest → step s = .next { s with host := rest, outstanding := none })
    ∧ (∀ packet ctxCode reqLen expect frame,
        s.host = .resetDuring (encode (.send packet ctxCode reqLen)) true :: rest → s.outstanding = none →
        expectedReplyLength s.config.replyLenOther ctxCode reqLen = .ok expect → generate packet = .ok frame →
        step s = .next { s with
          host := rest, outstanding := none, txAnswers := s.txAnswers.tail, bus := .write frame s.txAnswer :: s.bus })
    ∧ (∀ x, s.host = .resetDuring (encode .receive) true :: rest → s.outstanding = some x →
        step s = .next { s with
          host := rest, outstanding := none, rxAnswers := s.rxAnswers.tail
          bus := .readExact x.expect (s.rxAnswer x.expect) :: s.bus })
    ∧ (∀ id, (∃ r, Answers (.reset id) s r) ∧ ∃ r, Answers (.buildReset id) s r)

/-- When the host's next bytes decode to an instruction, the step is exec of that instruction with the event taken off
the queue and nothing else around it; with no event the block waits (R8, R261; the queue is the model's, log 2). -/
def Obligations.StepRunsTheDecodedInstruction : Prop :=
  ∀ (s : State),
    (∀ e i rest, s.host = .issue e :: rest → decode e = .ok i → step s = exec i { s with host := rest })
    ∧ (s.host = [] → step s = .next s)

/-- R84. Every command code outside R82's table answers IllegalCommand, whatever bytes follow: no state change, no
transport call.
The byte form of a record and the host's queue are the model's (logs 1, 2). -/
def Obligations.UnassignedCodesAnswerIllegalCommand : Prop :=
  ∀ (s : State) (cmd : Byte) (operands : List Byte) (rest : List HostEvent),
    cmd ∉ [0x01#8, 0x02#8, 0x03#8, 0x04#8, 0x05#8, 0x06#8, 0x07#8, 0x83#8, 0x92#8, 0x10#8, 0x11#8, 0x12#8, 0x13#8,
      0x14#8, 0x15#8, 0x20#8, 0x21#8, 0x22#8, 0x23#8, 0x30#8, 0x31#8, 0x40#8, 0x41#8] →
    s.host = .issue ⟨.hostCommand, cmd :: operands⟩ :: rest →
    step s = .next { s with host := rest, responses := .error .illegalCommand :: s.responses }

/-- Decoding the encoding of any well-formed instruction gives it back, every operand at every value.
The byte form of a command record is the model's (log 1). -/
def Obligations.DecodeOfEncodeIsTheInstruction : Prop :=
  ∀ i : Instr, i.wellFormed = true → decode (encode i) = .ok i

/-- The other direction: bytes that decode are the encoding of what they decode to, so each instruction has one encoding
and no bit of it is ignored.
The byte form of a command record is the model's (log 1). -/
def Obligations.DecodedBytesAreTheEncoding : Prop :=
  ∀ (e : Encoded) (i : Instr), decode e = .ok i → i.wellFormed = true ∧ encode i = e

/-- Words of the spec's own vectors (95_test_vectors.md V-S1, V-S2, V-S4, V-S5, V-S6; rule R82's codes).
The byte form of a command record is the model's (log 1). -/
def Obligations.SpecVectorWordsDecode : Prop :=
  decode ⟨.wireFrame, [0xFF#8, 0xFF#8, 0x01#8, 0x02#8, 0x01#8, 0xFB#8]⟩ = .ok (.ping 0x01#8)
  ∧ decode ⟨.wireFrame, [0xFF#8, 0xFF#8, 0x01#8, 0x04#8, 0x02#8, 0x2B#8, 0x01#8, 0xCC#8]⟩
      = .ok (.read 0x01#8 0x2B#8 0x01#8)
  ∧ decode ⟨.wireFrame, [0xFF#8, 0xFF#8, 0x01#8, 0x05#8, 0x04#8, 0x1E#8, 0xF4#8, 0x01#8, 0xE2#8]⟩
      = .ok (.regWrite 0x01#8 0x1E#8 [0xF4#8, 0x01#8])
  ∧ decode ⟨.wireFrame, [0xFF#8, 0xFF#8, 0xFE#8, 0x0E#8, 0x83#8, 0x1E#8, 0x04#8, 0x00#8, 0x10#8, 0x00#8, 0x50#8, 0x01#8,
        0x01#8, 0x20#8, 0x02#8, 0x60#8, 0x03#8, 0x67#8]⟩
      = .ok (.syncWrite 0x1E#8 [⟨0x00#8, [0x10#8, 0x00#8, 0x50#8, 0x01#8]⟩, ⟨0x01#8, [0x20#8, 0x02#8, 0x60#8, 0x03#8]⟩])
  ∧ decode ⟨.wireFrame, [0xFF#8, 0xFF#8, 0xFE#8, 0x09#8, 0x92#8, 0x00#8, 0x02#8, 0x01#8, 0x1E#8, 0x02#8, 0x02#8, 0x24#8,
        0x1D#8]⟩
      = .ok (.bulkRead [⟨0x01#8, 0x02#8, 0x1E#8⟩, ⟨0x02#8, 0x02#8, 0x24#8⟩])
  ∧ decode ⟨.hostCommand, [0x14#8]⟩ = .ok .receive
  ∧ decode ⟨.hostCommand, [0x12#8, 0x02#8, 0x04#8]⟩ = .ok (.expectedReplyLength 0x02#8 0x04#8)

/-! ### Parameters and vocabulary -/

/-- R100. PARAM_UNSIGNED: InvalidByteLength first, then ParameterTooWide (skipped under Truncate), else the Parameter. -/
def Obligations.ParamUnsignedChecksThenConstructs : Prop :=
  ∀ (s : State) (v : Word64) (n : Byte),
    Answers (.paramUnsigned v n) s
      (if n.toNat < 1 ∨ 4 < n.toNat then .error .invalidByteLength
       else if s.config.paramWidthPolicy = .reject ∧ 256 ^ n.toNat ≤ v.toNat then .error .parameterTooWide
       else .ok (.parameter ⟨.unsigned, v, n⟩))
    ∧ (encode (.paramUnsigned v n)).bytes.head? = some 0x20#8

/-- R101. PARAM_SIGNED: the same order, with the two's-complement range. That Truncate, which is not this hardware, skips
the range check here too is the model's reading (log 7). -/
def Obligations.ParamSignedChecksThenConstructs : Prop :=
  ∀ (s : State) (v : Word64) (n : Byte),
    Answers (.paramSigned v n) s
      (if n.toNat < 1 ∨ 4 < n.toNat then .error .invalidByteLength
       else if s.config.paramWidthPolicy = .reject
          ∧ (v.toInt < -(2 ^ (8 * n.toNat - 1)) ∨ 2 ^ (8 * n.toNat - 1) ≤ v.toInt) then .error .parameterTooWide
       else .ok (.parameter ⟨.signed, v, n⟩))
    ∧ (encode (.paramSigned v n)).bytes.head? = some 0x21#8

/-- R103. PARAM_AS_BYTES: the check's error, else exactly byte_length bytes, the little-endian bytes of the value's
two's-complement form; for a well-formed Parameter no information is lost: the bytes, read as an unsigned or as a
two's-complement number, are the value. -/
def Obligations.ParamAsBytesIsLittleEndian : Prop :=
  ∀ (s : State) (p : Parameter),
    (∀ e, paramError .reject p = some e → Answers (.paramAsBytes p) s (.error e))
    ∧ (paramError .reject p = none →
        ∃ bs, Answers (.paramAsBytes p) s (.ok (.bytes bs)) ∧ bs.length = p.byteLength.toNat
          ∧ (unLE bs : Int) = paramValue p % 256 ^ p.byteLength.toNat
          ∧ (wellFormedParam p = true → paramValue p =
              match p.kind with
              | .unsigned => (unLE bs : Int)
              | .signed => if 2 * unLE bs < 256 ^ bs.length then (unLE bs : Int) else unLE bs - 256 ^ bs.length))
    ∧ (encode (.paramAsBytes p)).bytes.head? = some 0x22#8

/-- R104. PARAM_FROM_SLICE: the first ill-formed element's error, else the concatenation in order, whose length is the
sum of the widths; no upper limit. -/
def Obligations.ParamFromSliceConcatenates : Prop :=
  ∀ (s : State) (ps : List Parameter),
    (∀ before p after e, ps = before ++ p :: after → (∀ q ∈ before, paramError .reject q = none) →
        paramError .reject p = some e → Answers (.paramFromSlice ps) s (.error e))
    ∧ ((∀ p ∈ ps, paramError .reject p = none) →
        Answers (.paramFromSlice ps) s (.ok (.bytes (ps.map asBytes).flatten))
        ∧ (ps.map asBytes).flatten.length = (ps.map fun p => p.byteLength.toNat).sum)
    ∧ (encode (.paramFromSlice ps)).bytes.head? = some 0x23#8

/-- R106, R107 and R108 with the nine codes of R74: encode and decode are inverse on the nine pairs, and each of the
other bytes answers UnknownInstruction with the byte. -/
def Obligations.OpcodeVocabularyIsBidirectional : Prop :=
  ∀ (s : State),
    (∀ c b, (c, b) ∈ [(InstructionCode.ping, 0x01#8), (.read, 0x02#8), (.write, 0x03#8), (.regWrite, 0x04#8),
        (.action, 0x05#8), (.reset, 0x06#8), (.reboot, 0x07#8), (.syncWrite, 0x83#8), (.bulkRead, 0x92#8)] →
      Answers (.opcodeEncode c) s (.ok (.byte b)) ∧ Answers (.opcodeDecode b) s (.ok (.code c)))
    ∧ (∀ b : Byte, b ∉ [0x01#8, 0x02#8, 0x03#8, 0x04#8, 0x05#8, 0x06#8, 0x07#8, 0x83#8, 0x92#8] →
      Answers (.opcodeDecode b) s (.error (.unknownInstruction b)))
    ∧ (∀ c, (encode (.opcodeEncode c)).bytes.head? = some 0x30#8)
    ∧ (∀ b, (encode (.opcodeDecode b)).bytes.head? = some 0x31#8)

/-- R170. STATUS_DECODE: a flag is in the set exactly when its bit is set, for indices 1..7; bit 0 is ignored and the
result never contains Success. -/
def Obligations.StatusDecodeReadsBitsOneToSeven : Prop :=
  ∀ (s : State) (b : Byte), ∃ fs, Answers (.statusDecode b) s (.ok (.flags fs))
    ∧ (∀ f, hasFlag fs f = true ↔ f ≠ .success ∧ b.getLsbD (flagIndex f) = true)
    ∧ (encode (.statusDecode b)).bytes.head? = some 0x40#8

/-- R171. STATUS_ENCODE: Success anywhere gives 0x00, else the OR of the listed flags' bits. -/
def Obligations.StatusEncodeOrsTheBits : Prop :=
  ∀ (s : State) (flags : List StatusFlag), ∃ b, Answers (.statusEncode flags) s (.ok (.byte b))
    ∧ (.success ∈ flags → b = 0x00#8)
    ∧ (.success ∉ flags → ∀ i < 8, b.getLsbD i = true ↔ ∃ f ∈ flags, flagIndex f = i)
    ∧ (encode (.statusEncode flags)).bytes.head? = some 0x41#8

/-- R173. The three laws of the status codec. -/
def Obligations.StatusCodecRoundTrips : Prop :=
  (∀ b : Byte, statusEncode .shortCircuit (flagList (statusDecode b)) = b &&& 0xFE#8)
  ∧ (∀ flags : List StatusFlag, .success ∉ flags →
      ∀ f, hasFlag (statusDecode (statusEncode .shortCircuit flags)) f = true ↔ f ∈ flags)
  ∧ (∀ flags : List StatusFlag, .success ∈ flags → statusDecode (statusEncode .shortCircuit flags) = noFlags)

/-! ### Checksum, builders, GENERATE -/

/-- R121 with the function of R120: the complement of the low byte of the sum over unbounded naturals, of the operands
as given. -/
def Obligations.ChecksumIsComplementOfLowByte : Prop :=
  ∀ (s : State) (id len op : Byte) (bytes : List Byte), ∃ c : Byte,
    Answers (.checksum id len op bytes) s (.ok (.byte c))
    ∧ c.toNat = 255 - (id.toNat + len.toNat + op.toNat + (bytes.map BitVec.toNat).sum) % 256
    ∧ (encode (.checksum id len op bytes)).bytes.head? = some 0x15#8

/-- R120. The checksum function is the complement of the low byte of the sum over unbounded naturals; a frame of at least
6 bytes is checksum-valid exactly when its last byte is the checksum over offsets 2..n-2, and exactly when its bytes from
offset 2 on sum to 0xFF modulo 256. -/
def Obligations.ChecksumValidIffBytesSumTo255 : Prop :=
  (∀ (id len op : Byte) (pb : List Byte),
    (checksum id len op pb).toNat = 255 - (id.toNat + len.toNat + op.toNat + (pb.map BitVec.toNat).sum) % 256)
  ∧ ∀ frame : List Byte, 6 ≤ frame.length →
    (checksumValid frame = true ↔
      checksum (frame.getD 2 0#8) (frame.getD 3 0#8) (frame.getD 4 0#8) ((frame.drop 5).take (frame.length - 6))
        = frame.getD (frame.length - 1) 0#8)
    ∧ (checksumValid frame = true ↔ ((frame.drop 2).map BitVec.toNat).sum % 256 = 0xFF)

/-- R32. An 8-bit accumulator that adds modulo 256 gives R120's checksum. -/
def Obligations.EightBitAccumulatorGivesChecksum : Prop :=
  ∀ (id len op : Byte) (pb : List Byte), ~~~ accumulate 0x00#8 (id :: len :: op :: pb) = checksum id len op pb

/-- R123, R127, R128, R129. The builders of the empty block: the packet, the frame GENERATE makes of it, and
InvalidDeviceId(0xFF); every other address, Broadcast among them, is accepted. -/
def Obligations.EmptyBlockBuildersMakeSixByteFrames : Prop :=
  ∀ (s : State) (addr : Byte) (i : Instr) (code : InstructionCode) (op : Byte),
    (i, code, op) ∈ [(Instr.buildPing addr, InstructionCode.ping, 0x01#8), (.buildAction addr, .action, 0x05#8),
      (.buildReset addr, .reset, 0x06#8), (.buildReboot addr, .reboot, 0x07#8)] →
    (addr = 0xFF#8 → Answers i s (.error (.invalidDeviceId 0xFF#8)))
    ∧ (addr ≠ 0xFF#8 →
        Answers i s (.ok (.packet ⟨addr, .instruction code, [], ~~~ (addr + 0x02#8 + op)⟩))
        ∧ Answers (.generate ⟨addr, .instruction code, [], ~~~ (addr + 0x02#8 + op)⟩) s
            (.ok (.frame [0xFF#8, 0xFF#8, addr, 0x02#8, op, ~~~ (addr + 0x02#8 + op)])))
    ∧ (encode i).bytes.head? = some op

/-- R124. BUILD_READ: `[reg, length]`, every length accepted; PARSE and SEND refuse the reply context of a length outside
1..4. -/
def Obligations.ReadBuilderMakesEightByteFrame : Prop :=
  ∀ (s : State) (addr reg length : Byte),
    (addr = 0xFF#8 → Answers (.buildRead addr reg length) s (.error (.invalidDeviceId 0xFF#8)))
    ∧ (addr ≠ 0xFF#8 → ∃ p : Packet, Answers (.buildRead addr reg length) s (.ok (.packet p))
        ∧ p = ⟨addr, .instruction .read, [⟨.unsigned, BitVec.ofNat 64 reg.toNat, 1#8⟩,
            ⟨.unsigned, BitVec.ofNat 64 length.toNat, 1#8⟩], ~~~ (addr + 0x04#8 + 0x02#8 + reg + length)⟩
        ∧ Answers (.generate p) s
            (.ok (.frame [0xFF#8, 0xFF#8, addr, 0x04#8, 0x02#8, reg, length, p.checksum])))
    ∧ (¬ (1 ≤ length.toNat ∧ length.toNat ≤ 4) →
        (∀ buf, Answers (.parse buf 0x02#8 length) s (.error .unsupportedReadLength))
        ∧ (s.outstanding = none → ∀ p, Answers (.send p 0x02#8 length) s (.error .unsupportedReadLength)))
    ∧ (encode (.buildRead addr reg length)).bytes.head? = some 0x02#8

/-- R125, R126. BUILD_WRITE and BUILD_REGWRITE: the address error, then the data's error, else `[reg] ++ as_bytes(data)`
with wire length 3 + byte_length, and GENERATE's frame of it for well-formed data. That Truncate, which is not this
hardware, skips the builders' range check of the data is the model's reading (log 7). -/
def Obligations.WriteBuildersCarryRegisterAndData : Prop :=
  ∀ (s : State) (addr reg : Byte) (data : Parameter) (i : Instr) (code : InstructionCode) (op : Byte),
    (i, code, op) ∈ [(Instr.buildWrite addr reg data, InstructionCode.write, 0x03#8),
      (.buildRegWrite addr reg data, .regWrite, 0x04#8)] →
    (addr = 0xFF#8 → Answers i s (.error (.invalidDeviceId 0xFF#8)))
    ∧ (∀ e, addr ≠ 0xFF#8 → paramError s.config.paramWidthPolicy data = some e → Answers i s (.error e))
    ∧ (addr ≠ 0xFF#8 → paramError s.config.paramWidthPolicy data = none → ∃ p : Packet,
        Answers i s (.ok (.packet p))
        ∧ p = ⟨addr, .instruction code, [⟨.unsigned, BitVec.ofNat 64 reg.toNat, 1#8⟩, data],
            checksum addr (0x03#8 + data.byteLength) op (reg :: asBytes data)⟩
        ∧ (wellFormedParam data = true → Answers (.generate p) s (.ok (.frame
            ([0xFF#8, 0xFF#8, addr, 0x03#8 + data.byteLength, op, reg] ++ asBytes data ++ [p.checksum])))))
    ∧ (encode i).bytes.head? = some op

/-- R25, R122. Every packet a builder returns is a well-formed Instruction packet, and GENERATE accepts it and emits a
frame whose last byte is the packet's own checksum. -/
def Obligations.BuildersReturnWellFormedPackets : Prop :=
  ∀ (i : Instr) (s t : State) (p : Packet), isBuilder i = true → s.config.isHardware → exec i s = .next t →
    t.responses = .ok (.packet p) :: s.responses →
    wellFormedPacket p = true ∧ (∃ code, p.operation = .instruction code)
      ∧ ∃ frame, Answers (.generate p) s (.ok (.frame frame)) ∧ frame.getLast? = some p.checksum

/-- R130. GENERATE: the errors in the pseudocode's order, else the frame with a recomputed checksum, which for a
well-formed packet is the packet's own. -/
def Obligations.GenerateChecksThenSerializes : Prop :=
  ∀ (s : State) (p : Packet),
    (∀ fs, p.operation = .status fs → Answers (.generate p) s (.error .notAnInstruction))
    ∧ (∀ code, p.operation = .instruction code →
        (p.deviceAddress = 0xFF#8 → Answers (.generate p) s (.error (.invalidDeviceId 0xFF#8)))
        ∧ (p.deviceAddress ≠ 0xFF#8 →
            (∀ e, firstParamError .reject p.parameters = some e → Answers (.generate p) s (.error e))
            ∧ (firstParamError .reject p.parameters = none →
                ∀ pb, pb = (p.parameters.map asBytes).flatten →
                (253 < pb.length → Answers (.generate p) s (.error .frameTooLong))
                ∧ (pb.length ≤ 253 → Answers (.generate p) s (.ok (.frame
                    ([0xFF#8, 0xFF#8, p.deviceAddress, BitVec.ofNat 8 (pb.length + 2), opcode code] ++ pb
                      ++ [checksum p.deviceAddress (BitVec.ofNat 8 (pb.length + 2)) (opcode code) pb])))
                  ∧ (wellFormedPacket p = true →
                    checksum p.deviceAddress (BitVec.ofNat 8 (pb.length + 2)) (opcode code) pb = p.checksum)))))
    ∧ (encode (.generate p)).bytes.head? = some 0x10#8

/-- R131. Every frame GENERATE returns is the same from every state of the block, is checksum-valid, has
`B[3] = len(B) - 4` and starts `0xFF 0xFF`; it has 6 to 259 bytes and a known opcode (R70, R72). -/
def Obligations.GeneratedFramesAreLawful : Prop :=
  ∀ (s s' t : State) (p : Packet) (frame : List Byte), exec (.generate p) s = .next t →
    t.responses = .ok (.frame frame) :: s.responses →
    instructionFrame frame = true ∧ Answers (.generate p) s' (.ok (.frame frame))

/-! ### PARSE -/

/-- R140. PARSE answers what the pseudocode's steps by frame offsets answer, for every buffer and context. -/
def Obligations.ParseFollowsTheOffsets : Prop :=
  ∀ (s : State) (buf : List Byte) (ctxCode reqLen : Byte),
    Answers (.parse buf ctxCode reqLen) s (parseByOffsets buf ctxCode reqLen)
    ∧ (encode (.parse buf ctxCode reqLen)).bytes.head? = some 0x11#8

/-- R31. The decoder state machine reaches a terminal state in four transitions: Parsed with PARSE's packet, or Rejected
with PARSE's error. -/
def Obligations.DecoderMachineAgreesWithParse : Prop :=
  ∀ (buf : List Byte) (ctxCode reqLen : Byte) (ctx : ReplyContext),
    (codeOf ctxCode = some ctx.code → ctx.requestedLength = reqLen →
      decoderRun ctx 4 (decoderStart buf ctxCode reqLen) =
        match parse buf ctxCode reqLen with
        | .ok p => .parsed p
        | .error e => .rejected e)
    ∧ (codeOf ctxCode = none → decoderStart buf ctxCode reqLen = .rejected (.unknownInstruction ctxCode))
    ∧ (∀ k d, (∃ p, d = .parsed p) ∨ (∃ e, d = .rejected e) → decoderRun ctx k d = d)

/-- R142. On this hardware's constants, generate then parse, in any context PARSE accepts for the frame's size, keeps the id, the parameter bytes and
the checksum, and reads the opcode as an error byte. -/
def Obligations.ParseOfGenerateKeepsContent : Prop :=
  ∀ (i : Instr) (s t : State) (p : Packet) (ctxCode reqLen : Byte) (ctx : InstructionCode), isBuilder i = true →
    s.config.isHardware → exec i s = .next t → t.responses = .ok (.packet p) :: s.responses → codeOf ctxCode = some ctx →
    (ctx = .ping → (fromSlice p.parameters).length = 0) →
    (ctx = .read → 1 ≤ reqLen.toNat ∧ reqLen.toNat ≤ 4 ∧ (fromSlice p.parameters).length = reqLen.toNat) →
    ∃ frame q code, p.operation = .instruction code
      ∧ Answers (.generate p) s (.ok (.frame frame))
      ∧ Answers (.parse frame ctxCode reqLen) s (.ok (.packet q))
      ∧ q.deviceAddress = p.deviceAddress ∧ fromSlice q.parameters = fromSlice p.parameters
      ∧ q.checksum = p.checksum ∧ q.operation = .status (statusDecode (opcode code))

/-- R172. Whatever the error byte of a well-formed status frame holds, PARSE answers OK with the decoded flags. -/
def Obligations.DeviceErrorsAreDataInAnOkResponse : Prop :=
  ∀ (s : State) (ctxCode reqLen id err : Byte) (pb : List Byte) (ctx : InstructionCode),
    codeOf ctxCode = some ctx → pb.length ≤ 253 → (ctx = .ping → pb = []) →
    (ctx = .read → 1 ≤ reqLen.toNat ∧ reqLen.toNat ≤ 4 ∧ pb.length = reqLen.toNat) →
    ∃ p : Packet, Answers (.parse ([0xFF#8, 0xFF#8, id, BitVec.ofNat 8 (pb.length + 2), err] ++ pb
        ++ [checksum id (BitVec.ofNat 8 (pb.length + 2)) err pb]) ctxCode reqLen) s (.ok (.packet p))
      ∧ p.operation = .status (statusDecode err) ∧ p.deviceAddress = id

/-! ### The transport boundary -/

/-- R145. EXPECTED_REPLY_LENGTH, for every value of the OPEN parameter. -/
def Obligations.ExpectedReplyLengthByContext : Prop :=
  ∀ (s : State) (reqLen : Byte),
    Answers (.expectedReplyLength 0x01#8 reqLen) s (.ok (.replyLength (some 6)))
    ∧ (1 ≤ reqLen.toNat ∧ reqLen.toNat ≤ 4 →
        Answers (.expectedReplyLength 0x02#8 reqLen) s (.ok (.replyLength (some (6 + reqLen.toNat)))))
    ∧ (¬ (1 ≤ reqLen.toNat ∧ reqLen.toNat ≤ 4) →
        Answers (.expectedReplyLength 0x02#8 reqLen) s (.error .unsupportedReadLength))
    ∧ (∀ c n, (c, n) ∈ [(0x03#8, s.config.replyLenOther.write), (0x04#8, s.config.replyLenOther.regWrite),
          (0x05#8, s.config.replyLenOther.action), (0x06#8, s.config.replyLenOther.reset),
          (0x07#8, s.config.replyLenOther.reboot), (0x83#8, s.config.replyLenOther.syncWrite),
          (0x92#8, s.config.replyLenOther.bulkRead)] →
        Answers (.expectedReplyLength c reqLen) s (.ok (.replyLength n)))
    ∧ (∀ c, codeOf c = none → Answers (.expectedReplyLength c reqLen) s (.error (.unknownInstruction c)))
    ∧ (∀ c, (encode (.expectedReplyLength c reqLen)).bytes.head? = some 0x12#8)

/-- R150. SEND: ExchangeInFlight, the context errors, GENERATE's errors (nothing written in any of them), then one write
of the whole frame; an exchange opens only when the transport reports the whole frame written and a reply is expected.
The lists of the transport's answers and calls are the model's (logs 5, 10). -/
def Obligations.SendWritesOneFrameAndOpensTheExchange : Prop :=
  ∀ (s : State) (packet : Packet) (ctxCode reqLen : Byte),
    (∀ x, s.outstanding = some x → Answers (.send packet ctxCode reqLen) s (.error .exchangeInFlight))
    ∧ (s.outstanding = none →
        (∀ e, expectedReplyLength s.config.replyLenOther ctxCode reqLen = .error e →
          Answers (.send packet ctxCode reqLen) s (.error e))
        ∧ (∀ expect, expectedReplyLength s.config.replyLenOther ctxCode reqLen = .ok expect →
          (∀ e, generate packet = .error e → Answers (.send packet ctxCode reqLen) s (.error e))
          ∧ (∀ frame, generate packet = .ok frame →
            (∀ e, s.txAnswer = .err e → exec (.send packet ctxCode reqLen) s = .next { s with
                txAnswers := s.txAnswers.tail, bus := .write frame (.err e) :: s.bus
                responses := .error (.transportError (.io e)) :: s.responses })
            ∧ (∀ k, s.txAnswer = .ok k → k ≠ frame.length → exec (.send packet ctxCode reqLen) s = .next { s with
                txAnswers := s.txAnswers.tail, bus := .write frame (.ok k) :: s.bus
                responses := .error (.transportError (.shortWrite k)) :: s.responses })
            ∧ (s.txAnswer = .ok frame.length → ∃ code, codeOf ctxCode = some code
                ∧ exec (.send packet ctxCode reqLen) s = .next { s with
                  outstanding := expect.map (fun m => ⟨⟨code, reqLen⟩, m⟩)
                  txAnswers := s.txAnswers.tail, bus := .write frame (.ok frame.length) :: s.bus
                  responses := .ok (.written frame.length) :: s.responses }))))
    ∧ (encode (.send packet ctxCode reqLen)).bytes.head? = some 0x13#8

/-- R151. RECEIVE: NoExchange with nothing read; else one read of the expected length, the exchange ended whatever
follows, and the transport's error, or PARSE's answer in the stored context to a reply of that length, or the rejection of
a reply of another length, after PARSE's context and header checks (log 16).
The lists of the transport's answers and calls are the model's (logs 5, 10). -/
def Obligations.ReceiveReadsTheReplyAndEndsTheExchange : Prop :=
  ∀ (s : State),
    (s.outstanding = none → Answers .receive s (.error .noExchange))
    ∧ (∀ x, s.outstanding = some x →
        (∀ e, s.rxAnswer x.expect = .err e → exec .receive s = .next { s with
            outstanding := none, rxAnswers := s.rxAnswers.tail, bus := .readExact x.expect (.err e) :: s.bus
            responses := .error (.transportError (.io e)) :: s.responses })
        ∧ (∀ bytes, s.rxAnswer x.expect = .ok bytes → ∃ r, exec .receive s = .next { s with
            outstanding := none, rxAnswers := s.rxAnswers.tail, bus := .readExact x.expect (.ok bytes) :: s.bus
            responses := r :: s.responses }
          ∧ (bytes.length = x.expect → r = parseByOffsets bytes (opcode x.ctx.code) x.ctx.requestedLength)
          ∧ (bytes.length ≠ x.expect → r = .error (
              if x.ctx.code = .read ∧ ¬ (1 ≤ x.ctx.requestedLength.toNat ∧ x.ctx.requestedLength.toNat ≤ 4) then
                .unsupportedReadLength
              else if bytes.take 2 = [0xFF#8, 0xFF#8] then .invalidLength
              else .invalidHeader))))
    ∧ (encode .receive).bytes.head? = some 0x14#8

/-- R233. For every byte sequence, of whatever length, PARSE, and RECEIVE of an open exchange, answer an OK response with
a Status packet or one of the parse errors of R220. -/
def Obligations.MalformedDataNeverStopsTheBlock : Prop :=
  ∀ (s : State) (bytes : List Byte) (ctxCode reqLen : Byte),
    (∃ r, Answers (.parse bytes ctxCode reqLen) s r
      ∧ ((∃ p flags, r = .ok (.packet p) ∧ p.operation = .status flags) ∨ ∃ e, r = .error e ∧ errorClass e = .parse))
    ∧ (∀ x, s.outstanding = some x → s.rxAnswer x.expect = .ok bytes → ∃ t r, exec .receive s = .next t
      ∧ t.responses = r :: s.responses
      ∧ ((∃ p flags, r = .ok (.packet p) ∧ p.operation = .status flags) ∨ ∃ e, r = .error e ∧ errorClass e = .parse))

/-! ### SyncWrite and BulkRead -/

/-- R180, R182, R183, R184, with the block of R77. A request whose entries are, in ANY order, the same run of consecutive
addresses for each device builds the SyncWrite packet with the devices ascending, and GENERATE gives its frame. -/
def Obligations.SyncWriteAggregatesInAnyOrder : Prop :=
  ∀ (s : State) (devices : List (Byte × List Parameter)) (a0 : Byte) (bl c : Nat) (entries : List SyncWriteEntry),
    devices ≠ [] → (devices.map fun d => d.1.toNat).Pairwise (· < ·) → (∀ d ∈ devices, d.1.toNat ≤ 253) →
    1 ≤ c → (∀ d ∈ devices, d.2.length = c) →
    (∀ d ∈ devices, ∀ p ∈ d.2, wellFormedParam p = true ∧ p.byteLength.toNat = bl) →
    a0.toNat + (c - 1) * bl ≤ 255 → 2 + devices.length * (1 + c * bl) ≤ 253 →
    entries.Perm (devices.flatMap fun d =>
      d.2.mapIdx fun k p => (⟨d.1, BitVec.ofNat 8 (a0.toNat + k * bl), p⟩ : SyncWriteEntry)) →
    ∀ (len : Byte) (pb : List Byte), len = BitVec.ofNat 8 (4 + devices.length * (1 + c * bl)) →
    pb = [a0, BitVec.ofNat 8 (c * bl)] ++ devices.flatMap (fun d => d.1 :: (d.2.map asBytes).flatten) →
    ∃ p : Packet, Answers (.buildSyncWrite entries) s (.ok (.packet p))
      ∧ p.deviceAddress = 0xFE#8 ∧ p.operation = .instruction .syncWrite
      ∧ p.parameters = byteParam a0 :: unsignedParam (c * bl) 1 :: devices.flatMap (fun d => byteParam d.1 :: d.2)
      ∧ p.checksum = checksum 0xFE#8 len 0x83#8 pb
      ∧ Answers (.generate p) s
          (.ok (.frame ([0xFF#8, 0xFF#8, 0xFE#8, len, 0x83#8] ++ pb ++ [checksum 0xFE#8 len 0x83#8 pb])))
      ∧ (encode (.buildSyncWrite entries)).bytes.head? = some 0x83#8

/-- R180, R181, R182, R230. The rejections of BUILD_SYNCWRITE, each after the checks before it pass. That Truncate, which is
not this hardware, skips the range check of the data is the model's reading (log 7). -/
def Obligations.SyncWriteRejectsInOrder : Prop :=
  ∀ (s : State) (policy : ParamWidthPolicy), policy = s.config.paramWidthPolicy →
    Answers (.buildSyncWrite []) s (.error .noDynamixels)
    ∧ (∀ before e after, (∀ x ∈ before, x.deviceId.toNat ≤ 253) → 253 < e.deviceId.toNat →
        Answers (.buildSyncWrite (before ++ e :: after)) s (.error (.invalidDeviceId e.deviceId)))
    ∧ (∀ e0 es, (∀ x ∈ e0 :: es, x.deviceId.toNat ≤ 253) →
        (∀ err, firstParamError policy ((e0 :: es).map SyncWriteEntry.data) = some err →
          Answers (.buildSyncWrite (e0 :: es)) s (.error err))
        ∧ ((∀ x ∈ e0 :: es, paramError policy x.data = none) →
          ((∃ x ∈ es, x.data.byteLength ≠ e0.data.byteLength) →
            Answers (.buildSyncWrite (e0 :: es)) s (.error .inconsistentSize))
          ∧ ((∀ x ∈ es, x.data.byteLength = e0.data.byteLength) →
            ((∃ x ∈ es, (entriesFor x.deviceId (e0 :: es)).length ≠ (entriesFor e0.deviceId (e0 :: es)).length) →
              Answers (.buildSyncWrite (e0 :: es)) s (.error .inconsistentLength))
            ∧ ((∀ x ∈ es, (entriesFor x.deviceId (e0 :: es)).length = (entriesFor e0.deviceId (e0 :: es)).length) →
              ∀ (bl c : Nat), bl = e0.data.byteLength.toNat → c = (entriesFor e0.deviceId (e0 :: es)).length →
              (s.config.swAddrCheck = .strict →
                (¬ ∃ a0 : Nat, ∀ x ∈ e0 :: es, (addressesFor x.deviceId (e0 :: es)).Perm (addressRun a0 bl c)) →
                Answers (.buildSyncWrite (e0 :: es)) s (.error .inconsistentAddresses))
              ∧ ((∃ a0 : Nat, ∀ x ∈ e0 :: es, (addressesFor x.deviceId (e0 :: es)).Perm (addressRun a0 bl c)) →
                253 < 2 + ((e0 :: es).map SyncWriteEntry.deviceId).dedup.length * (1 + c * bl) →
                Answers (.buildSyncWrite (e0 :: es)) s (.error .frameTooLong))))))

/-- R190, R191, with the block of R78: at most 84 entries with distinct concrete ids build the BulkRead packet, in input
order and with every read length and address accepted, and GENERATE gives its frame. -/
def Obligations.BulkReadKeepsEntryOrder : Prop :=
  ∀ (s : State) (entries : List BulkReadEntry), entries ≠ [] → (entries.map BulkReadEntry.deviceId).Nodup →
    (∀ e ∈ entries, e.deviceId.toNat ≤ 253) → entries.length ≤ 84 →
    ∀ (len : Byte) (pb : List Byte), len = BitVec.ofNat 8 (3 + 3 * entries.length) →
    pb = 0x00#8 :: entries.flatMap (fun e => [e.readLength, e.deviceId, e.registerAddress]) →
    ∃ p : Packet, Answers (.buildBulkRead entries) s (.ok (.packet p))
      ∧ p.deviceAddress = 0xFE#8 ∧ p.operation = .instruction .bulkRead
      ∧ p.parameters = pb.map byteParam ∧ p.checksum = checksum 0xFE#8 len 0x92#8 pb
      ∧ Answers (.generate p) s
          (.ok (.frame ([0xFF#8, 0xFF#8, 0xFE#8, len, 0x92#8] ++ pb ++ [checksum 0xFE#8 len 0x92#8 pb])))
      ∧ (encode (.buildBulkRead entries)).bytes.head? = some 0x92#8

/-- R190. The rejections of BUILD_BULKREAD, each after the checks before it pass. -/
def Obligations.BulkReadRejectsInOrder : Prop :=
  ∀ (s : State),
    Answers (.buildBulkRead []) s (.error .noDynamixels)
    ∧ (∀ before e after, (before.map BulkReadEntry.deviceId).Nodup → e.deviceId ∈ before.map BulkReadEntry.deviceId →
        Answers (.buildBulkRead (before ++ e :: after)) s (.error (.duplicateDeviceId e.deviceId)))
    ∧ (∀ before e after, ((before ++ e :: after).map BulkReadEntry.deviceId).Nodup →
        (∀ x ∈ before, x.deviceId.toNat ≤ 253) → 253 < e.deviceId.toNat →
        Answers (.buildBulkRead (before ++ e :: after)) s (.error (.invalidDeviceId e.deviceId)))
    ∧ (∀ entries, (entries.map BulkReadEntry.deviceId).Nodup → (∀ x ∈ entries, x.deviceId.toNat ≤ 253) →
        84 < entries.length → Answers (.buildBulkRead entries) s (.error .frameTooLong))

/-! ### The wire instructions -/

/-- Every well-formed wire instruction completes: the frame it emits is its own encoding (R30, R70, R74, R76, R77, R78; that
a wire instruction is executed as its builder and then GENERATE is the model's, log 3). -/
def Obligations.WireInstructionsEmitTheirEncoding : Prop :=
  ∀ (i : Instr) (s : State), i.isWire = true → i.wellFormed = true → Answers i s (.ok (.frame (encode i).bytes))

/-! ### The whole machine -/

/-- R57, R34. Every instruction but SEND and RECEIVE is a pure function of its operands and the constants: from any two
states with the same constants it completes with the same response, and changes nothing else. -/
def Obligations.OnlySendAndReceiveHaveSideEffects : Prop :=
  ∀ (i : Instr), isExchange i = false → ∀ s s' : State, s.config = s'.config →
    ∃ r, Answers i s r ∧ Answers i s' r

/-- R83. Every command, from every state, returns exactly one response; the host's queue and the constants stay. -/
def Obligations.EveryCommandReturnsOneResponse : Prop :=
  ∀ (i : Instr) (s : State), ∃ t r, exec i s = .next t ∧ t.responses = r :: s.responses
    ∧ t.host = s.host ∧ t.config = s.config

/-- R222. A host command raises only the errors its table lists for it, with the payload of R83, from every state that
meets the invariant.
Where R151 and R222 differ on UnsupportedReadLength, the invariant rules the case out (log 18). -/
def Obligations.ErrorsComeFromTheirCommands : Prop :=
  ∀ (i : Instr) (s t : State) (e : CmdError), s.Inv → i.isWire = false → exec i s = .next t →
    t.responses = .error e :: s.responses → mayRaise i e = true

/-- R231. An error response changes nothing else: the exceptions are a TransportError of SEND, after its write, and
RECEIVE, which has ended the exchange. -/
def Obligations.ErrorResponsesChangeNothingElse : Prop :=
  ∀ (i : Instr) (s t : State) (e : CmdError), exec i s = .next t → t.responses = .error e :: s.responses →
    (i ≠ .receive → t.outstanding = s.outstanding)
    ∧ (i ≠ .receive → (∀ why, e ≠ .transportError why) → t = { s with responses := .error e :: s.responses })
    ∧ (i = .receive → e ≠ .noExchange → t.outstanding = none)
    ∧ (i = .receive → e = .noExchange → t = { s with responses := .error e :: s.responses })

/-- R35. No step, and so no command and no reset, changes the configuration constants. -/
def Obligations.StepsNeverChangeTheConstants : Prop :=
  ∀ s t : State, step s = .next t → t.config = s.config

/-- Every step keeps the invariant: this hardware's constants, a bus on which every frame written is an instruction frame
and every read comes right after a fully written request, and an open exchange that stands for such a request.
The bus trace is the model's (log 10). -/
def Obligations.EveryStepKeepsTheInvariant : Prop :=
  ∀ s t : State, s.Inv → step s = .next t → t.Inv

/-- R63, R68. A step that reads the bus does so with an exchange open, right after a write of a whole request, and asks
for the length fixed before it.
The bus trace is the model's (log 10). -/
def Obligations.ReadsFollowAFullyWrittenRequest : Prop :=
  ∀ (s t : State) (n : Nat) (r : RxResult), s.Inv → step s = .next t → t.bus = .readExact n r :: s.bus →
    (∃ frame older, s.bus = .write frame (.ok frame.length) :: older)
    ∧ ∃ x, s.outstanding = some x ∧ n = x.expect

/-- R64, R56. While an exchange is open no step writes the bus; a step makes at most one transport call; and what a step
writes is one complete instruction frame.
The bus trace is the model's (log 10). -/
def Obligations.OneExchangeIsInFlight : Prop :=
  ∀ s t : State, step s = .next t →
    t.bus = s.bus
    ∨ (∃ n r, t.bus = .readExact n r :: s.bus ∧ s.outstanding.isSome = true ∧ t.outstanding = none)
    ∨ (∃ frame r, t.bus = .write frame r :: s.bus ∧ s.outstanding = none ∧ instructionFrame frame = true)

/-- R9, R151. A free answer to a read is an error or exactly the bytes asked for, and RECEIVE answers OK only to a reply of
exactly the bytes it asked for.
The list of the transport's answers is the model's (log 5). -/
def Obligations.OnlyRepliesOfTheAskedLengthAreAccepted : Prop :=
  ∀ (s : State),
    (s.rxAnswers = [] → ∀ n, keepsContract n (s.rxAnswer n) = true)
    ∧ (∀ x t p, s.outstanding = some x → exec .receive s = .next t → t.responses = .ok p :: s.responses →
        ∃ bytes, s.rxAnswer x.expect = .ok bytes ∧ bytes.length = x.expect)

/-- R37. An instruction that is not among the readers of the constants does the same whatever they are, the OPEN reply
lengths apart; a wire instruction reads them through its builder (log 3).
The reply lengths stand in the same record, by the model's choice (log 6). -/
def Obligations.OnlyTheListedCommandsReadTheConstants : Prop :=
  ∀ (i : Instr) (s t : State) (c : Config), readsConstants i = false → c.replyLenOther = s.config.replyLenOther →
    exec i s = .next t → exec i { s with config := c } = .next { t with config := c }
end

