-- ==== Sys2Proof/Laws/Bytes.lean ====
section
/-! SUPPORT. The laws of the byte helpers: little-endian bytes, byte sums, opcodes, addresses, frames. -/

namespace Sys2Proof.Machine

@[simp] theorem leBytes_length (n : Nat) (w : Word64) : (leBytes n w).length = n := by
  induction n generalizing w with
  | zero => rfl
  | succ n ih => simp [leBytes, ih]

/-- The n little-endian bytes stand for the value mod 256^n. -/
theorem unLE_leBytes (n : Nat) (w : Word64) : unLE (leBytes n w) = w.toNat % 256 ^ n := by
  induction n generalizing w with
  | zero => simp [leBytes, unLE, Nat.mod_one]
  | succ n ih =>
    simp only [leBytes, unLE, ih, BitVec.toNat_setWidth, BitVec.toNat_ushiftRight, Nat.shiftRight_eq_div_pow]
    rw [show (256 : Nat) ^ (n + 1) = 256 * 256 ^ n by ring, Nat.mod_mul]

theorem unLE_lt (s : List Byte) : unLE s < 256 ^ s.length := by
  induction s with
  | nil => simp [unLE]
  | cons b rest ih =>
    have hb := b.isLt
    simp only [unLE, List.length_cons]
    rw [show (256 : Nat) ^ (rest.length + 1) = 256 * 256 ^ rest.length by ring]
    omega

/-- Bytes are the little-endian bytes of the value they stand for. -/
theorem leBytes_unLE (s : List Byte) (h : s.length ≤ 8) : leBytes s.length (BitVec.ofNat 64 (unLE s)) = s := by
  induction s with
  | nil => rfl
  | cons b rest ih =>
    have hb := b.isLt
    have hr : unLE rest < 256 ^ 7 :=
      lt_of_lt_of_le (unLE_lt rest) (Nat.pow_le_pow_right (by norm_num) (by simp at h; omega))
    have hlt : b.toNat + 256 * unLE rest < 2 ^ 64 := by norm_num at hr ⊢; omega
    simp only [List.length_cons, leBytes, unLE]
    congr 1
    · apply BitVec.eq_of_toNat_eq
      simp only [BitVec.toNat_setWidth, BitVec.toNat_ofNat]
      omega
    · have : (BitVec.ofNat 64 (b.toNat + 256 * unLE rest)) >>> 8 = BitVec.ofNat 64 (unLE rest) := by
        apply BitVec.eq_of_toNat_eq
        simp only [BitVec.toNat_ushiftRight, BitVec.toNat_ofNat, Nat.shiftRight_eq_div_pow]
        rw [Nat.mod_eq_of_lt hlt, Nat.mod_eq_of_lt (by norm_num at hr ⊢; omega)]
        omega
      rw [this]
      exact ih (by simp at h; omega)

@[simp] theorem byteSum_nil : byteSum [] = 0 := rfl
@[simp] theorem byteSum_cons (b : Byte) (bs : List Byte) : byteSum (b :: bs) = b.toNat + byteSum bs := rfl

@[simp] theorem byteSum_append (a b : List Byte) : byteSum (a ++ b) = byteSum a + byteSum b := by
  induction a with
  | nil => simp
  | cons x xs ih => simp [ih]; omega

/-- `~x = 255 - x` on the low byte of the sum (R120). -/
theorem checksum_toNat (id len op : Byte) (pb : List Byte) :
    (checksum id len op pb).toNat = 255 - (id.toNat + len.toNat + op.toNat + byteSum pb) % 256 := by
  simp [checksum]

/-- The accumulator holds the low byte of the sum (R32). -/
theorem accumulate_eq (acc : Byte) (bs : List Byte) : accumulate acc bs = acc + BitVec.ofNat 8 (byteSum bs) := by
  induction bs generalizing acc with
  | nil => simp [accumulate]
  | cons b rest ih =>
    simp only [accumulate, ih, byteSum_cons, BitVec.ofNat_add, BitVec.ofNat_toNat, BitVec.setWidth_eq]
    ac_rfl

@[simp] theorem codeOf_opcode (c : InstructionCode) : codeOf (opcode c) = some c := by cases c <;> rfl

/-- The vocabulary maps each way (R105). -/
theorem codeOf_eq_some {b : Byte} {c : InstructionCode} : codeOf b = some c ↔ b = opcode c := by
  constructor
  · intro h
    have := List.find?_some h
    exact (by simpa using this : opcode c = b).symm
  · rintro rfl
    exact codeOf_opcode c

theorem opcode_injective {c d : InstructionCode} (h : opcode c = opcode d) : c = d := by
  have := congrArg codeOf h
  simpa using this

/-- Only 0xFF is no device address, and an address resolves to its byte (R20, R58). -/
theorem addressOf_eq (b : Byte) : (addressOf b).map resolve = if b = 0xFF#8 then none else some b := by
  revert b; decide

theorem addressOf_none {b : Byte} : addressOf b = none ↔ b = 0xFF#8 := by
  have := addressOf_eq b
  cases h : addressOf b <;> by_cases hb : b = 0xFF#8 <;> simp_all

theorem resolve_addressOf {b : Byte} {d : DeviceAddress} (h : addressOf b = some d) : resolve d = b ∧ b ≠ 0xFF#8 := by
  have := addressOf_eq b
  by_cases hb : b = 0xFF#8 <;> simp_all

@[simp] theorem frameBytes_length (id op : Byte) (pb : List Byte) : (frameBytes id op pb).length = pb.length + 6 := by
  simp [frameBytes]

/-- The length byte holds `P + 2` as long as P is at most 253 (R72). -/
theorem wireLength_toNat {pb : List Byte} (h : pb.length ≤ 253) : (wireLength pb).toNat = pb.length + 2 := by
  simp [wireLength]; omega

theorem flagIndex_lt (f : StatusFlag) : flagIndex f < 8 := by cases f <;> decide

/-- `1 << index(f)` has one bit (R171). -/
theorem flagBit_getLsbD (f : StatusFlag) (i : Nat) : (1#8 <<< flagIndex f).getLsbD i = (flagIndex f == i) := by
  have hf := flagIndex_lt f
  by_cases h : i < 8
  · clear hf
    revert i
    cases f <;> decide
  · rw [BitVec.getLsbD_of_ge _ _ (by omega)]
    symm; simp; omega

/-- A bit of the encoder's result is a flag's bit (R171). -/
theorem orBits_getLsbD (fs : List StatusFlag) (r : Byte) (i : Nat) :
    (orBits r fs).getLsbD i = (r.getLsbD i || fs.any fun f => flagIndex f == i) := by
  induction fs generalizing r with
  | nil => simp [orBits]
  | cons f rest ih =>
    rw [orBits, ih, BitVec.getLsbD_or, flagBit_getLsbD, List.any_cons, Bool.or_assoc]

/-- A flag is in the decoded set when its bit is set; `Success` never is (R170). -/
theorem hasFlag_statusDecode (b : Byte) (f : StatusFlag) :
    hasFlag (statusDecode b) f = (f != .success && b.getLsbD (flagIndex f)) := by
  revert b
  cases f <;> decide

/-- Flag sets with the same members are the same set. -/
theorem flagSet_ext {a b : FlagSet} (h : ∀ f, hasFlag a f = hasFlag b f) : a = b := by
  cases a; cases b
  have h1 := h .instruction
  have h2 := h .overload
  have h3 := h .checksum
  have h4 := h .range
  have h5 := h .overheating
  have h6 := h .angleLimit
  have h7 := h .inputVoltage
  simp_all [hasFlag]

@[simp] theorem mem_flagList (s : FlagSet) (f : StatusFlag) : f ∈ flagList s ↔ hasFlag s f = true := by
  cases f <;> simp [flagList, namedFlags, hasFlag]

end Sys2Proof.Machine
end

