-- ==== Sys2Proof/Laws/State.lean ====
section
/-! SUPPORT. One lemma for each field and each update of State, so that no proof unfolds a record update. -/

namespace Sys2Proof.Machine

@[simp] theorem State.answer_outstanding (s : State) (r : Response) : (s.answer r).outstanding = s.outstanding := rfl
@[simp] theorem State.answer_config (s : State) (r : Response) : (s.answer r).config = s.config := rfl
@[simp] theorem State.answer_host (s : State) (r : Response) : (s.answer r).host = s.host := rfl
@[simp] theorem State.answer_txAnswers (s : State) (r : Response) : (s.answer r).txAnswers = s.txAnswers := rfl
@[simp] theorem State.answer_rxAnswers (s : State) (r : Response) : (s.answer r).rxAnswers = s.rxAnswers := rfl
@[simp] theorem State.answer_bus (s : State) (r : Response) : (s.answer r).bus = s.bus := rfl
@[simp] theorem State.answer_responses (s : State) (r : Response) : (s.answer r).responses = r :: s.responses := rfl

@[simp] theorem State.raise_outstanding (s : State) (e : CmdError) : (s.raise e).outstanding = s.outstanding := rfl
@[simp] theorem State.raise_config (s : State) (e : CmdError) : (s.raise e).config = s.config := rfl
@[simp] theorem State.raise_host (s : State) (e : CmdError) : (s.raise e).host = s.host := rfl
@[simp] theorem State.raise_txAnswers (s : State) (e : CmdError) : (s.raise e).txAnswers = s.txAnswers := rfl
@[simp] theorem State.raise_rxAnswers (s : State) (e : CmdError) : (s.raise e).rxAnswers = s.rxAnswers := rfl
@[simp] theorem State.raise_bus (s : State) (e : CmdError) : (s.raise e).bus = s.bus := rfl
@[simp] theorem State.raise_responses (s : State) (e : CmdError) : (s.raise e).responses = .error e :: s.responses := rfl

@[simp] theorem State.txWrite_outstanding (s : State) (frame : List Byte) : (s.txWrite frame).outstanding = s.outstanding := rfl
@[simp] theorem State.txWrite_config (s : State) (frame : List Byte) : (s.txWrite frame).config = s.config := rfl
@[simp] theorem State.txWrite_host (s : State) (frame : List Byte) : (s.txWrite frame).host = s.host := rfl
@[simp] theorem State.txWrite_txAnswers (s : State) (frame : List Byte) : (s.txWrite frame).txAnswers = s.txAnswers.tail := rfl
@[simp] theorem State.txWrite_rxAnswers (s : State) (frame : List Byte) : (s.txWrite frame).rxAnswers = s.rxAnswers := rfl
@[simp] theorem State.txWrite_bus (s : State) (frame : List Byte) : (s.txWrite frame).bus = .write frame s.txAnswer :: s.bus := rfl
@[simp] theorem State.txWrite_responses (s : State) (frame : List Byte) : (s.txWrite frame).responses = s.responses := rfl

@[simp] theorem State.rxReadExact_outstanding (s : State) (n : Nat) : (s.rxReadExact n).outstanding = s.outstanding := rfl
@[simp] theorem State.rxReadExact_config (s : State) (n : Nat) : (s.rxReadExact n).config = s.config := rfl
@[simp] theorem State.rxReadExact_host (s : State) (n : Nat) : (s.rxReadExact n).host = s.host := rfl
@[simp] theorem State.rxReadExact_txAnswers (s : State) (n : Nat) : (s.rxReadExact n).txAnswers = s.txAnswers := rfl
@[simp] theorem State.rxReadExact_rxAnswers (s : State) (n : Nat) : (s.rxReadExact n).rxAnswers = s.rxAnswers.tail := rfl
@[simp] theorem State.rxReadExact_bus (s : State) (n : Nat) : (s.rxReadExact n).bus = .readExact n (s.rxAnswer n) :: s.bus := rfl
@[simp] theorem State.rxReadExact_responses (s : State) (n : Nat) : (s.rxReadExact n).responses = s.responses := rfl

@[simp] theorem State.setOutstanding_outstanding (s : State) (v : Option Exchange) : (s.setOutstanding v).outstanding = v := rfl
@[simp] theorem State.setOutstanding_config (s : State) (v : Option Exchange) : (s.setOutstanding v).config = s.config := rfl
@[simp] theorem State.setOutstanding_host (s : State) (v : Option Exchange) : (s.setOutstanding v).host = s.host := rfl
@[simp] theorem State.setOutstanding_txAnswers (s : State) (v : Option Exchange) : (s.setOutstanding v).txAnswers = s.txAnswers := rfl
@[simp] theorem State.setOutstanding_rxAnswers (s : State) (v : Option Exchange) : (s.setOutstanding v).rxAnswers = s.rxAnswers := rfl
@[simp] theorem State.setOutstanding_bus (s : State) (v : Option Exchange) : (s.setOutstanding v).bus = s.bus := rfl
@[simp] theorem State.setOutstanding_responses (s : State) (v : Option Exchange) : (s.setOutstanding v).responses = s.responses := rfl

@[simp] theorem State.applyReset_outstanding (s : State) : (s.applyReset).outstanding = none := rfl
@[simp] theorem State.applyReset_config (s : State) : (s.applyReset).config = s.config := rfl
@[simp] theorem State.applyReset_host (s : State) : (s.applyReset).host = s.host := rfl
@[simp] theorem State.applyReset_txAnswers (s : State) : (s.applyReset).txAnswers = s.txAnswers := rfl
@[simp] theorem State.applyReset_rxAnswers (s : State) : (s.applyReset).rxAnswers = s.rxAnswers := rfl
@[simp] theorem State.applyReset_bus (s : State) : (s.applyReset).bus = s.bus := rfl
@[simp] theorem State.applyReset_responses (s : State) : (s.applyReset).responses = s.responses := rfl

@[simp] theorem State.withoutResponse_outstanding (s : State) (b : State) : (s.withoutResponse b).outstanding = s.outstanding := rfl
@[simp] theorem State.withoutResponse_config (s : State) (b : State) : (s.withoutResponse b).config = s.config := rfl
@[simp] theorem State.withoutResponse_host (s : State) (b : State) : (s.withoutResponse b).host = s.host := rfl
@[simp] theorem State.withoutResponse_txAnswers (s : State) (b : State) : (s.withoutResponse b).txAnswers = s.txAnswers := rfl
@[simp] theorem State.withoutResponse_rxAnswers (s : State) (b : State) : (s.withoutResponse b).rxAnswers = s.rxAnswers := rfl
@[simp] theorem State.withoutResponse_bus (s : State) (b : State) : (s.withoutResponse b).bus = s.bus := rfl
@[simp] theorem State.withoutResponse_responses (s : State) (b : State) : (s.withoutResponse b).responses = b.responses := rfl

@[simp] theorem State.withHost_outstanding (s : State) (rest : List HostEvent) : (s.withHost rest).outstanding = s.outstanding := rfl
@[simp] theorem State.withHost_config (s : State) (rest : List HostEvent) : (s.withHost rest).config = s.config := rfl
@[simp] theorem State.withHost_host (s : State) (rest : List HostEvent) : (s.withHost rest).host = rest := rfl
@[simp] theorem State.withHost_txAnswers (s : State) (rest : List HostEvent) : (s.withHost rest).txAnswers = s.txAnswers := rfl
@[simp] theorem State.withHost_rxAnswers (s : State) (rest : List HostEvent) : (s.withHost rest).rxAnswers = s.rxAnswers := rfl
@[simp] theorem State.withHost_bus (s : State) (rest : List HostEvent) : (s.withHost rest).bus = s.bus := rfl
@[simp] theorem State.withHost_responses (s : State) (rest : List HostEvent) : (s.withHost rest).responses = s.responses := rfl

@[simp] theorem State.finish_ok (s : State) (v : Payload) : s.finish (.ok v) = s.answer (.ok v) := rfl
@[simp] theorem State.finish_error (s : State) (e : CmdError) : s.finish (.error e) = s.raise e := rfl

@[simp] theorem State.txAnswer_cons (s : State) (r : TxResult) (rs : List TxResult) (h : s.txAnswers = r :: rs) :
    s.txAnswer = r := by simp [State.txAnswer, h]

@[simp] theorem State.rxAnswer_cons (s : State) (n : Nat) (r : RxResult) (rs : List RxResult) (h : s.rxAnswers = r :: rs) :
    s.rxAnswer n = r := by simp [State.rxAnswer, h]

@[simp] theorem State.rxAnswer_nil (s : State) (n : Nat) (h : s.rxAnswers = []) : s.rxAnswer n = s.rxDraw n := by
  simp [State.rxAnswer, h]

@[simp] theorem resultResponse_ok (v : Payload) : resultResponse (.ok v) = .ok v := rfl
@[simp] theorem resultResponse_error (e : CmdError) : resultResponse (.error e) = .error e := rfl

/-- A command's end changes the responses and nothing else. -/
theorem State.finish_eq (s : State) (r : Except CmdError Payload) :
    s.finish r = { s with responses := resultResponse r :: s.responses } := by
  cases r <;> rfl

end Sys2Proof.Machine
end

