-- ==== Sys2Proof/Laws/Operands.lean ====
section
/-! SUPPORT. The laws of the operand forms and of the builder procedure: `check_param`, parameter blocks, reply contexts,
`mk_instruction`, GENERATE. -/

namespace Sys2Proof.Machine

/-- The check computes what R23's two conditions say. -/
theorem fits_eq_inRange (p : Parameter) : fits p.kind p.value p.byteLength.toNat = inRange p := by
  rcases p with ⟨_ | _, v, n⟩
  · simp only [fits, inRange, paramValue]
    congr 1
    exact propext ⟨fun h => by exact_mod_cast h, fun h => by exact_mod_cast h⟩
  · rfl

/-- R23's condition on an unsigned value. -/
theorem inRange_unsigned (p : Parameter) (h : p.kind = .unsigned) :
    inRange p = true ↔ p.value.toNat < 256 ^ p.byteLength.toNat := by
  simp only [inRange, h, paramValue, decide_eq_true_eq]
  exact_mod_cast Iff.rfl

/-- R23's condition on a signed value. -/
theorem inRange_signed (p : Parameter) (h : p.kind = .signed) :
    inRange p = true ↔ -(2 ^ (8 * p.byteLength.toNat - 1)) ≤ p.value.toInt
      ∧ p.value.toInt < 2 ^ (8 * p.byteLength.toNat - 1) := by
  simp only [inRange, h, paramValue, Bool.and_eq_true, decide_eq_true_eq]

/-- `check_param` reports exactly `paramError` (R102). -/
theorem checkParam_eq (policy : ParamWidthPolicy) (p : Parameter) :
    checkParam policy p = match paramError policy p with | some e => .error e | none => .ok () := by
  unfold checkParam paramError validWidth
  rw [fits_eq_inRange]
  by_cases h : p.byteLength.toNat = 0 ∨ 4 < p.byteLength.toNat
  · rw [if_pos (by omega), if_pos h]
  · rw [if_neg (by omega), if_neg h]
    split_ifs <;> rfl

/-- The checks of a list report the first ill-formed element's error (R104). -/
theorem checkParams_eq (policy : ParamWidthPolicy) (ps : List Parameter) :
    checkParams policy ps = match firstParamError policy ps with | some e => .error e | none => .ok () := by
  induction ps with
  | nil => rfl
  | cons p ps ih =>
    simp only [checkParams, checkParam_eq, firstParamError, List.findSome?_cons]
    cases h : paramError policy p
    · simpa [firstParamError] using ih
    · rfl

theorem checkParams_ok {policy : ParamWidthPolicy} {ps : List Parameter} :
    (∃ u, checkParams policy ps = .ok u) ↔ ∀ p ∈ ps, paramError policy p = none := by
  rw [checkParams_eq]
  cases h : firstParamError policy ps
  · simpa [firstParamError] using h
  · obtain ⟨p, hp, he⟩ := List.exists_of_findSome?_eq_some h
    simp only [reduceCtorEq, exists_false, false_iff, not_forall]
    exact ⟨p, hp, by simp [he]⟩

/-- A well-formed Parameter passes `check_param` under every policy (R23, R102). -/
theorem paramError_of_wellFormed {p : Parameter} (h : wellFormedParam p = true) (policy : ParamWidthPolicy) :
    paramError policy p = none := by
  simp only [wellFormedParam, Bool.and_eq_true, decide_eq_true_eq] at h
  rw [paramError, if_neg (by omega), if_neg (by simp [h.2])]

/-- On this hardware `check_param` passes the well-formed Parameters and no others (R23, R102). -/
theorem paramError_none_iff {p : Parameter} : paramError .reject p = none ↔ wellFormedParam p = true := by
  refine ⟨fun h => ?_, fun h => paramError_of_wellFormed h _⟩
  unfold paramError at h
  split_ifs at h with h1 h2
  simp only [wellFormedParam, Bool.and_eq_true, decide_eq_true_eq]
  exact ⟨by omega, by simpa using h2⟩

theorem paramError_none_width {policy : ParamWidthPolicy} {p : Parameter} (h : paramError policy p = none) :
    1 ≤ p.byteLength.toNat ∧ p.byteLength.toNat ≤ 4 := by
  unfold paramError at h
  split_ifs at h
  omega

/-- A value the block supplies itself, of one byte, passes every check. -/
theorem unsignedParam_one_ok (v : Nat) (hv : v < 256) (policy : ParamWidthPolicy) :
    paramError policy (unsignedParam v 1) = none := by
  apply paramError_of_wellFormed
  have : v % 18446744073709551616 < 256 := by omega
  simp [wellFormedParam, unsignedParam, inRange, paramValue]
  exact_mod_cast this

@[simp] theorem byteParam_ok (b : Byte) (policy : ParamWidthPolicy) : paramError policy (byteParam b) = none :=
  unsignedParam_one_ok _ b.isLt _

@[simp] theorem asBytes_length (p : Parameter) : (asBytes p).length = p.byteLength.toNat := leBytes_length _ _

@[simp] theorem asBytes_unsignedParam_one (v : Nat) : asBytes (unsignedParam v 1) = [BitVec.ofNat 8 v] := by
  simp [asBytes, unsignedParam, leBytes]

@[simp] theorem asBytes_byteParam (b : Byte) : asBytes (byteParam b) = [b] := by simp [byteParam]

@[simp] theorem fromSlice_nil : fromSlice [] = [] := rfl
@[simp] theorem fromSlice_cons (p : Parameter) (ps : List Parameter) : fromSlice (p :: ps) = asBytes p ++ fromSlice ps := rfl
@[simp] theorem fromSlice_append (a b : List Parameter) : fromSlice (a ++ b) = fromSlice a ++ fromSlice b := by
  simp [fromSlice]
@[simp] theorem fromSlice_map_byteParam (bs : List Byte) : fromSlice (bs.map byteParam) = bs := by
  induction bs with
  | nil => rfl
  | cons b bs ih => simp [ih]

/-- The data bytes of a wire instruction as one Parameter give the bytes back. -/
theorem asBytes_unLE (bs : List Byte) (h : bs.length ≤ 8) : asBytes (unsignedParam (unLE bs) bs.length) = bs := by
  have : (BitVec.ofNat 8 bs.length).toNat = bs.length := by simp; omega
  simp only [asBytes, unsignedParam, this]
  exact leBytes_unLE bs h

theorem unLE_param_ok (bs : List Byte) (h1 : 1 ≤ bs.length) (h4 : bs.length ≤ 4) (policy : ParamWidthPolicy) :
    paramError policy (unsignedParam (unLE bs) bs.length) = none := by
  apply paramError_of_wellFormed
  have hl : (BitVec.ofNat 8 bs.length).toNat = bs.length := by simp; omega
  have hv := unLE_lt bs
  have : unLE bs % 18446744073709551616 ≤ unLE bs := Nat.mod_le _ _
  simp only [wellFormedParam, unsignedParam, inRange, paramValue, hl, BitVec.toNat_ofNat, Bool.and_eq_true,
    decide_eq_true_eq]
  exact ⟨⟨h1, h4⟩, by exact_mod_cast lt_of_le_of_lt this hv⟩

/-- A meaning that ends in `finish` answers its result's response. -/
theorem answers_of_finish {i : Instr} {s : State} {r : Except CmdError Payload} (h : exec i s = .next (s.finish r)) :
    Answers i s (resultResponse r) := by
  rw [Answers, h, State.finish_eq]

/-- A meaning that ends in `finish` answers nothing but its result's response. -/
theorem response_of_finish {s t : State} {r : Except CmdError Payload} {v : Response}
    (h : (Host.Outcome.next (s.finish r) : Host.Outcome State Fault Refusal) = .next t)
    (hr : t.responses = v :: s.responses) : v = resultResponse r := by
  rw [State.finish_eq] at h
  cases h
  simpa using hr.symm

theorem firstParamError_none {policy : ParamWidthPolicy} {ps : List Parameter} :
    firstParamError policy ps = none ↔ ∀ p ∈ ps, paramError policy p = none := by
  simp [firstParamError]

@[simp] theorem firstParamError_nil (policy : ParamWidthPolicy) : firstParamError policy [] = none := rfl

@[simp] theorem firstParamError_byteParam (policy : ParamWidthPolicy) (b : Byte) (ps : List Parameter) :
    firstParamError policy (byteParam b :: ps) = firstParamError policy ps := by
  simp [firstParamError]

@[simp] theorem firstParamError_single (policy : ParamWidthPolicy) (p : Parameter) :
    firstParamError policy [p] = paramError policy p := by
  simp only [firstParamError, List.findSome?_cons]
  cases paramError policy p <;> rfl

theorem ctxOf_eq (b : Byte) : ctxOf b = match codeOf b with | some c => .ok c | none => .error (.unknownInstruction b) := rfl

@[simp] theorem ctxOf_opcode (c : InstructionCode) : ctxOf (opcode c) = .ok c := by simp [ctxOf]

/-- `mk_instruction`, its checks in order (R122). -/
theorem mkInstruction_eq (policy : ParamWidthPolicy) (addr : Byte) (code : InstructionCode) (ps : List Parameter) :
    mkInstruction policy addr code ps =
      if addr = 0xFF#8 then .error (.invalidDeviceId 0xFF#8)
      else match firstParamError policy ps with
        | some e => .error e
        | none =>
          if 253 < (fromSlice ps).length then .error .frameTooLong
          else .ok ⟨addr, .instruction code, ps,
            checksum addr (wireLength (fromSlice ps)) (opcode code) (fromSlice ps)⟩ := by
  unfold mkInstruction
  cases h : addressOf addr with
  | none => rw [addressOf_none.mp h]; rfl
  | some d =>
    obtain ⟨hr, hne⟩ := resolve_addressOf h
    rw [if_neg hne, checkParams_eq]
    cases firstParamError policy ps <;> simp [hr]

/-- GENERATE, its checks in order (R130). -/
theorem generate_eq (p : Packet) :
    generate p = match p.operation with
      | .status _ => .error .notAnInstruction
      | .instruction code =>
        if p.deviceAddress = 0xFF#8 then .error (.invalidDeviceId 0xFF#8)
        else match firstParamError .reject p.parameters with
          | some e => .error e
          | none =>
            if 253 < (fromSlice p.parameters).length then .error .frameTooLong
            else .ok (frameBytes p.deviceAddress (opcode code) (fromSlice p.parameters)) := by
  unfold generate
  cases p.operation with
  | status _ => rfl
  | instruction code =>
    simp only
    cases h : addressOf p.deviceAddress with
    | none => rw [addressOf_none.mp h]; rfl
    | some d =>
      obtain ⟨hr, hne⟩ := resolve_addressOf h
      rw [if_neg hne, checkParams_eq]
      cases firstParamError .reject p.parameters <;> simp [hr]

/-- What `mk_instruction` returns, and the checks it has passed (R122). -/
theorem mkInstruction_ok {policy : ParamWidthPolicy} {addr : Byte} {code : InstructionCode} {ps : List Parameter}
    {p : Packet} (h : mkInstruction policy addr code ps = .ok p) :
    addr ≠ 0xFF#8 ∧ firstParamError policy ps = none ∧ (fromSlice ps).length ≤ 253
      ∧ p = ⟨addr, .instruction code, ps, checksum addr (wireLength (fromSlice ps)) (opcode code) (fromSlice ps)⟩ := by
  rw [mkInstruction_eq] at h
  by_cases h1 : addr = 0xFF#8
  · simp [h1] at h
  rw [if_neg h1] at h
  cases h2 : firstParamError policy ps with
  | some e => simp [h2] at h
  | none =>
    simp only [h2] at h
    split_ifs at h with h3
    cases h
    exact ⟨h1, rfl, by omega, rfl⟩

/-- What `mk_instruction` returns is serialized to the frame of its fields, when R102's own checks pass too (R122, R130). -/
theorem generate_of_mkInstruction {policy : ParamWidthPolicy} {addr : Byte} {code : InstructionCode} {ps : List Parameter}
    {p : Packet} (hw : firstParamError .reject ps = none) (h : mkInstruction policy addr code ps = .ok p) :
    generate p = .ok (frameBytes addr (opcode code) (fromSlice ps)) := by
  obtain ⟨h1, -, h3, rfl⟩ := mkInstruction_ok h
  simp only [generate_eq, if_neg h1, hw]
  rw [if_neg (by omega)]

/-- A frame in its parts is checksum-valid when its last byte is R120's checksum of the others. -/
theorem checksumValid_parts (h0 h1 id len op : Byte) (pb : List Byte) (ck : Byte) :
    checksumValid (h0 :: h1 :: id :: len :: op :: (pb ++ [ck])) = (ck == checksum id len op pb) := by
  cases pb with
  | nil => simp [checksumValid]
  | cons x l =>
    change ((x :: l ++ [ck]).getLast? == some (checksum id len op (x :: l ++ [ck]).dropLast)) = _
    rw [List.getLast?_concat, List.dropLast_concat]
    rfl

theorem checksumValid_frameBytes (id op : Byte) (pb : List Byte) : checksumValid (frameBytes id op pb) = true := by
  simp only [frameBytes, List.cons_append, List.nil_append, checksumValid_parts, beq_self_eq_true]

@[simp] theorem frameBytes_getLast? (id op : Byte) (pb : List Byte) :
    (frameBytes id op pb).getLast? = some (checksum id (wireLength pb) op pb) := by
  rw [frameBytes, List.getLast?_concat]

/-- A frame of a device address, a known opcode and at most 253 parameter bytes is an instruction frame (R70, R72). -/
theorem instructionFrame_frameBytes {id : Byte} (c : InstructionCode) {pb : List Byte} (h1 : id ≠ 0xFF#8)
    (h : pb.length ≤ 253) : instructionFrame (frameBytes id (opcode c) pb) = true := by
  simp only [instructionFrame, checksumValid_frameBytes, frameBytes_length]
  simp [frameBytes, h1, wireLength, h]

/-- A frame GENERATE returns, and the checks its packet has passed (R130). -/
theorem generate_ok {p : Packet} {f : List Byte} (h : generate p = .ok f) :
    ∃ code, p.operation = .instruction code ∧ p.deviceAddress ≠ 0xFF#8
      ∧ firstParamError .reject p.parameters = none ∧ (fromSlice p.parameters).length ≤ 253
      ∧ f = frameBytes p.deviceAddress (opcode code) (fromSlice p.parameters) := by
  rw [generate_eq] at h
  split at h
  · cases h
  · split at h
    · cases h
    · split at h
      · cases h
      · split at h
        · cases h
        · cases h
          exact ⟨_, ‹_›, ‹_›, ‹_›, by omega, rfl⟩

/-- What GENERATE writes is an instruction frame (R56, R131). -/
theorem instructionFrame_of_generate {p : Packet} {f : List Byte} (h : generate p = .ok f) :
    instructionFrame f = true := by
  obtain ⟨code, -, h2, -, h4, rfl⟩ := generate_ok h
  exact instructionFrame_frameBytes code h2 h4

/-- The bytes of a signed value are those of its two's-complement form (R103). -/
theorem toInt_emod (v : Word64) (n : Nat) (h : n ≤ 8) : v.toInt % 256 ^ n = (v.toNat % 256 ^ n : Nat) := by
  have hd : (256 : Int) ^ n ∣ 2 ^ 64 := by
    rw [show (2 : Int) ^ 64 = 256 ^ 8 by norm_num]; exact pow_dvd_pow _ h
  rw [BitVec.toInt_eq_toNat_cond]
  push_cast
  split_ifs
  · rfl
  · have h0 : (18446744073709551616 : Int) % 256 ^ n = 0 := Int.emod_eq_zero_of_dvd (by norm_num at hd; exact hd)
    rw [Int.sub_emod, h0]; simp

/-- The sum of R120 as a sum over the list. -/
theorem byteSum_eq (l : List Byte) : byteSum l = (l.map BitVec.toNat).sum := by
  induction l with
  | nil => rfl
  | cons a l ih => simp [ih]

/-- PARAM_UNSIGNED and PARAM_SIGNED: the check's error, else the Parameter (R100, R101). -/
theorem construct_answers (s : State) (p : Parameter) (i : Instr)
    (hi : exec i s = .next (s.finish (constructParam s.config.paramWidthPolicy p))) :
    Answers i s (match paramError s.config.paramWidthPolicy p with | some e => .error e | none => .ok (.parameter p)) := by
  rw [Answers, hi, constructParam, checkParam_eq]
  cases paramError s.config.paramWidthPolicy p <;> rfl

end Sys2Proof.Machine
end

