-- ==== Sys2Proof/Laws/Codec.lean ====
section
/-! SUPPORT. The laws of PARSE (41_packet_codec.md R140) on a frame in its parts, and the errors each shared procedure can
raise (60_exceptions.md R222). -/

namespace Sys2Proof.Machine

/-- A buffer of fewer than 6 bytes fails the length steps (R140 step 2). -/
theorem validateLength_short (ctx : ReplyContext) (buf : List Byte) (h : buf.length < 6) : validateLength ctx buf = .error .invalidLength := by
  unfold validateLength
  split
  · simp at h; omega
  · rfl

/-- The length steps on a buffer in its parts (R140 steps 2 to 6). -/
theorem validateLength_parts (ctx : ReplyContext) (a b id len err : Byte) (pb : List Byte) (ck : Byte) :
    validateLength ctx (a :: b :: id :: len :: err :: (pb ++ [ck])) =
      if contextLengthOk ctx (pb.length + 6) = false then .error .invalidLength
      else if len.toNat ≠ pb.length + 2 then .error .invalidLength
      else .ok ⟨id, len, err, pb, ck⟩ := by
  obtain ⟨p0, rest, h⟩ : ∃ p0 rest, pb ++ [ck] = p0 :: rest := by cases pb <;> simp
  rw [h]
  simp only [validateLength]
  have hl : rest.length = pb.length := by have := congrArg List.length h; simp at this; omega
  have h1 : (p0 :: rest).dropLast = pb := by rw [← h]; simp
  have h2 : (p0 :: rest).getLast (by simp) = ck := by
    have := List.getLast_concat (a := ck) (l := pb) ; simp only [h] at this; exact this
  simp only [List.length_cons, hl, h1, h2]
  have : (len.toNat + 4 ≠ pb.length + 1 + 1 + 1 + 1 + 1 + 1) ↔ len.toNat ≠ pb.length + 2 := by omega
  simp only [this]

/-- PARSE of a frame whose length byte and checksum are its own, in a context that accepts its size (R140). -/
theorem parse_frame (c n id op : Byte) (pb : List Byte) (ctx : InstructionCode) (hc : codeOf c = some ctx) (hl : pb.length ≤ 253)
    (hp : ctx = .ping → pb.length = 0) (hr : ctx = .read → 1 ≤ n.toNat ∧ n.toNat ≤ 4 ∧ pb.length = n.toNat) :
    parse (frameBytes id op pb) c n = .ok (statusPacket ⟨ctx, n⟩ ⟨id, wireLength pb, op, pb, checksum id (wireLength pb) op pb⟩) := by
  unfold parse parseContext ctxOf
  simp only [hc]
  rw [if_neg (by rintro ⟨h1, h2⟩; exact h2 ⟨(hr h1).1, (hr h1).2.1⟩)]
  simp only [parseIn]
  have : hasHeader (frameBytes id op pb) = true := rfl
  rw [if_neg (by simp [this])]
  rw [show frameBytes id op pb = 0xFF#8 :: 0xFF#8 :: id :: wireLength pb :: op :: (pb ++ [checksum id (wireLength pb) op pb]) from rfl, validateLength_parts]
  have : contextLengthOk ⟨ctx, n⟩ (pb.length + 6) = true := by
    cases ctx <;> simp_all [contextLengthOk, Nat.add_comm]
  rw [if_neg (by simp [this]), if_neg (by simp [wireLength_toNat hl])]
  simp [checksumMatches]

/-- The reply's Parameters give its parameter bytes back (R80, R140 step 7). -/
theorem fromSlice_reply (ctx : InstructionCode) (n : Byte) (pb : List Byte) (hr : ctx = .read → 1 ≤ n.toNat ∧ n.toNat ≤ 4 ∧ pb.length = n.toNat) :
    fromSlice (replyParams ⟨ctx, n⟩ pb) = pb := by
  cases ctx <;> simp [replyParams]
  obtain ⟨h1, h2, h3⟩ := hr rfl
  rw [← h3]; exact asBytes_unLE _ (by omega)

/-- The errors of PARSE (R140, R222). -/
theorem parse_error {buf : List Byte} {c n : Byte} {e : CmdError} (h : parse buf c n = .error e) :
    (e = .unknownInstruction c ∧ codeOf c = none)
    ∨ (e = .unsupportedReadLength ∧ codeOf c = some .read ∧ ¬ readLengthOk n)
    ∨ e = .invalidHeader ∨ e = .invalidLength ∨ e = .invalidChecksum := by
  unfold parse parseContext ctxOf at h
  cases hc : codeOf c with
  | none => simp only [hc] at h; cases h; exact .inl ⟨rfl, rfl⟩
  | some code =>
    simp only [hc] at h
    by_cases hr : code = .read ∧ ¬ readLengthOk n
    · rw [if_pos hr] at h; cases h; exact .inr (.inl ⟨rfl, by rw [hr.1], hr.2⟩)
    · rw [if_neg hr] at h
      refine .inr (.inr ?_)
      simp only [parseIn] at h
      split at h
      · cases h; exact .inl rfl
      · cases hv : validateLength ⟨code, n⟩ buf with
        | error e' =>
          simp only [hv] at h; cases h
          unfold validateLength at hv
          split at hv
          · split at hv
            · cases hv; exact .inr (.inl rfl)
            · split at hv
              · cases hv; exact .inr (.inl rfl)
              · cases hv
          · cases hv; exact .inr (.inl rfl)
        | ok f =>
          simp only [hv] at h
          split at h
          · cases h; exact .inr (.inr rfl)
          · cases h

/-- The errors of `check_param` (R102). -/
theorem paramError_cases {policy : ParamWidthPolicy} {p : Parameter} {e : CmdError} (h : paramError policy p = some e) :
    e = .invalidByteLength ∨ e = .parameterTooWide := by
  unfold paramError at h
  split_ifs at h <;> cases h <;> simp

/-- The errors of the checks of a list (R104). -/
theorem firstParamError_cases {policy : ParamWidthPolicy} {ps : List Parameter} {e : CmdError}
    (h : firstParamError policy ps = some e) : e = .invalidByteLength ∨ e = .parameterTooWide := by
  obtain ⟨p, -, hp⟩ := List.exists_of_findSome?_eq_some h
  exact paramError_cases hp

/-- The errors of `mk_instruction` (R122). -/
theorem mkInstruction_error {policy : ParamWidthPolicy} {addr : Byte} {code : InstructionCode} {ps : List Parameter}
    {e : CmdError} (h : mkInstruction policy addr code ps = .error e) :
    (e = .invalidDeviceId 0xFF#8 ∧ addr = 0xFF#8) ∨ firstParamError policy ps = some e
      ∨ (e = .frameTooLong ∧ firstParamError policy ps = none ∧ 253 < (fromSlice ps).length) := by
  rw [mkInstruction_eq] at h
  split at h
  · cases h; exact .inl ⟨rfl, ‹_›⟩
  · split at h
    · cases h; exact .inr (.inl ‹_›)
    · split at h
      · cases h; exact .inr (.inr ⟨rfl, ‹_›, ‹_›⟩)
      · cases h

/-- The errors of GENERATE (R130). -/
theorem generate_error {p : Packet} {e : CmdError} (h : generate p = .error e) :
    e = .notAnInstruction ∨ e = .invalidDeviceId 0xFF#8 ∨ e = .invalidByteLength ∨ e = .parameterTooWide
      ∨ e = .frameTooLong := by
  rw [generate_eq] at h
  split at h
  · cases h; simp
  · split at h
    · cases h; simp
    · split at h
      · cases h
        rcases firstParamError_cases ‹_› with rfl | rfl <;> simp
      · split at h
        · cases h; simp
        · cases h

/-- The errors of EXPECTED_REPLY_LENGTH (R145). -/
theorem expectedReplyLength_error {t : ReplyLenTable} {c n : Byte} {e : CmdError}
    (h : expectedReplyLength t c n = .error e) : e = .unknownInstruction c ∨ e = .unsupportedReadLength := by
  unfold expectedReplyLength ctxOf at h
  cases hc : codeOf c with
  | none => simp only [hc] at h; cases h; exact .inl rfl
  | some code =>
    simp only [hc] at h
    unfold replyLengthOf at h
    split at h
    · cases h
    · split at h
      · cases h; exact .inr rfl
      · cases h
    all_goals cases h

end Sys2Proof.Machine
end

