-- ==== Sys2Proof/Laws/Decode.lean ====
section
/-! SUPPORT. The laws of the readers of the command record: each reads back what its writer wrote, and reads nothing
else. -/

namespace Sys2Proof

open Sys2Proof.Machine

/-- A reader reads back what a writer wrote, and the bytes it reads are the ones the writer writes. -/
structure Matches {α : Type} (r : Reader α) (w : α → List Byte) : Prop where
  read : ∀ a rest, r (w a ++ rest) = some (a, rest)
  write : ∀ b a rest, r b = some (a, rest) → b = w a ++ rest

theorem readThen_eq_some {α β : Type} {r : Reader α} {f : α → Reader β} {b : List Byte} {x : β × List Byte} :
    readThen r f b = some x ↔ ∃ a rest, r b = some (a, rest) ∧ f a rest = some x := by
  unfold readThen
  cases h : r b with
  | none => simp
  | some p => cases p; simp

theorem Matches.readThen {α β : Type} {r : Reader α} {w : α → List Byte} (h : Matches r w) (f : α → Reader β) (a : α)
    (rest : List Byte) : readThen r f (w a ++ rest) = f a rest := by
  simp [Sys2Proof.readThen, h.read]

theorem matches_u8 : Matches readU8 (fun b => [b]) where
  read _ _ := rfl
  write b a rest h := by
    cases b with
    | nil => cases h
    | cons x xs => simp [readU8] at h; simp [h]

@[simp] theorem readThen_u8_cons {β : Type} (f : Byte → Reader β) (b : Byte) (rest : List Byte) :
    readThen readU8 f (b :: rest) = f b rest := rfl

@[simp] theorem readNothing_apply {α : Type} (a : α) (b : List Byte) : readNothing a b = some (a, b) := rfl

theorem matches_u64 : Matches readU64 writeU64 where
  read v rest := by
    have hl : (writeU64 v).length = 8 := leBytes_length _ _
    have ht : (writeU64 v ++ rest).take 8 = writeU64 v := by rw [List.take_append_of_le_length (by omega), List.take_of_length_le (by omega)]
    have hd : (writeU64 v ++ rest).drop 8 = rest := by rw [List.drop_append_of_le_length (by omega), List.drop_of_length_le (by omega)]; rfl
    have hv : BitVec.ofNat 64 (unLE (writeU64 v)) = v := by
      apply BitVec.eq_of_toNat_eq
      rw [writeU64, unLE_leBytes, BitVec.toNat_ofNat]
      have := v.isLt
      omega
    simp only [readU64, ht, hd, hv]
    rw [if_neg (by simp; omega)]
  write b a rest h := by
    unfold readU64 at h
    split at h
    · cases h
    · cases h
      have hl : (b.take 8).length = 8 := by simp; omega
      have := leBytes_unLE (b.take 8) (by omega)
      rw [hl] at this
      rw [writeU64, this, List.take_append_drop]

theorem matches_member {α : Type} (l : List α) (w : α → Byte) (h1 : ∀ a, l[(w a).toNat]? = some a)
    (h2 : ∀ (b : Byte) a, l[b.toNat]? = some a → b = w a) : Matches (readMember l) (fun a => [w a]) where
  read a rest := by simp [readMember, h1]
  write b a rest h := by
    cases b with
    | nil => cases h
    | cons x xs =>
      simp only [readMember, Option.map_eq_some_iff] at h
      obtain ⟨y, hy, h⟩ := h
      cases h
      simp [← h2 x a hy]

theorem matches_kind : Matches (readMember [ParamKind.unsigned, .signed]) (fun k => [writeKind k]) :=
  matches_member _ _ (by intro a; cases a <;> rfl) (by decide)

theorem matches_code : Matches (readMember allCodes) (fun c => [writeCode c]) :=
  matches_member _ _ (by intro a; cases a <;> rfl) (by decide)

theorem matches_flag : Matches (readMember allFlags) writeFlag :=
  matches_member allFlags (fun f => BitVec.ofNat 8 (flagIndex f)) (by intro a; cases a <;> rfl) (by decide)

theorem readElements_write {α : Type} {r : Reader α} {w : α → List Byte} (h : Matches r w) (as : List α)
    (rest : List Byte) (fuel : Nat) (hf : as.length < fuel) :
    readElements r fuel (writeList w as ++ rest) = some (as, rest) := by
  induction as generalizing fuel with
  | nil =>
    obtain ⟨fuel, rfl⟩ : ∃ k, fuel = k + 1 := ⟨fuel - 1, by simp at hf; omega⟩
    rfl
  | cons a as ih =>
    obtain ⟨fuel, rfl⟩ : ∃ k, fuel = k + 1 := ⟨fuel - 1, by simp at hf; omega⟩
    have := ih fuel (by simpa using hf)
    simp [writeList, readElements, h.read, this]

theorem readElements_inv {α : Type} {r : Reader α} {w : α → List Byte} (h : Matches r w) (fuel : Nat) (b : List Byte)
    (as : List α) (rest : List Byte) (hr : readElements r fuel b = some (as, rest)) : b = writeList w as ++ rest := by
  induction fuel generalizing b as with
  | zero => cases hr
  | succ fuel ih =>
    cases b with
    | nil => cases hr
    | cons m b =>
      simp only [readElements] at hr
      split at hr
      · rename_i hm; cases hr; simp [writeList, hm]
      · split at hr
        · rename_i hm
          split at hr
          · cases hr
          · rename_i a rest' h1
            split at hr
            · cases hr
            · rename_i as' rest'' h2
              cases hr
              rw [h.write _ _ _ h1, ih _ _ h2, hm]
              simp [writeList]
        · cases hr

theorem writeList_length {α : Type} (w : α → List Byte) (as : List α) : as.length < (writeList w as).length := by
  induction as with
  | nil => simp [writeList]
  | cons a as ih => simp [writeList]; omega

theorem matches_list {α : Type} {r : Reader α} {w : α → List Byte} (h : Matches r w) :
    Matches (readList r) (writeList w) where
  read as rest := readElements_write h as rest _ (by have := writeList_length w as; simp; omega)
  write b as rest hr := readElements_inv h _ b as rest hr

theorem matches_parameter : Matches readParameter writeParameter where
  read p rest := by
    have h1 := matches_kind.readThen (β := Parameter)
    simp only [readParameter, writeParameter]
    rw [show writeKind p.kind :: (writeU64 p.value ++ [p.byteLength]) ++ rest = [writeKind p.kind] ++ (writeU64 p.value ++ (p.byteLength :: rest)) by simp]
    rw [h1, matches_u64.readThen]
    rfl
  write b p rest h := by
    simp only [readParameter, readThen_eq_some] at h
    obtain ⟨k, r1, h1, v, r2, h2, n, r3, h3, h4⟩ := h
    cases h4
    rw [matches_kind.write _ _ _ h1, matches_u64.write _ _ _ h2, matches_u8.write _ _ _ h3]
    simp [writeParameter]

theorem flagByte_statusDecode (b : Byte) (h : b.getLsbD 0 = false) : orBits 0x00#8 (flagList (statusDecode b)) = b := by
  revert b; decide

theorem statusDecode_flagByte (f : FlagSet) :
    statusDecode (orBits 0x00#8 (flagList f)) = f ∧ (orBits 0x00#8 (flagList f)).getLsbD 0 = false := by
  rcases f with ⟨a, b, c, d, e, f, g⟩
  revert a b c d e f g; decide

theorem matches_flagSet : Matches readFlagSet (fun f => [orBits 0x00#8 (flagList f)]) where
  read f rest := by
    obtain ⟨h1, h2⟩ := statusDecode_flagByte f
    simp only [List.cons_append, List.nil_append, readFlagSet, h1, h2, Bool.false_eq_true, if_false]
  write b f rest h := by
    cases b with
    | nil => cases h
    | cons x xs =>
      simp only [readFlagSet] at h
      split at h
      · cases h
      · cases h
        rw [flagByte_statusDecode x (by rw [← Bool.not_eq_true]; assumption)]; rfl

theorem matches_isStatus : Matches (readMember [false, true]) (fun b => [if b then 0x01#8 else 0x00#8]) :=
  matches_member _ _ (by decide) (by decide)

theorem matches_operation : Matches readOperation writeOperation where
  read o rest := by
    cases o with
    | instruction c =>
      have := matches_isStatus.readThen (β := Operation) (f := fun isStatus =>
        if isStatus then readThen readFlagSet fun f => readNothing (.status f)
        else readThen (readMember allCodes) fun c => readNothing (.instruction c)) false (writeCode c :: rest)
      simp only [readOperation, writeOperation]
      exact this.trans (matches_code.readThen _ c rest)
    | status f =>
      have := matches_isStatus.readThen (β := Operation) (f := fun isStatus =>
        if isStatus then readThen readFlagSet fun f => readNothing (.status f)
        else readThen (readMember allCodes) fun c => readNothing (.instruction c)) true (orBits 0x00#8 (flagList f) :: rest)
      simp only [readOperation, writeOperation]
      exact this.trans (matches_flagSet.readThen _ f rest)
  write b o rest h := by
    simp only [readOperation, readThen_eq_some] at h
    obtain ⟨st, r1, h1, h2⟩ := h
    rw [matches_isStatus.write _ _ _ h1]
    cases st
    · simp only [Bool.false_eq_true, if_false, readThen_eq_some] at h2
      obtain ⟨c, r2, h2, h3⟩ := h2
      cases h3
      rw [matches_code.write _ _ _ h2]; rfl
    · simp only [if_true, readThen_eq_some] at h2
      obtain ⟨c, r2, h2, h3⟩ := h2
      cases h3
      rw [matches_flagSet.write _ _ _ h2]; rfl

theorem matches_packet : Matches readPacket writePacket where
  read p rest := by
    simp only [readPacket, writePacket, List.cons_append, readThen_u8_cons, List.append_assoc]
    rw [matches_operation.readThen, (matches_list matches_parameter).readThen]
    rfl
  write b p rest h := by
    simp only [readPacket, readThen_eq_some] at h
    obtain ⟨a, r1, h1, o, r2, h2, ps, r3, h3, c, r4, h4, h5⟩ := h
    cases h5
    rw [matches_u8.write _ _ _ h1, matches_operation.write _ _ _ h2, (matches_list matches_parameter).write _ _ _ h3,
      matches_u8.write _ _ _ h4]
    simp [writePacket]

theorem matches_syncEntry : Matches readSyncEntry writeSyncEntry where
  read e rest := by
    simp only [readSyncEntry, writeSyncEntry, List.cons_append, readThen_u8_cons]
    rw [matches_parameter.readThen]
    rfl
  write b e rest h := by
    simp only [readSyncEntry, readThen_eq_some] at h
    obtain ⟨a, r1, h1, o, r2, h2, ps, r3, h3, h5⟩ := h
    cases h5
    rw [matches_u8.write _ _ _ h1, matches_u8.write _ _ _ h2, matches_parameter.write _ _ _ h3]
    simp [writeSyncEntry]

theorem matches_bulkEntry : Matches readBulkEntry writeBulkEntry where
  read e rest := rfl
  write b e rest h := by
    simp only [readBulkEntry, readThen_eq_some] at h
    obtain ⟨a, r1, h1, o, r2, h2, ps, r3, h3, h5⟩ := h
    cases h5
    rw [matches_u8.write _ _ _ h1, matches_u8.write _ _ _ h2, matches_u8.write _ _ _ h3]
    simp [writeBulkEntry]

/-! ### The parameter blocks of the wire -/

theorem splitGroups_read (n : Nat) (gs : List SyncGroup) (h : ∀ g ∈ gs, g.data.length = n) (fuel : Nat)
    (hf : gs.length ≤ fuel) : splitGroups n fuel (gs.flatMap groupBytes) = some gs := by
  induction gs generalizing fuel with
  | nil => cases fuel <;> rfl
  | cons g gs ih =>
    obtain ⟨fuel, rfl⟩ : ∃ k, fuel = k + 1 := ⟨fuel - 1, by simp at hf; omega⟩
    have hg : g.data.length = n := h g (by simp)
    have ih := ih (fun g hg => h g (by simp [hg])) fuel (by simpa using hf)
    simp only [List.flatMap_cons, groupBytes, List.cons_append, splitGroups]
    rw [if_neg (by simp [hg]), List.drop_append_of_le_length (by omega), List.drop_of_length_le (by omega),
      List.take_append_of_le_length (by omega), List.take_of_length_le (by omega)]
    simpa using ih

theorem splitGroups_write {n fuel : Nat} {b : List Byte} {gs : List SyncGroup} (h : splitGroups n fuel b = some gs) :
    b = gs.flatMap groupBytes ∧ ∀ g ∈ gs, g.data.length = n := by
  induction fuel generalizing b gs with
  | zero => cases b <;> simp [splitGroups] at h; subst h; simp
  | succ fuel ih =>
    cases b with
    | nil => simp [splitGroups] at h; subst h; simp
    | cons id rest =>
      simp only [splitGroups] at h
      split at h
      · cases h
      · simp only [Option.map_eq_some_iff] at h
        obtain ⟨gs', h1, rfl⟩ := h
        obtain ⟨h2, h3⟩ := ih h1
        refine ⟨?_, ?_⟩
        · simp only [List.flatMap_cons, groupBytes, ← h2, List.cons_append, List.take_append_drop]
        · intro g hg
          rcases List.mem_cons.mp hg with rfl | hg
          · simp; omega
          · exact h3 g hg

theorem splitTriples_read (es : List BulkReadEntry) : splitTriples (es.flatMap entryBytes) = some es := by
  induction es with
  | nil => rfl
  | cons e es ih => simp [entryBytes, splitTriples, ih]

theorem splitTriples_write {b : List Byte} {es : List BulkReadEntry} (h : splitTriples b = some es) :
    b = es.flatMap entryBytes := by
  induction b using splitTriples.induct generalizing es with
  | case1 => simp [splitTriples] at h; subst h; rfl
  | case2 len id reg rest ih =>
    simp only [splitTriples, Option.map_eq_some_iff] at h
    obtain ⟨es', h1, rfl⟩ := h
    simp [entryBytes, ← ih h1]
  | case3 b h1 h2 => simp only [splitTriples] at h; cases h

/-- What a well-formed SyncWrite term is (R77, R180). -/
theorem validGroups_parts {first : Byte} {gs : List SyncGroup} (h : validGroups first gs = true) :
    gs ≠ [] ∧ (∀ g ∈ gs, g.deviceId.toNat ≤ 253) ∧ strictlyAscending (gs.map SyncGroup.deviceId) = true
      ∧ 1 ≤ groupSize gs ∧ (∀ g ∈ gs, g.data.length = groupSize gs) ∧ runFits first (groupSize gs) = true
      ∧ 2 + gs.length * (1 + groupSize gs) ≤ 253 := by
  simp [validGroups, concreteId] at h
  obtain ⟨⟨⟨⟨⟨⟨h1, h2⟩, h3⟩, h4⟩, h5⟩, h6⟩, h7⟩ := h
  exact ⟨h1, h2, h3, h4, h5, h6, h7⟩

theorem flatMap_groupBytes_length (n : Nat) (gs : List SyncGroup) (h : ∀ g ∈ gs, g.data.length = n) :
    (gs.flatMap groupBytes).length = gs.length * (1 + n) := by
  induction gs with
  | nil => simp
  | cons g gs ih =>
    simp only [List.flatMap_cons, List.length_append, ih (fun g hg => h g (by simp [hg])), groupBytes, List.length_cons, h g (by simp)]
    ring

theorem wireInstr_sync (f n : Byte) (body : List Byte) : wireInstr broadcastId .syncWrite (f :: n :: body) =
    (splitGroups n.toNat body.length body).map (.syncWrite f) := rfl

theorem wireInstr_bulk (body : List Byte) : wireInstr broadcastId .bulkRead (0x00#8 :: body) =
    (splitTriples body).map .bulkRead := rfl

/-- A frame in its parts is decoded by its fields. -/
theorem decodeFrame_parts (h0 h1 id len op : Byte) (pb : List Byte) (ck : Byte) :
    decodeFrame (h0 :: h1 :: id :: len :: op :: (pb ++ [ck])) =
      if h0 ≠ headerByte ∨ h1 ≠ headerByte then .error .badHeader
      else if len.toNat ≠ pb.length + 2 then .error .badLength
      else if ck ≠ checksum id len op pb then .error .badChecksum
      else
        match codeOf op with
        | none => .error (.unknownOpcode op)
        | some code =>
          match wireInstr id code pb with
          | none => .error (.badParameters op)
          | some i => if i.wellFormed then .ok i else .error (.badParameters op) := by
  obtain ⟨p0, rest, h⟩ : ∃ p0 rest, pb ++ [ck] = p0 :: rest := by cases pb <;> simp
  have h1 : (p0 :: rest).dropLast = pb := by rw [← h]; simp
  have h2 : (p0 :: rest).getLast? = some ck := by rw [← h]; simp
  rw [h]
  simp only [decodeFrame, h1, h2, ne_eq, Option.some.injEq]
  all_goals split_ifs <;> rfl

end Sys2Proof
end

