-- ==== Sys2Proof/Laws/MultiDevice.lean ====
section
/-! SUPPORT. The laws of the multi-device aggregator (43_multi_device.md R180, R190). -/

namespace Sys2Proof.Machine

/-- The id reported is 0xFE or 0xFF (R58). -/
theorem firstNonConcrete_some {ds : List Byte} {d : Byte} (h : firstNonConcrete ds = some d) :
    d = 0xFE#8 ∨ d = 0xFF#8 := by
  induction ds with
  | nil => cases h
  | cons x xs ih =>
    simp only [firstNonConcrete] at h
    split at h
    · cases h
      have hx := d.isLt
      rcases (by omega : d.toNat = 254 ∨ d.toNat = 255) with h | h
      · exact .inl (BitVec.eq_of_toNat_eq h)
      · exact .inr (BitVec.eq_of_toNat_eq h)
    · exact ih h

/-- No id is reported when every id is concrete (R20). -/
theorem firstNonConcrete_none {ds : List Byte} : firstNonConcrete ds = none ↔ ∀ d ∈ ds, d.toNat ≤ 253 := by
  induction ds with
  | nil => simp [firstNonConcrete]
  | cons x xs ih =>
    simp only [firstNonConcrete]
    split
    · simp; omega
    · simp [ih]; omega

/-- The id reported is one of the entries' (R190 check 2). -/
theorem firstRepeat_some {seen ds : List Byte} {d : Byte} (h : firstRepeat seen ds = some d) : d ∈ ds := by
  induction ds generalizing seen with
  | nil => cases h
  | cons x xs ih =>
    simp only [firstRepeat] at h
    split at h
    · cases h; simp
    · exact List.mem_cons_of_mem _ (ih h)

/-- The errors of BUILD_SYNCWRITE (R180). -/
theorem buildSyncWrite_error {c : Config} {es : List SyncWriteEntry} {e : CmdError} (h : buildSyncWrite c es = .error e) :
    e = .noDynamixels ∨ e = .inconsistentSize ∨ e = .inconsistentLength ∨ e = .inconsistentAddresses
      ∨ e = .invalidDeviceId 0xFE#8 ∨ e = .invalidDeviceId 0xFF#8 ∨ e = .invalidByteLength ∨ e = .parameterTooWide
      ∨ e = .frameTooLong := by
  cases es with
  | nil => cases h; simp
  | cons e0 es =>
    simp only [buildSyncWrite] at h
    split at h
    · cases h
      rcases firstNonConcrete_some ‹_› with rfl | rfl <;> simp
    split at h
    · rename_i he
      cases h
      rw [checkParams_eq] at he
      split at he
      · cases he; rcases firstParamError_cases ‹_› with rfl | rfl <;> simp
      · cases he
    iterate 4
      split at h
      · cases h; simp
    rcases mkInstruction_error h with ⟨rfl, -⟩ | h | ⟨rfl, -⟩
    · simp
    · rcases firstParamError_cases h with rfl | rfl <;> simp
    · simp

/-- The errors of BUILD_BULKREAD (R190). -/
theorem buildBulkRead_error {c : Config} {es : List BulkReadEntry} {e : CmdError} (h : buildBulkRead c es = .error e) :
    e = .noDynamixels ∨ (∃ d, e = .duplicateDeviceId d ∧ d ∈ es.map BulkReadEntry.deviceId)
      ∨ e = .invalidDeviceId 0xFE#8 ∨ e = .invalidDeviceId 0xFF#8 ∨ e = .frameTooLong := by
  cases es with
  | nil => cases h; simp
  | cons e0 es =>
    simp only [buildBulkRead] at h
    split at h
    · cases h
      exact .inr (.inl ⟨_, rfl, firstRepeat_some ‹_›⟩)
    split at h
    · cases h
      rcases firstNonConcrete_some ‹_› with rfl | rfl <;> simp
    split at h
    · cases h; simp
    rcases mkInstruction_error h with ⟨rfl, -⟩ | h | ⟨rfl, -⟩
    · simp
    · obtain ⟨p, hp, he⟩ := List.exists_of_findSome?_eq_some h
      have : paramError c.paramWidthPolicy p = none := by
        rw [List.mem_cons, List.mem_flatMap] at hp
        rcases hp with rfl | ⟨x, -, hp⟩
        · exact unsignedParam_one_ok 0 (by omega) _
        · simp only [bulkParams, List.mem_cons, List.not_mem_nil, or_false] at hp
          rcases hp with rfl | rfl | rfl <;> exact byteParam_ok _ _
      rw [this] at he; cases he
    · simp

/-- No id is reported when the ids differ (R190 check 2). -/
theorem firstRepeat_none {seen ds : List Byte} : firstRepeat seen ds = none ↔ ds.Nodup ∧ ∀ d ∈ ds, d ∉ seen := by
  induction ds generalizing seen with
  | nil => simp [firstRepeat]
  | cons x xs ih =>
    simp only [firstRepeat]
    split
    · simp_all
    · simp only [ih, List.nodup_cons, List.mem_cons, List.contains_iff_mem] at *
      constructor
      · rintro ⟨h1, h2⟩
        refine ⟨⟨fun h => h2 x h (.inl rfl), h1⟩, ?_⟩
        rintro d (rfl | hd)
        · assumption
        · exact fun h => h2 d hd (.inr h)
      · rintro ⟨⟨h1, h2⟩, h3⟩
        refine ⟨h2, fun d hd => ?_⟩
        rintro (rfl | h)
        · exact h1 hd
        · exact h3 d (.inr hd) h

/-- The first id seen before is reported (R190 check 2). -/
theorem firstRepeat_append {seen before after : List Byte} {d : Byte} (h1 : before.Nodup) (h2 : ∀ x ∈ before, x ∉ seen)
    (h3 : d ∈ before ∨ d ∈ seen) : firstRepeat seen (before ++ d :: after) = some d := by
  induction before generalizing seen with
  | nil =>
    have : d ∈ seen := by simpa using h3
    simp [firstRepeat, this]
  | cons x xs ih =>
    have hx : x ∉ seen := h2 x (by simp)
    simp only [List.cons_append, firstRepeat, List.contains_iff_mem, hx, if_false]
    simp only [List.nodup_cons] at h1
    apply ih h1.2
    · intro y hy h
      rcases List.mem_cons.mp h with rfl | h
      · exact h1.1 hy
      · exact h2 y (by simp [hy]) h
    · rcases h3 with h | h
      · rcases List.mem_cons.mp h with rfl | h
        · simp
        · exact .inl h
      · simp [h]

/-- The first id that is not concrete is reported (R58). -/
theorem firstNonConcrete_append {before after : List Byte} {d : Byte} (h1 : ∀ x ∈ before, x.toNat ≤ 253)
    (h2 : 253 < d.toNat) : firstNonConcrete (before ++ d :: after) = some d := by
  induction before with
  | nil => simp [firstNonConcrete]; omega
  | cons x xs ih =>
    have := h1 x (by simp)
    simp only [List.cons_append, firstNonConcrete]
    rw [if_neg (by omega)]
    exact ih (fun y hy => h1 y (by simp [hy]))

theorem flatMap_bulkParams (es : List BulkReadEntry) :
    unsignedParam 0 1 :: es.flatMap bulkParams
      = (0x00#8 :: es.flatMap fun e => [e.readLength, e.deviceId, e.registerAddress]).map byteParam := by
  simp only [List.map_cons, List.map_flatMap]
  rfl

/-- BUILD_BULKREAD of entries that pass the checks (R190 step 5). -/
theorem buildBulkRead_eq (c : Config) {es : List BulkReadEntry} (h0 : es ≠ [])
    (h1 : (es.map BulkReadEntry.deviceId).Nodup) (h2 : ∀ e ∈ es, e.deviceId.toNat ≤ 253) (h3 : es.length ≤ 84)
    {pb : List Byte} (hpb : pb = 0x00#8 :: es.flatMap fun e => [e.readLength, e.deviceId, e.registerAddress]) :
    buildBulkRead c es = .ok ⟨0xFE#8, .instruction .bulkRead, pb.map byteParam, checksum 0xFE#8 (wireLength pb) 0x92#8 pb⟩
      ∧ pb.length = 1 + 3 * es.length := by
  have hl : pb.length = 1 + 3 * es.length := by subst hpb; simp; omega
  refine ⟨?_, hl⟩
  have hr : firstRepeat [] (es.map BulkReadEntry.deviceId) = none := firstRepeat_none.mpr ⟨h1, by simp⟩
  have hn : firstNonConcrete (es.map BulkReadEntry.deviceId) = none :=
    firstNonConcrete_none.mpr (by simpa using h2)
  obtain ⟨e0, es', rfl⟩ : ∃ e0 es', es = e0 :: es' := by cases es <;> simp_all
  have hf : firstParamError c.paramWidthPolicy (pb.map byteParam) = none := firstParamError_none.mpr (by simp)
  simp only [buildBulkRead, hr, hn, flatMap_bulkParams, ← hpb]
  rw [if_neg (by change ¬ 1 + 3 * (e0 :: es').length > 253; omega), mkInstruction_eq, if_neg (by decide), hf]
  simp only [fromSlice_map_byteParam]
  rw [if_neg (by omega)]
  rfl

/-! ### The sort -/

theorem keyLe_iff (a b : SyncWriteEntry) : keyLe a b = true ↔
    a.deviceId.toNat < b.deviceId.toNat ∨ (a.deviceId = b.deviceId ∧ a.registerAddress.toNat ≤ b.registerAddress.toNat) := by
  simp [keyLe]

theorem keyLe_total (a b : SyncWriteEntry) : keyLe a b = true ∨ keyLe b a = true := by
  simp only [keyLe_iff]
  rcases lt_trichotomy a.deviceId.toNat b.deviceId.toNat with h | h | h
  · exact .inl (.inl h)
  · have h := BitVec.eq_of_toNat_eq h
    rcases Nat.le_total a.registerAddress.toNat b.registerAddress.toNat with h' | h'
    · exact .inl (.inr ⟨h, h'⟩)
    · exact .inr (.inr ⟨h.symm, h'⟩)
  · exact .inr (.inl h)

theorem keyLe_trans {a b c : SyncWriteEntry} (h1 : keyLe a b = true) (h2 : keyLe b c = true) : keyLe a c = true := by
  rw [keyLe_iff] at *
  rcases h1 with h1 | ⟨h1, h1'⟩ <;> rcases h2 with h2 | ⟨h2, h2'⟩
  · exact .inl (by omega)
  · exact .inl (by rw [← h2]; exact h1)
  · exact .inl (by rw [h1]; exact h2)
  · exact .inr ⟨h1.trans h2, by omega⟩

theorem insertEntry_perm (e : SyncWriteEntry) (l : List SyncWriteEntry) : (insertEntry e l).Perm (e :: l) := by
  induction l with
  | nil => rfl
  | cons x xs ih =>
    simp only [insertEntry]
    split
    · rfl
    · exact (ih.cons x).trans (List.Perm.swap e x xs)

/-- The sort keeps the entries (R184). -/
theorem sortEntries_perm (l : List SyncWriteEntry) : (sortEntries l).Perm l := by
  induction l with
  | nil => rfl
  | cons e es ih => exact (insertEntry_perm e _).trans (ih.cons e)

theorem insertEntry_sorted {e : SyncWriteEntry} {l : List SyncWriteEntry} (h : l.Pairwise (keyLe · ·)) :
    (insertEntry e l).Pairwise (keyLe · ·) := by
  induction l with
  | nil => simp [insertEntry]
  | cons x xs ih =>
    rw [List.pairwise_cons] at h
    simp only [insertEntry]
    split
    · rename_i he
      refine List.pairwise_cons.mpr ⟨fun y hy => ?_, List.pairwise_cons.mpr h⟩
      rcases List.mem_cons.mp hy with rfl | hy
      · exact he
      · exact keyLe_trans he (h.1 y hy)
    · rename_i he
      refine List.pairwise_cons.mpr ⟨fun y hy => ?_, ih h.2⟩
      rcases List.mem_cons.mp ((insertEntry_perm e xs).mem_iff.mp hy) with rfl | hy
      · exact (keyLe_total _ _).resolve_left he
      · exact h.1 y hy

/-- The sort is ascending by `(device_id, register_address)` (R184). -/
theorem sortEntries_sorted (l : List SyncWriteEntry) : (sortEntries l).Pairwise (keyLe · ·) := by
  induction l with
  | nil => simp [sortEntries]
  | cons e es ih => exact insertEntry_sorted ih

/-- The key is strictly lower. -/
def keyLt (a b : SyncWriteEntry) : Prop :=
  a.deviceId.toNat < b.deviceId.toNat ∨ (a.deviceId = b.deviceId ∧ a.registerAddress.toNat < b.registerAddress.toNat)

/-- Entries with different keys have one sorted order, whatever order they come in (R184). -/
theorem sortEntries_eq {entries sorted : List SyncWriteEntry} (h : sorted.Pairwise keyLt) (hp : entries.Perm sorted) :
    sortEntries entries = sorted := by
  have hs : sorted.Pairwise (keyLe · ·) := h.imp fun hab => by
    rw [keyLe_iff]; rcases hab with h | ⟨h, h'⟩
    · exact .inl h
    · exact .inr ⟨h, by omega⟩
  refine List.Perm.eq_of_pairwise (le := (keyLe · ·)) ?_ (sortEntries_sorted _) hs ((sortEntries_perm _).trans hp)
  intro a b ha hb h1 h2
  have ha := ((sortEntries_perm _).trans hp).mem_iff.mp ha
  rw [keyLe_iff] at h1 h2
  by_contra hne
  have hk : sorted.Pairwise fun a b => ¬ (a.deviceId.toNat = b.deviceId.toNat ∧ a.registerAddress.toNat = b.registerAddress.toNat) :=
    h.imp fun hab => by
      rcases hab with h | ⟨h, h'⟩
      · omega
      · omega
  have := @List.Pairwise.forall _ _ _ ⟨fun a b h h' => h ⟨h'.1.symm, h'.2.symm⟩⟩ hk _ ha _ hb hne
  rcases h1 with h1 | ⟨h1, h1'⟩ <;> rcases h2 with h2 | ⟨h2, h2'⟩
  · omega
  · rw [h2] at h1; omega
  · rw [h1] at h2; omega
  · exact this ⟨by rw [h1], by omega⟩

/-! ### The devices -/

theorem mem_mergeAdjacent (l : List Byte) (d : Byte) : d ∈ mergeAdjacent l ↔ d ∈ l := by
  induction l using mergeAdjacent.induct with
  | case1 b rest ih => simp [mergeAdjacent, ih]
  | case2 a b rest hab ih => simp [mergeAdjacent, hab, ih]
  | case3 l h => simp only [mergeAdjacent]

/-- Merging an ascending list gives its members once each. -/
theorem mergeAdjacent_nodup {l : List Byte} (h : l.Pairwise fun a b => a.toNat ≤ b.toNat) : (mergeAdjacent l).Nodup := by
  induction l using mergeAdjacent.induct with
  | case1 b rest ih => simp only [mergeAdjacent, if_true]; exact ih (List.pairwise_cons.mp h).2
  | case2 a b rest hab ih =>
    rw [List.pairwise_cons] at h
    simp only [mergeAdjacent, hab, if_false, List.nodup_cons]
    refine ⟨fun hm => ?_, ih h.2⟩
    rw [mem_mergeAdjacent] at hm
    have h1 := h.1 b (by simp)
    rcases List.mem_cons.mp hm with rfl | hm
    · exact hab rfl
    · have := (List.pairwise_cons.mp h.2).1 a hm
      exact hab (BitVec.eq_of_toNat_eq (by omega))
  | case3 l h' =>
    match l, h' with
    | [], _ => simp [mergeAdjacent]
    | [a], _ => simp [mergeAdjacent]
    | a :: b :: rest, h' => exact absurd rfl (h' a b rest)

theorem mem_devicesOf (es : List SyncWriteEntry) (d : Byte) : d ∈ devicesOf es ↔ d ∈ es.map SyncWriteEntry.deviceId := by
  rw [devicesOf, mem_mergeAdjacent]
  exact ((sortEntries_perm es).map _).mem_iff

theorem devicesOf_nodup (es : List SyncWriteEntry) : (devicesOf es).Nodup := by
  apply mergeAdjacent_nodup
  rw [List.pairwise_map]
  refine (sortEntries_sorted es).imp fun h => ?_
  rw [keyLe_iff] at h
  rcases h with h | ⟨h, -⟩
  · omega
  · rw [h]

/-- `devs` has the distinct ids (R180). -/
theorem devicesOf_length (es : List SyncWriteEntry) :
    (devicesOf es).length = (es.map SyncWriteEntry.deviceId).dedup.length :=
  ((List.perm_ext_iff_of_nodup (devicesOf_nodup es) (List.nodup_dedup _)).mpr fun d => by
    rw [mem_devicesOf, List.mem_dedup]).length_eq

/-! ### Addresses -/

theorem addressesFor_perm (d : Byte) (es : List SyncWriteEntry) : (addressesFor d (sortEntries es)).Perm (addressesFor d es) :=
  ((sortEntries_perm es).filter _).map _

theorem addressesFor_sorted (d : Byte) (es : List SyncWriteEntry) : (addressesFor d (sortEntries es)).Pairwise (· ≤ ·) := by
  unfold addressesFor entriesFor
  rw [List.pairwise_map]
  have h := (sortEntries_sorted es).filter fun e => e.deviceId == d
  refine List.Pairwise.imp_of_mem (fun {a b} ha hb hab => ?_) h
  simp only [List.mem_filter, beq_iff_eq] at ha hb
  rw [keyLe_iff] at hab
  rcases hab with h | h
  · rw [ha.2, hb.2] at h; omega
  · exact h.2

theorem addressRun_sorted (a0 bl c : Nat) : (addressRun a0 bl c).Pairwise (· ≤ ·) := by
  unfold addressRun
  rw [List.pairwise_map]
  exact List.pairwise_lt_range.imp fun h => by nlinarith [Nat.mul_le_mul_right bl h.le]

/-- A device's addresses, in any order, are a run exactly when its sorted addresses are (R182, R184). -/
theorem addressesFor_eq_run (d : Byte) (es : List SyncWriteEntry) (a0 bl c : Nat) :
    addressesFor d (sortEntries es) = addressRun a0 bl c ↔ (addressesFor d es).Perm (addressRun a0 bl c) := by
  constructor
  · intro h; rw [← h]; exact (addressesFor_perm d es).symm
  · intro h
    exact List.Perm.eq_of_pairwise (le := (· ≤ ·)) (fun a b _ _ h1 h2 => Nat.le_antisymm h1 h2) (addressesFor_sorted d es)
      (addressRun_sorted a0 bl c) ((addressesFor_perm d es).trans h)

theorem sorted_head (e0 : SyncWriteEntry) (es : List SyncWriteEntry) :
    ∃ e rest, sortEntries (e0 :: es) = e :: rest := by
  cases h : sortEntries (e0 :: es) with
  | nil => have := (sortEntries_perm (e0 :: es)).length_eq; simp [h] at this
  | cons e rest => exact ⟨e, rest, rfl⟩

/-- If every device has a run from the same address, it starts at the first sorted entry's address. -/
theorem run_start {e0 : SyncWriteEntry} {es : List SyncWriteEntry} {a0 bl c : Nat}
    (h : ∀ x ∈ e0 :: es, (addressesFor x.deviceId (e0 :: es)).Perm (addressRun a0 bl c)) :
    ((sortEntries (e0 :: es)).headD e0).registerAddress.toNat = a0 := by
  obtain ⟨e, rest, hs⟩ := sorted_head e0 es
  have hm : e ∈ e0 :: es := (sortEntries_perm (e0 :: es)).mem_iff.mp (by simp [hs])
  have := (addressesFor_eq_run e.deviceId (e0 :: es) a0 bl c).mpr (h e hm)
  rw [hs] at this ⊢
  simp only [addressesFor, entriesFor, List.filter_cons, beq_self_eq_true, if_true, List.map_cons] at this
  cases c with
  | zero => simp [addressRun] at this
  | succ c =>
    simp only [addressRun, List.range_succ_eq_map, List.map_cons, List.cons.injEq] at this
    simpa using this.1

/-! ### Runs -/

/-- The entries of one device: values of `bl` bytes at consecutive addresses (R182). -/
def runEntries (id a0 : Byte) (bl : Nat) (ps : List Parameter) : List SyncWriteEntry :=
  ps.mapIdx fun k p => ⟨id, BitVec.ofNat 8 (a0.toNat + k * bl), p⟩

theorem runEntries_data (id a0 : Byte) (bl : Nat) (ps : List Parameter) :
    (runEntries id a0 bl ps).map SyncWriteEntry.data = ps := by
  apply List.ext_getElem <;> simp [runEntries]

theorem runEntries_id {id a0 : Byte} {bl : Nat} {ps : List Parameter} {e} (h : e ∈ runEntries id a0 bl ps) : e.deviceId = id := by
  simp only [runEntries, List.mem_mapIdx] at h
  obtain ⟨k, hk, rfl⟩ := h
  rfl

theorem runEntries_addr {id a0 : Byte} {bl : Nat} {ps : List Parameter} (h : a0.toNat + (ps.length - 1) * bl ≤ 255) :
    (runEntries id a0 bl ps).map (fun e => e.registerAddress.toNat) = addressRun a0.toNat bl ps.length := by
  apply List.ext_getElem
  · simp [runEntries, addressRun]
  · intro k h1 h2
    simp [runEntries] at h1
    have : k * bl ≤ (ps.length - 1) * bl := Nat.mul_le_mul_right _ (by omega)
    simp [runEntries, addressRun]
    omega

theorem addressRun_strict {a0 bl c : Nat} (h : 1 ≤ bl) : (addressRun a0 bl c).Pairwise (· < ·) := by
  unfold addressRun
  rw [List.pairwise_map]
  exact List.pairwise_lt_range.imp fun h' => by nlinarith [Nat.mul_lt_mul_of_pos_right h' h]

/-- All the devices' entries, in key order. -/
def allEntries (devices : List (Byte × List Parameter)) (a0 : Byte) (bl : Nat) : List SyncWriteEntry :=
  devices.flatMap fun d => runEntries d.1 a0 bl d.2

theorem allEntries_sorted {devices : List (Byte × List Parameter)} {a0 : Byte} {bl c : Nat}
    (h1 : (devices.map fun d => d.1.toNat).Pairwise (· < ·)) (hc : ∀ d ∈ devices, d.2.length = c) (hbl : 1 ≤ bl)
    (hf : a0.toNat + (c - 1) * bl ≤ 255) : (allEntries devices a0 bl).Pairwise keyLt := by
  rw [allEntries, List.pairwise_flatMap]
  constructor
  · intro d hd
    have := addressRun_strict (a0 := a0.toNat) (c := d.2.length) hbl
    rw [← runEntries_addr (id := d.1) (by rw [hc d hd]; exact hf), List.pairwise_map] at this
    refine this.imp_of_mem fun {a b} ha hb hab => .inr ⟨?_, hab⟩
    rw [runEntries_id ha, runEntries_id hb]
  · rw [List.pairwise_map] at h1
    refine h1.imp fun hab x hx y hy => .inl ?_
    rw [runEntries_id hx, runEntries_id hy]; exact hab

theorem filter_runs {devices : List (Byte × List Parameter)} {a0 : Byte} {bl : Nat}
    (h1 : (devices.map fun d => d.1.toNat).Pairwise (· < ·)) {d} (hd : d ∈ devices) :
    entriesFor d.1 (allEntries devices a0 bl) = runEntries d.1 a0 bl d.2 := by
  induction devices with
  | nil => cases hd
  | cons x xs ih =>
    rw [List.map_cons, List.pairwise_cons] at h1
    simp only [entriesFor, allEntries, List.flatMap_cons, List.filter_append]
    rcases List.mem_cons.mp hd with rfl | hd
    · rw [List.filter_eq_self.mpr (fun e he => by simp [runEntries_id he]), List.filter_eq_nil_iff.mpr ?_, List.append_nil]
      intro e he
      obtain ⟨y, hy, he⟩ := List.mem_flatMap.mp he
      have := h1.1 y.1.toNat (List.mem_map_of_mem hy)
      rw [runEntries_id he]
      simp only [beq_iff_eq]
      intro h; rw [h] at this; omega
    · rw [List.filter_eq_nil_iff.mpr ?_, List.nil_append]
      · exact ih h1.2 hd
      · intro e he
        have := h1.1 d.1.toNat (List.mem_map_of_mem hd)
        rw [runEntries_id he]
        simp only [beq_iff_eq]
        intro h; rw [h] at this; omega

theorem mergeAdjacent_replicate (d : Byte) (n : Nat) (rest : List Byte) (h : rest.head? ≠ some d) :
    mergeAdjacent (List.replicate (n + 1) d ++ rest) = d :: mergeAdjacent rest := by
  induction n with
  | zero =>
    cases rest with
    | nil => rfl
    | cons b r =>
      simp at h
      simp [mergeAdjacent, Ne.symm h]
  | succ n ih =>
    rw [List.replicate_succ, List.cons_append]
    rw [List.replicate_succ, List.cons_append] at ih ⊢
    simp only [mergeAdjacent, if_true]
    exact ih

theorem runEntries_ids (id a0 : Byte) (bl : Nat) (ps : List Parameter) :
    (runEntries id a0 bl ps).map SyncWriteEntry.deviceId = List.replicate ps.length id := by
  rw [List.eq_replicate_iff]
  refine ⟨by simp [runEntries], fun b hb => ?_⟩
  obtain ⟨e, he, rfl⟩ := List.mem_map.mp hb
  exact runEntries_id he

theorem merge_ids {devices : List (Byte × List Parameter)} {a0 : Byte} {bl c : Nat}
    (h1 : (devices.map fun d => d.1.toNat).Pairwise (· < ·)) (hc : ∀ d ∈ devices, d.2.length = c) (h : 1 ≤ c) :
    mergeAdjacent ((allEntries devices a0 bl).map SyncWriteEntry.deviceId) = devices.map Prod.fst := by
  induction devices with
  | nil => rfl
  | cons x xs ih =>
    rw [List.map_cons, List.pairwise_cons] at h1
    simp only [allEntries, List.flatMap_cons, List.map_append, runEntries_ids]
    rw [hc x (by simp), ← Nat.sub_add_cancel h, mergeAdjacent_replicate]
    · rw [List.map_cons]; congr 1; exact ih h1.2 (fun d hd => hc d (by simp [hd]))
    · intro hh
      have := List.mem_of_head? hh
      obtain ⟨e, he, h⟩ := List.mem_map.mp this
      obtain ⟨y, hy, he⟩ := List.mem_flatMap.mp he
      have := h1.1 y.1.toNat (List.mem_map_of_mem hy)
      rw [runEntries_id he] at h
      rw [h] at this; omega

theorem fromSlice_devices {devices : List (Byte × List Parameter)} {c bl : Nat} (hc : ∀ d ∈ devices, d.2.length = c)
    (hp : ∀ d ∈ devices, ∀ p ∈ d.2, p.byteLength.toNat = bl) :
    fromSlice (devices.flatMap fun d => byteParam d.1 :: d.2) = devices.flatMap (fun d => d.1 :: (d.2.map asBytes).flatten)
      ∧ (devices.flatMap (fun d => d.1 :: (d.2.map asBytes).flatten)).length = devices.length * (1 + c * bl) := by
  induction devices with
  | nil => simp
  | cons x xs ih =>
    obtain ⟨h1, h2⟩ := ih (fun d hd => hc d (by simp [hd])) (fun d hd => hp d (by simp [hd]))
    simp only [List.flatMap_cons, List.cons_append, fromSlice_cons, fromSlice_append, asBytes_byteParam, h1]
    refine ⟨by simp [fromSlice, List.flatMap], ?_⟩
    have : ((x.2.map asBytes).flatten).length = c * bl := by
      rw [List.length_flatten, List.map_map]
      rw [show (x.2.map (List.length ∘ asBytes)) = List.replicate c bl from ?_]
      · simp
      · rw [List.eq_replicate_iff]
        refine ⟨by simp [hc x], fun b hb => ?_⟩
        obtain ⟨p, hp', rfl⟩ := List.mem_map.mp hb
        simp [hp x (by simp) p hp']
    simp only [List.length_cons, List.length_append, h2, this]
    ring

theorem run_cons {l : List Parameter} {c : Nat} (h : l.length = c) (hc : 1 ≤ c) : ∃ p ps, l = p :: ps := by
  cases l with
  | nil => simp at h; omega
  | cons p ps => exact ⟨p, ps, rfl⟩

theorem buildSyncWrite_run (cfg : Config) {devices : List (Byte × List Parameter)} {a0 : Byte} {bl c : Nat}
    {entries : List SyncWriteEntry} (h0 : devices ≠ [])
    (h1 : (devices.map fun d => d.1.toNat).Pairwise (· < ·)) (h2 : ∀ d ∈ devices, d.1.toNat ≤ 253) (hcc : 1 ≤ c)
    (hc : ∀ d ∈ devices, d.2.length = c)
    (hp : ∀ d ∈ devices, ∀ p ∈ d.2, wellFormedParam p = true ∧ p.byteLength.toNat = bl)
    (hf : a0.toNat + (c - 1) * bl ≤ 255) (hl : 2 + devices.length * (1 + c * bl) ≤ 253)
    (hperm : entries.Perm (allEntries devices a0 bl)) :
    buildSyncWrite cfg entries = mkInstruction cfg.paramWidthPolicy 0xFE#8 .syncWrite
      (byteParam a0 :: unsignedParam (c * bl) 1 :: devices.flatMap (fun d => byteParam d.1 :: d.2)) := by
  obtain ⟨d0, ds, rfl⟩ : ∃ d0 ds, devices = d0 :: ds := by cases devices <;> simp_all
  have hbl : 1 ≤ bl := by
    obtain ⟨p, ps, h⟩ := run_cons (hc d0 (by simp)) hcc
    have := hp d0 (by simp) p (by simp [h])
    have h' := paramError_none_width (paramError_of_wellFormed this.1 .reject)
    omega
  have hsort := sortEntries_eq (allEntries_sorted h1 hc hbl hf) hperm
  have hdev : devicesOf entries = (d0 :: ds).map Prod.fst := by rw [devicesOf, hsort, merge_ids h1 hc hcc]
  have hmem : ∀ e ∈ entries, ∃ d ∈ d0 :: ds, e ∈ runEntries d.1 a0 bl d.2 := fun e he =>
    List.mem_flatMap.mp (hperm.mem_iff.mp he)
  have hdata : ∀ e ∈ entries, wellFormedParam e.data = true ∧ e.data.byteLength.toNat = bl := by
    intro e he
    obtain ⟨d, hd, he⟩ := hmem e he
    refine hp d hd e.data ?_
    rw [← runEntries_data d.1 a0 bl d.2]
    exact List.mem_map_of_mem he
  have hcount : ∀ d ∈ d0 :: ds, (entriesFor d.1 entries).length = c := by
    intro d hd
    have := (hperm.filter fun e => e.deviceId == d.1).length_eq
    simp only [entriesFor]
    rw [this]
    change (entriesFor d.1 (allEntries (d0 :: ds) a0 bl)).length = c
    rw [filter_runs h1 hd]; simp [runEntries, hc d hd]
  have hne : ∃ e0 es, entries = e0 :: es := by
    cases h : entries with
    | nil => have := hcount d0 (by simp); rw [h] at this; simp [entriesFor] at this; omega
    | cons e es => exact ⟨e, es, rfl⟩
  obtain ⟨e0, es, rfl⟩ := hne
  have hn : firstNonConcrete ((e0 :: es).map SyncWriteEntry.deviceId) = none := by
    refine firstNonConcrete_none.mpr fun b hb => ?_
    obtain ⟨e, he, rfl⟩ := List.mem_map.mp hb
    obtain ⟨d, hd, he⟩ := hmem e he
    rw [runEntries_id he]; exact h2 d hd
  have hpe : firstParamError cfg.paramWidthPolicy ((e0 :: es).map SyncWriteEntry.data) = none := by
    refine firstParamError_none.mpr fun p hp => ?_
    obtain ⟨e, he, rfl⟩ := List.mem_map.mp hp
    exact paramError_of_wellFormed (hdata e he).1 _
  have hb0 : e0.data.byteLength.toNat = bl := (hdata e0 (by simp)).2
  simp only [buildSyncWrite, hn, checkParams_eq, hpe, hdev, hb0]
  rw [if_neg (by
    simp only [List.any_eq_true, bne_iff_ne, not_exists, not_and, not_not]
    intro x hx
    exact BitVec.eq_of_toNat_eq (by rw [(hdata x hx).2, hb0]))]
  rw [show (((d0 :: ds).map Prod.fst).headD 0#8) = d0.1 from rfl, hcount d0 (by simp)]
  rw [if_neg (by
    simp only [List.any_eq_true, bne_iff_ne, not_exists, not_and, not_not, List.mem_map]
    rintro x ⟨d, hd, rfl⟩
    exact hcount d hd)]
  have ha : ((sortEntries (e0 :: es)).headD e0).registerAddress = a0 := by
    rw [hsort]
    obtain ⟨p, ps, h⟩ := run_cons (hc d0 (by simp)) hcc
    simp [allEntries, runEntries, h]
  rw [ha]
  rw [if_neg (by
    rintro ⟨-, h⟩
    simp only [List.any_eq_true, bne_iff_ne, List.mem_map] at h
    obtain ⟨x, ⟨d, hd, rfl⟩, h⟩ := h
    apply h
    rw [addressesFor, hsort, filter_runs h1 hd, runEntries_addr (by rw [hc d hd]; exact hf), hc d hd])]
  rw [if_neg (by simpa using hl)]
  congr 1
  simp only [syncParams, List.flatMap_map]
  congr 2
  apply List.flatMap_congr
  intro d hd
  rw [hsort, filter_runs h1 hd, runEntries_data]

end Sys2Proof.Machine
end

