-- ==== Sys2Proof/Laws/PerInstr.lean ====
section
/-! SUPPORT. Statements made for each instruction: its encoding carries the code its row of spec/opcode_table.json gives
it (a wire instruction at offset 4 of its frame, 30_encoding.md R70, R74; a host command as its first byte, R82). -/

namespace Sys2Proof.Laws.CarriesRowCode

open Sys2Proof.Machine

/-- The code of each row of spec/opcode_table.json ("match"). -/
def rowCode : Instr → Byte
  | .ping _ => 0x01#8
  | .read _ _ _ => 0x02#8
  | .write _ _ _ => 0x03#8
  | .regWrite _ _ _ => 0x04#8
  | .action _ => 0x05#8
  | .reset _ => 0x06#8
  | .reboot _ => 0x07#8
  | .syncWrite _ _ => 0x83#8
  | .bulkRead _ => 0x92#8
  | .buildPing _ => 0x01#8
  | .buildRead _ _ _ => 0x02#8
  | .buildWrite _ _ _ => 0x03#8
  | .buildRegWrite _ _ _ => 0x04#8
  | .buildAction _ => 0x05#8
  | .buildReset _ => 0x06#8
  | .buildReboot _ => 0x07#8
  | .buildSyncWrite _ => 0x83#8
  | .buildBulkRead _ => 0x92#8
  | .generate _ => 0x10#8
  | .parse _ _ _ => 0x11#8
  | .expectedReplyLength _ _ => 0x12#8
  | .send _ _ _ => 0x13#8
  | .receive => 0x14#8
  | .checksum _ _ _ _ => 0x15#8
  | .paramUnsigned _ _ => 0x20#8
  | .paramSigned _ _ => 0x21#8
  | .paramAsBytes _ => 0x22#8
  | .paramFromSlice _ => 0x23#8
  | .opcodeEncode _ => 0x30#8
  | .opcodeDecode _ => 0x31#8
  | .statusDecode _ => 0x40#8
  | .statusEncode _ => 0x41#8

/-- Where the code stands: offset 4 of a frame, the front of a command record. -/
def codeOffset (i : Instr) : Nat := if i.isWire then 4 else 0

/-- The encoding carries the row's code, in the row's format. -/
def Statement (i : Instr) : Prop :=
  (encode i).bytes[codeOffset i]? = some (rowCode i)
    ∧ (encode i).format = (if i.isWire then .wireFrame else .hostCommand)

theorem ping (id : Byte) : Statement (.ping id) := ⟨rfl, rfl⟩
theorem read (id reg length : Byte) : Statement (.read id reg length) := ⟨rfl, rfl⟩
theorem write (id reg : Byte) (data : List Byte) : Statement (.write id reg data) := ⟨rfl, rfl⟩
theorem regWrite (id reg : Byte) (data : List Byte) : Statement (.regWrite id reg data) := ⟨rfl, rfl⟩
theorem action (id : Byte) : Statement (.action id) := ⟨rfl, rfl⟩
theorem reset (id : Byte) : Statement (.reset id) := ⟨rfl, rfl⟩
theorem reboot (id : Byte) : Statement (.reboot id) := ⟨rfl, rfl⟩
theorem syncWrite (first : Byte) (groups : List SyncGroup) : Statement (.syncWrite first groups) := ⟨rfl, rfl⟩
theorem bulkRead (entries : List BulkReadEntry) : Statement (.bulkRead entries) := ⟨rfl, rfl⟩
theorem buildPing (addr : Byte) : Statement (.buildPing addr) := ⟨rfl, rfl⟩
theorem buildRead (addr reg length : Byte) : Statement (.buildRead addr reg length) := ⟨rfl, rfl⟩
theorem buildWrite (addr reg : Byte) (data : Parameter) : Statement (.buildWrite addr reg data) := ⟨rfl, rfl⟩
theorem buildRegWrite (addr reg : Byte) (data : Parameter) : Statement (.buildRegWrite addr reg data) := ⟨rfl, rfl⟩
theorem buildAction (addr : Byte) : Statement (.buildAction addr) := ⟨rfl, rfl⟩
theorem buildReset (addr : Byte) : Statement (.buildReset addr) := ⟨rfl, rfl⟩
theorem buildReboot (addr : Byte) : Statement (.buildReboot addr) := ⟨rfl, rfl⟩
theorem buildSyncWrite (entries : List SyncWriteEntry) : Statement (.buildSyncWrite entries) := ⟨rfl, rfl⟩
theorem buildBulkRead (entries : List BulkReadEntry) : Statement (.buildBulkRead entries) := ⟨rfl, rfl⟩
theorem generate (packet : Packet) : Statement (.generate packet) := ⟨rfl, rfl⟩
theorem parse (buf : List Byte) (ctxCode reqLen : Byte) : Statement (.parse buf ctxCode reqLen) := ⟨rfl, rfl⟩
theorem expectedReplyLength (ctxCode reqLen : Byte) : Statement (.expectedReplyLength ctxCode reqLen) := ⟨rfl, rfl⟩
theorem send (packet : Packet) (ctxCode reqLen : Byte) : Statement (.send packet ctxCode reqLen) := ⟨rfl, rfl⟩
theorem receive : Statement .receive := ⟨rfl, rfl⟩
theorem checksum (id len op : Byte) (bytes : List Byte) : Statement (.checksum id len op bytes) := ⟨rfl, rfl⟩
theorem paramUnsigned (value : Word64) (byteLength : Byte) : Statement (.paramUnsigned value byteLength) := ⟨rfl, rfl⟩
theorem paramSigned (value : Word64) (byteLength : Byte) : Statement (.paramSigned value byteLength) := ⟨rfl, rfl⟩
theorem paramAsBytes (p : Parameter) : Statement (.paramAsBytes p) := ⟨rfl, rfl⟩
theorem paramFromSlice (ps : List Parameter) : Statement (.paramFromSlice ps) := ⟨rfl, rfl⟩
theorem opcodeEncode (code : InstructionCode) : Statement (.opcodeEncode code) := ⟨rfl, rfl⟩
theorem opcodeDecode (byte : Byte) : Statement (.opcodeDecode byte) := ⟨rfl, rfl⟩
theorem statusDecode (byte : Byte) : Statement (.statusDecode byte) := ⟨rfl, rfl⟩
theorem statusEncode (flags : List StatusFlag) : Statement (.statusEncode flags) := ⟨rfl, rfl⟩

end Sys2Proof.Laws.CarriesRowCode
end

