-- ==== Sys2Proof/Laws/Step.lean ====
section
/-! SUPPORT. What an instruction and a step can do, said once: the result of every command without side effects, the
cases of SEND and RECEIVE, and the effect of any instruction and of any step on the exchange and the bus. -/

namespace Sys2Proof.Machine

/-- The result of every command but SEND and RECEIVE: a function of the constants and the operands (R57). -/
def pureResult (c : Config) : Instr → Except CmdError Payload
  | .ping id => emitFrame (buildPing c id)
  | .read id reg length => emitFrame (buildRead c id reg length)
  | .write id reg data => emitFrame (buildWrite c id reg (dataParam data))
  | .regWrite id reg data => emitFrame (buildRegWrite c id reg (dataParam data))
  | .action id => emitFrame (buildAction c id)
  | .reset id => emitFrame (buildReset c id)
  | .reboot id => emitFrame (buildReboot c id)
  | .syncWrite first groups => emitFrame (buildSyncWrite c (groupEntries first groups))
  | .bulkRead entries => emitFrame (buildBulkRead c entries)
  | .buildPing a => packetResult (buildPing c a)
  | .buildRead a r n => packetResult (buildRead c a r n)
  | .buildWrite a r d => packetResult (buildWrite c a r d)
  | .buildRegWrite a r d => packetResult (buildRegWrite c a r d)
  | .buildAction a => packetResult (buildAction c a)
  | .buildReset a => packetResult (buildReset c a)
  | .buildReboot a => packetResult (buildReboot c a)
  | .buildSyncWrite es => packetResult (buildSyncWrite c es)
  | .buildBulkRead es => packetResult (buildBulkRead c es)
  | .generate p => frameResult (generate p)
  | .parse b x n => packetResult (parse b x n)
  | .expectedReplyLength x n =>
    match expectedReplyLength c.replyLenOther x n with
    | .error e => .error e
    | .ok m => .ok (.replyLength m)
  | .send _ _ _ | .receive => .error .illegalCommand
  | .checksum i l o b => .ok (.byte (checksum i l o b))
  | .paramUnsigned v n => constructParam c.paramWidthPolicy ⟨.unsigned, v, n⟩
  | .paramSigned v n => constructParam c.paramWidthPolicy ⟨.signed, v, n⟩
  | .paramAsBytes p =>
    match checkParam .reject p with
    | .error e => .error e
    | .ok _ => .ok (.bytes (asBytes p))
  | .paramFromSlice ps => checkedSlice ps
  | .opcodeEncode x => .ok (.byte (opcode x))
  | .opcodeDecode b =>
    match codeOf b with
    | some x => .ok (.code x)
    | none => .error (.unknownInstruction b)
  | .statusDecode b => .ok (.flags (statusDecode b))
  | .statusEncode fs => .ok (.byte (statusEncode c.statusEncodeSuccess fs))

/-- Every arm of exec but SEND's and RECEIVE's returns its result and does nothing else (R57). -/
theorem exec_pure {i : Instr} (h : isExchange i = false) (s : State) :
    exec i s = .next (s.finish (pureResult s.config i)) := by
  cases i <;> first | rfl | simp [isExchange] at h

/-- An error response comes from an error. -/
theorem resp_err {r : Except CmdError Payload} {e : CmdError} (h : Response.error e = resultResponse r) : r = .error e := by
  cases r <;> simp [resultResponse] at h; rw [h]

/-- A packet answer fails when its builder does. -/
theorem packetResult_error {r : Except CmdError Packet} {e : CmdError} (h : packetResult r = .error e) : r = .error e := by
  cases r <;> simp [packetResult] at h; rw [h]

/-- A frame answer fails when GENERATE does. -/
theorem frameResult_error {r : Except CmdError (List Byte)} {e : CmdError} (h : frameResult r = .error e) : r = .error e := by
  cases r <;> simp [frameResult] at h; rw [h]

/-- A result of EXPECTED_REPLY_LENGTH is that of a decoded context (R145). -/
theorem expectedReplyLength_ok {t : ReplyLenTable} {c n : Byte} {m : Option Nat}
    (h : expectedReplyLength t c n = .ok m) : ∃ code, codeOf c = some code ∧ replyLengthOf t code n = .ok m := by
  unfold expectedReplyLength ctxOf at h
  cases hc : codeOf c with
  | none => simp [hc] at h
  | some code => exact ⟨code, rfl, by simpa [hc] using h⟩

/-- What SEND does: an error before any write, or one write, which ends in a TransportError or opens the exchange
(R150). -/
theorem sendState_cases (p : Packet) (c n : Byte) (s : State) :
    (∃ e, sendState p c n s = s.raise e
        ∧ (e = .exchangeInFlight ∨ e = .unknownInstruction c ∨ e = .unsupportedReadLength ∨ e = .notAnInstruction
          ∨ e = .invalidDeviceId 0xFF#8 ∨ e = .invalidByteLength ∨ e = .parameterTooWide ∨ e = .frameTooLong))
    ∨ (∃ frame expect, s.outstanding = none ∧ expectedReplyLength s.config.replyLenOther c n = .ok expect
        ∧ generate p = .ok frame
        ∧ ((∃ why, sendState p c n s = (s.txWrite frame).raise (.transportError why))
          ∨ (s.txAnswer = .ok frame.length ∧ ∃ code, codeOf c = some code
              ∧ sendState p c n s = ((s.txWrite frame).setOutstanding (expect.map fun m => ⟨⟨code, n⟩, m⟩)).answer
                (.ok (.written frame.length))))) := by
  unfold sendState
  cases ho : s.outstanding with
  | some x => exact .inl ⟨_, rfl, .inl rfl⟩
  | none =>
    simp only
    cases hl : expectedReplyLength s.config.replyLenOther c n with
    | error e =>
      refine .inl ⟨e, rfl, ?_⟩
      rcases expectedReplyLength_error hl with rfl | rfl <;> simp
    | ok expect =>
      simp only
      cases hg : generate p with
      | error e =>
        refine .inl ⟨e, rfl, ?_⟩
        rcases generate_error hg with rfl | rfl | rfl | rfl | rfl <;> simp
      | ok frame =>
        refine .inr ⟨frame, expect, by simp, by simp, by simp, ?_⟩
        simp only [sendAnswered]
        cases ht : s.txAnswer with
        | err e => exact .inl ⟨_, rfl⟩
        | ok k =>
          simp only
          by_cases hk : k = frame.length
          · obtain ⟨code, hc, -⟩ := expectedReplyLength_ok hl
            refine .inr ⟨by rw [hk], code, hc, ?_⟩
            rw [if_neg (by simpa using hk)]
            simp only [openedExchange, ctxOf, hc]
            cases expect
            · simp only [Option.map_none]
              congr 1
              simp [State.setOutstanding, State.txWrite, ho]
            · rfl
          · exact .inl ⟨_, by rw [if_pos hk]⟩

/-- A reply of the length asked for is PARSE's to judge (R151). -/
theorem parseReply_asked {x : Exchange} {bytes : List Byte} (h : bytes.length = x.expect) :
    parseReply x bytes = parse bytes (opcode x.ctx.code) x.ctx.requestedLength := if_pos h

/-- A reply of another length is rejected, after the context and header checks (R151; log 16). -/
theorem parseReply_other {x : Exchange} {bytes : List Byte} (h : bytes.length ≠ x.expect) :
    parseReply x bytes = .error (
      if x.ctx.code = .read ∧ ¬ readLengthOk x.ctx.requestedLength then .unsupportedReadLength
      else if hasHeader bytes = true then .invalidLength else .invalidHeader) := by
  rw [parseReply, if_neg h]
  simp only [parseContext, ctxOf_opcode]
  by_cases hr : x.ctx.code = .read ∧ ¬ readLengthOk x.ctx.requestedLength
  · simp only [if_pos hr]
  · simp only [if_neg hr]
    cases hasHeader bytes <;> rfl

/-- A reply that is accepted has the length asked for, and PARSE accepts it (R151). -/
theorem parseReply_ok {x : Exchange} {bytes : List Byte} {p : Packet} (h : parseReply x bytes = .ok p) :
    bytes.length = x.expect ∧ parse bytes (opcode x.ctx.code) x.ctx.requestedLength = .ok p := by
  by_cases hl : bytes.length = x.expect
  · exact ⟨hl, parseReply_asked hl ▸ h⟩
  · rw [parseReply_other hl] at h; cases h

/-- The errors of a reply: PARSE's but for UnknownInstruction (R151, R222). -/
theorem parseReply_error {x : Exchange} {bytes : List Byte} {e : CmdError} (h : parseReply x bytes = .error e) :
    (e = .unsupportedReadLength ∧ x.ctx.code = .read ∧ ¬ readLengthOk x.ctx.requestedLength)
    ∨ e = .invalidHeader ∨ e = .invalidLength ∨ e = .invalidChecksum := by
  by_cases hl : bytes.length = x.expect
  · rw [parseReply_asked hl] at h
    rcases parse_error h with ⟨-, hc⟩ | ⟨rfl, hc, hn⟩ | h
    · simp at hc
    · exact .inl ⟨rfl, by simpa using hc, hn⟩
    · exact .inr h
  · rw [parseReply_other hl] at h
    cases h
    split_ifs with h1 h2
    exacts [.inl ⟨rfl, h1⟩, .inr (.inr (.inl rfl)), .inr (.inl rfl)]

/-- A free answer keeps the transport's contract: an error, or exactly the bytes asked for (R9). -/
theorem keepsContract_rxDraw (s : State) (n : Nat) : keepsContract n (s.rxDraw n) = true := by
  unfold State.rxDraw
  cases Config.rxFailure s.bus.length <;> simp [keepsContract]

/-- What RECEIVE does. -/
theorem receiveState_cases (s : State) :
    (s.outstanding = none ∧ receiveState s = s.raise .noExchange)
    ∨ ∃ x, s.outstanding = some x ∧ ∃ r, receiveState s = ((s.setOutstanding none).rxReadExact x.expect).answer r
        ∧ ((∃ e, s.rxAnswer x.expect = .err e ∧ r = .error (.transportError (.io e)))
          ∨ ∃ bytes, s.rxAnswer x.expect = .ok bytes ∧ r = resultResponse (packetResult (parseReply x bytes))) := by
  unfold receiveState
  cases s.outstanding with
  | none => exact .inl ⟨rfl, rfl⟩
  | some x =>
    refine .inr ⟨x, rfl, ?_⟩
    simp only [receiveAnswered]
    cases h : s.rxAnswer x.expect with
    | err e => exact ⟨_, rfl, .inl ⟨e, rfl, rfl⟩⟩
    | ok b => exact ⟨_, State.finish_eq _ _, .inr ⟨b, rfl, rfl⟩⟩

/-- What an instruction can do to the exchange and the bus: nothing, one write of an instruction frame with no exchange
open, or one read that ends the open exchange. -/
theorem exec_effect {i : Instr} {s t : State} (h : exec i s = .next t) : t.host = s.host ∧ t.config = s.config
    ∧ ((t.bus = s.bus ∧ t.outstanding = s.outstanding)
      ∨ (∃ frame, s.outstanding = none ∧ instructionFrame frame = true ∧ t.bus = .write frame s.txAnswer :: s.bus
          ∧ ∀ x, t.outstanding = some x → s.txAnswer = .ok frame.length
            ∧ replyLengthOf s.config.replyLenOther x.ctx.code x.ctx.requestedLength = .ok (some x.expect))
      ∨ (∃ x, s.outstanding = some x ∧ t.outstanding = none ∧ t.bus = .readExact x.expect (s.rxAnswer x.expect) :: s.bus)) := by
  by_cases hx : isExchange i = false
  · rw [exec_pure hx, State.finish_eq] at h
    cases h
    exact ⟨rfl, rfl, .inl ⟨rfl, rfl⟩⟩
  · cases i <;> simp [isExchange] at hx
    · rename_i p c n
      change Host.Outcome.next (sendState p c n s) = _ at h
      cases h
      rcases sendState_cases p c n s with ⟨e, he, -⟩ | ⟨f, m, ho, hl, hg, ⟨w, he⟩ | ⟨ht, code, hc, he⟩⟩ <;> rw [he]
      · exact ⟨rfl, rfl, .inl ⟨rfl, rfl⟩⟩
      · exact ⟨rfl, rfl, .inr (.inl ⟨f, ho, instructionFrame_of_generate hg, rfl, by simp [ho]⟩)⟩
      · refine ⟨rfl, rfl, .inr (.inl ⟨f, ho, instructionFrame_of_generate hg, rfl, fun x hx => ⟨ht, ?_⟩⟩)⟩
        simp only [State.answer_outstanding, State.setOutstanding_outstanding, Option.map_eq_some_iff] at hx
        obtain ⟨k, rfl, rfl⟩ := hx
        obtain ⟨code', hc', h'⟩ := expectedReplyLength_ok hl
        rw [hc] at hc'
        cases hc'
        exact h'
    · change Host.Outcome.next (receiveState s) = _ at h
      cases h
      rcases receiveState_cases s with ⟨hn, he⟩ | ⟨x, hx, r, he, -⟩ <;> rw [he]
      · exact ⟨rfl, rfl, .inl ⟨rfl, rfl⟩⟩
      · exact ⟨rfl, rfl, .inr (.inr ⟨x, hx, rfl, rfl⟩)⟩

/-- What a step can do: wait, run an instruction, answer that the bytes name none, or reset, with or without an
instruction before it. -/
theorem step_cases {s t : State} (h : step s = .next t) :
    t = s
    ∨ ∃ rest, (∃ e, t = (s.withHost rest).raise e)
      ∨ t = (s.withHost rest).applyReset
      ∨ (∃ i, exec i (s.withHost rest) = .next t)
      ∨ ∃ i u, exec i (s.withHost rest) = .next u ∧ t = (u.withoutResponse (s.withHost rest)).applyReset := by
  unfold step takeEvent at h
  cases hh : s.host with
  | nil => rw [hh] at h; cases h; exact .inl rfl
  | cons ev rest =>
    refine .inr ⟨rest, ?_⟩
    rw [hh] at h
    cases ev with
    | reset => cases h; exact .inr (.inl rfl)
    | issue e =>
      simp only [runEncoded] at h
      split at h
      · exact .inr (.inr (.inl ⟨_, h⟩))
      · cases h; exact .inl ⟨_, rfl⟩
      · cases h; exact .inl ⟨_, rfl⟩
      · cases h
    | resetDuring e c =>
      cases c
      · simp [runAbandoned] at h; exact .inr (.inl h.symm)
      · simp only [runAbandoned, if_true] at h
        split at h <;> try cases h
        rename_i u hu
        simp only [runEncoded] at hu
        split at hu
        · exact .inr (.inr (.inr ⟨_, u, hu, rfl⟩))
        · cases hu; exact .inr (.inl rfl)
        · cases hu; exact .inr (.inl rfl)
        · cases hu

/-- What a step can do to the exchange and the bus: as an instruction, or a reset that ends the exchange (R260). -/
theorem step_effect {s t : State} (h : step s = .next t) : t.config = s.config
    ∧ ((t.bus = s.bus ∧ (t.outstanding = s.outstanding ∨ t.outstanding = none))
      ∨ (∃ frame r, s.outstanding = none ∧ instructionFrame frame = true ∧ t.bus = .write frame r :: s.bus
          ∧ ∀ x, t.outstanding = some x → r = .ok frame.length
            ∧ replyLengthOf s.config.replyLenOther x.ctx.code x.ctx.requestedLength = .ok (some x.expect))
      ∨ (∃ x r, s.outstanding = some x ∧ t.outstanding = none ∧ t.bus = .readExact x.expect r :: s.bus)) := by
  rcases step_cases h with rfl | ⟨rest, ⟨e, rfl⟩ | rfl | ⟨i, he⟩ | ⟨i, u, he, rfl⟩⟩
  · exact ⟨rfl, .inl ⟨rfl, .inl rfl⟩⟩
  · exact ⟨rfl, .inl ⟨rfl, .inl rfl⟩⟩
  · exact ⟨rfl, .inl ⟨rfl, .inr rfl⟩⟩
  · obtain ⟨-, hc, h1 | ⟨f, h1, h2, h3, h4⟩ | ⟨x, h1, h2, h3⟩⟩ := exec_effect he
    · exact ⟨hc, .inl ⟨h1.1, .inl h1.2⟩⟩
    · exact ⟨hc, .inr (.inl ⟨f, _, h1, h2, h3, h4⟩)⟩
    · exact ⟨hc, .inr (.inr ⟨x, _, h1, h2, h3⟩)⟩
  · obtain ⟨-, hc, h1 | ⟨f, h1, h2, h3, h4⟩ | ⟨x, h1, h2, h3⟩⟩ := exec_effect he
    · exact ⟨hc, .inl ⟨h1.1, .inr rfl⟩⟩
    · exact ⟨hc, .inr (.inl ⟨f, _, h1, h2, h3, by simp⟩)⟩
    · exact ⟨hc, .inr (.inr ⟨x, _, h1, rfl, h3⟩)⟩

/-- every builder ends in mkInstruction -/
theorem builder_cases (i : Instr) (s : State) (hb : isBuilder i = true) :
    ∃ r, exec i s = .next (s.finish (packetResult r)) ∧
      ∀ p, r = .ok p → ∃ addr code ps, mkInstruction s.config.paramWidthPolicy addr code ps = .ok p := by
  cases i <;> simp [isBuilder] at hb
  case buildSyncWrite es =>
    refine ⟨_, rfl, fun p hp => ?_⟩
    cases es with
    | nil => simp [buildSyncWrite] at hp
    | cons e0 es =>
      simp only [buildSyncWrite] at hp
      split at hp
      · cases hp
      split at hp
      · cases hp
      iterate 4
        split at hp
        · cases hp
      exact ⟨_, _, _, hp⟩
  case buildBulkRead es =>
    refine ⟨_, rfl, fun p hp => ?_⟩
    unfold buildBulkRead at hp
    repeat' split at hp
    all_goals first | exact ⟨_, _, _, hp⟩ | cases hp
  all_goals exact ⟨_, rfl, fun p hp => ⟨_, _, _, hp⟩⟩

/-- A packet a builder answered is one `mk_instruction` returned. -/
theorem built_mkInstruction {i : Instr} {s t : State} {p : Packet} (hb : isBuilder i = true) (h : exec i s = .next t)
    (hr : t.responses = .ok (.packet p) :: s.responses) :
    ∃ addr code ps, mkInstruction s.config.paramWidthPolicy addr code ps = .ok p := by
  obtain ⟨r, he, hp⟩ := builder_cases i s hb
  rw [he] at h
  have := response_of_finish h hr
  cases r with
  | error e => simp [packetResult] at this
  | ok q =>
    simp [packetResult] at this
    subst this
    exact hp _ rfl

end Sys2Proof.Machine
end

