-- ==== Sys2Proof/Laws/Wire.lean ====
section
/-! SUPPORT. The laws of the wire instructions: a packet's frame, and the bytes of a SyncWrite read as entries
(43_multi_device.md R182). -/

namespace Sys2Proof.Machine

/-- A wire instruction whose packet passes the checks under either policy emits its frame (R30, R122, R130). -/
theorem emitFrame_mkInstruction {policy : ParamWidthPolicy} {addr : Byte} {code : InstructionCode} {ps : List Parameter}
    {pb : List Byte} (h1 : addr ≠ 0xFF#8) (h2 : ∀ q, firstParamError q ps = none) (h3 : fromSlice ps = pb) (h4 : pb.length ≤ 253) :
    emitFrame (mkInstruction policy addr code ps) = .ok (.frame (frameBytes addr (opcode code) pb)) := by
  have : ∃ p, mkInstruction policy addr code ps = .ok p := by
    rw [mkInstruction_eq, if_neg h1, h2]
    simp only
    rw [if_neg (by rw [h3]; omega)]
    exact ⟨_, rfl⟩
  obtain ⟨p, hp⟩ := this
  rw [hp, emitFrame, generate_of_mkInstruction (h2 _) hp, h3]
  rfl

/-- The chosen width divides the byte count, and no width in 1..4 that does is wider (log 21). -/
theorem widestWidth_spec (n : Nat) : 1 ≤ widestWidth n ∧ widestWidth n ≤ 4 ∧ n % widestWidth n = 0 ∧
    ∀ bl, bl ∈ [1,2,3,4] → n % bl = 0 → bl ≤ widestWidth n := by
  unfold widestWidth
  split_ifs <;> (refine ⟨by omega, by omega, by omega, fun bl hb h => ?_⟩; simp at hb; rcases hb with rfl|rfl|rfl|rfl <;> omega)

/-- `c` values of `bl` bytes each, read off the front of the bytes (R182). -/
def chunks (bl : Nat) : Nat → List Byte → List Parameter
  | 0, _ => []
  | c + 1, b => unsignedParam (unLE (b.take bl)) bl :: chunks bl c (b.drop bl)

theorem chunks_length (bl c : Nat) (b : List Byte) : (chunks bl c b).length = c := by
  induction c generalizing b with
  | zero => rfl
  | succ c ih => simp [chunks, ih]

/-- The values are well-formed Parameters whose bytes are the bytes they were read from. -/
theorem chunks_ok {bl : Nat} (h1 : 1 ≤ bl) (h4 : bl ≤ 4) {c : Nat} {b : List Byte} (h : b.length = c * bl) :
    (∀ p ∈ chunks bl c b, wellFormedParam p = true ∧ p.byteLength.toNat = bl) ∧ ((chunks bl c b).map asBytes).flatten = b := by
  induction c generalizing b with
  | zero => simp at h; subst h; simp [chunks]
  | succ c ih =>
    have hl : (b.take bl).length = bl := by simp; nlinarith
    have hd : (b.drop bl).length = c * bl := by simp [h]; rw [Nat.succ_mul]; omega
    obtain ⟨i1, i2⟩ := ih hd
    have h8 := asBytes_unLE (b.take bl) (by omega)
    have hok := unLE_param_ok (b.take bl) (by omega) (by omega) .reject
    rw [hl] at h8 hok
    refine ⟨fun p hp => ?_, ?_⟩
    · rcases List.mem_cons.mp hp with rfl | hp
      · exact ⟨paramError_none_iff.mp hok, by simp [unsignedParam]; omega⟩
      · exact i1 p hp
    · simp only [chunks, List.map_cons, List.flatten_cons, h8, i2, List.take_append_drop]

/-- A device's entries are its values at consecutive addresses (R182). -/
theorem splitEntries_eq (id : Byte) {bl : Nat} (h1 : 1 ≤ bl) (c a fuel : Nat) (b : List Byte) (h : b.length = c * bl) (hf : b.length ≤ fuel) :
    splitEntries id bl fuel a b = (chunks bl c b).mapIdx fun k p => (⟨id, BitVec.ofNat 8 (a + k * bl), p⟩ : SyncWriteEntry) := by
  induction c generalizing a fuel b with
  | zero =>
    have : b = [] := by simpa using h
    subst this
    cases fuel <;> rfl
  | succ c ih =>
    obtain ⟨fuel, rfl⟩ : ∃ k, fuel = k + 1 := ⟨fuel - 1, by rw [Nat.succ_mul] at h; omega⟩
    obtain ⟨x, xs, rfl⟩ : ∃ x xs, b = x :: xs := by
      cases b with
      | nil => simp [Nat.succ_mul] at h; omega
      | cons x xs => exact ⟨x, xs, rfl⟩
    have hd : ((x :: xs).drop bl).length = c * bl := by rw [List.length_drop, h, Nat.succ_mul]; omega
    simp only [splitEntries, chunks, List.mapIdx_cons]
    rw [ih (a + bl) fuel _ hd (by rw [hd]; rw [h, Nat.succ_mul] at hf; omega)]
    congr 1
    · simp
    · apply List.ext_getElem
      · simp
      · intro k h1 h2
        simp only [List.getElem_mapIdx]
        congr 2
        ring

theorem strictlyAscending_pairwise {l : List Byte} (h : strictlyAscending l = true) : (l.map BitVec.toNat).Pairwise (· < ·) := by
  induction l using strictlyAscending.induct with
  | case1 a b rest ih =>
    simp only [strictlyAscending, Bool.and_eq_true, decide_eq_true_eq] at h
    have := ih h.2
    rw [List.map_cons, List.pairwise_cons]
    refine ⟨fun y hy => ?_, this⟩
    rw [List.map_cons] at hy
    rcases List.mem_cons.mp hy with rfl | hy
    · exact h.1
    · have := (List.pairwise_cons.mp this).1 y hy; omega
  | case2 l h' =>
    match l, h' with
    | [], _ => simp
    | [a], _ => simp
    | a :: b :: r, h' => exact absurd rfl (h' a b r)

theorem distinctIds_nodup {l : List Byte} (h : distinctIds l = true) : l.Nodup := by
  induction l with
  | nil => simp
  | cons x xs ih =>
    simp [distinctIds] at h
    exact List.nodup_cons.mpr ⟨h.1, ih h.2⟩

end Sys2Proof.Machine
end

