-- ==== Sys2Proof/Tests/Slice0.lean ====
section
/-! SUPPORT. The model's own tests: words written out from the spec's encodings, the vectors of spec/95_test_vectors.md
(each test names its vector or table), the checks of WellFormed, and one witness for each clause of the statements that
has hypotheses. -/

namespace Sys2Proof.Tests

open Sys2Proof.Machine

/-! ### A small state -/

/-- This hardware's constants, with a `REPLY_LEN_OTHER` of the tests' own (95_test_vectors.md programs C and E). -/
def testConfig : Config := ⟨.reject, .strict, .shortCircuit, ⟨some 6, some 6, none, none, none, none, none⟩⟩

/-- The state after reset with those constants and the transport's next answers. -/
def start (tx : List TxResult) (rx : List RxResult) : State := ⟨none, testConfig, [], tx, rx, [], []⟩

/-- The same with an exchange open after its request was written. -/
def during (x : Exchange) (frame : List Byte) (rx : List RxResult) : State :=
  ⟨some x, testConfig, [], [], rx, [.write frame (.ok frame.length)], []⟩

/-- The response of a command or step. -/
def answer (o : Host.Outcome State Fault Refusal) : Option Response :=
  match o with
  | .next t => t.responses.head?
  | .fault _ => none
  | .refused _ => none

/-- The open exchange after a command or step; `none` where it does not go on. -/
def openAfter (o : Host.Outcome State Fault Refusal) : Option (Option Exchange) :=
  match o with
  | .next t => some t.outstanding
  | .fault _ => none
  | .refused _ => none

/-- `U(v, n)`. -/
def U (v n : Nat) : Parameter := ⟨.unsigned, BitVec.ofNat 64 v, BitVec.ofNat 8 n⟩

/-- `S(v, n)`. -/
def S (v : Int) (n : Nat) : Parameter := ⟨.signed, BitVec.ofInt 64 v, BitVec.ofNat 8 n⟩

/-- What a command answers from the small state. -/
def run (i : Instr) : Option Response := answer (exec i (start [] []))

/-- The flag set of some flags. -/
def flags (fs : List StatusFlag) : FlagSet := fs.foldl addFlag noFlags

/-- The ping packet of program A. -/
def ping1 : Packet := ⟨0x01#8, .instruction .ping, [], 0xFB#8⟩

/-- The Status packet of 95_test_vectors.md section 2.2. -/
def status1 : Packet := ⟨0x01#8, .status noFlags, [], 0xFC#8⟩

/-- V-S5's entries, in the order of 95_test_vectors.md section 2.4. -/
def sync5 : List SyncWriteEntry :=
  [⟨1, 0x20, U 0x360 2⟩, ⟨0, 0x1E, U 0x10 2⟩, ⟨1, 0x1E, U 0x220 2⟩, ⟨0, 0x20, U 0x150 2⟩]

/-- V-S6's entries. -/
def bulk6 : List BulkReadEntry := [⟨1, 2, 30⟩, ⟨2, 2, 36⟩]

/-! ### Decoding: words written out from 30_encoding.md R70, R74, R76 to R78 and R82 -/

/-- V-S1. -/
theorem test_word_ping :
    decode ⟨.wireFrame, [0xFF#8, 0xFF#8, 0x01#8, 0x02#8, 0x01#8, 0xFB#8]⟩
      = .ok (.ping 1) := by decide

/-- V-S2. -/
theorem test_word_read :
    decode ⟨.wireFrame, [0xFF#8, 0xFF#8, 0x01#8, 0x04#8, 0x02#8, 0x2B#8, 0x01#8, 0xCC#8]⟩
      = .ok (.read 1 0x2B 1) := by decide

/-- V-S3 with the checksum of 90_conflicts.md C2. -/
theorem test_word_write :
    decode ⟨.wireFrame, [0xFF#8, 0xFF#8, 0x01#8, 0x04#8, 0x03#8, 0x19#8, 0x01#8, 0xDD#8]⟩
      = .ok (.write 1 0x19 [1]) := by decide

/-- V-S4. -/
theorem test_word_regWrite :
    decode ⟨.wireFrame, [0xFF#8, 0xFF#8, 0x01#8, 0x05#8, 0x04#8, 0x1E#8, 0xF4#8, 0x01#8, 0xE2#8]⟩
      = .ok (.regWrite 1 0x1E [0xF4, 0x01]) := by decide

/-- 95_test_vectors.md section 2.2. -/
theorem test_word_action :
    decode ⟨.wireFrame, [0xFF#8, 0xFF#8, 0x01#8, 0x02#8, 0x05#8, 0xF7#8]⟩
      = .ok (.action 1) := by decide

/-- 95_test_vectors.md section 2.2. -/
theorem test_word_reset :
    decode ⟨.wireFrame, [0xFF#8, 0xFF#8, 0x01#8, 0x02#8, 0x06#8, 0xF6#8]⟩
      = .ok (.reset 1) := by decide

/-- 95_test_vectors.md section 2.2. -/
theorem test_word_reboot :
    decode ⟨.wireFrame, [0xFF#8, 0xFF#8, 0x01#8, 0x02#8, 0x07#8, 0xF5#8]⟩
      = .ok (.reboot 1) := by decide

/-- V-S5. -/
theorem test_word_syncWrite :
    decode ⟨.wireFrame, [0xFF#8, 0xFF#8, 0xFE#8, 0x0E#8, 0x83#8, 0x1E#8, 0x04#8, 0x00#8, 0x10#8, 0x00#8, 0x50#8, 0x01#8, 0x01#8, 0x20#8, 0x02#8, 0x60#8, 0x03#8, 0x67#8]⟩
      = .ok (.syncWrite 0x1E [⟨0, [0x10, 0x00, 0x50, 0x01]⟩, ⟨1, [0x20, 0x02, 0x60, 0x03]⟩]) := by decide

/-- V-S6. -/
theorem test_word_bulkRead :
    decode ⟨.wireFrame, [0xFF#8, 0xFF#8, 0xFE#8, 0x09#8, 0x92#8, 0x00#8, 0x02#8, 0x01#8, 0x1E#8, 0x02#8, 0x02#8, 0x24#8, 0x1D#8]⟩
      = .ok (.bulkRead [⟨1, 2, 0x1E⟩, ⟨2, 2, 0x24⟩]) := by decide

theorem test_word_buildPing :
    decode ⟨.hostCommand, [0x01#8, 0x07#8]⟩
      = .ok (.buildPing 7) := by decide

theorem test_word_buildRead :
    decode ⟨.hostCommand, [0x02#8, 0x07#8, 0x24#8, 0x02#8]⟩
      = .ok (.buildRead 7 0x24 2) := by decide

theorem test_word_buildWrite :
    decode ⟨.hostCommand, [0x03#8, 0x07#8, 0x20#8, 0x01#8, 0xFF#8, 0xFF#8, 0xFF#8, 0xFF#8, 0xFF#8, 0xFF#8, 0xFF#8, 0xFF#8, 0x02#8]⟩
      = .ok (.buildWrite 7 0x20 (S (-1) 2)) := by decide

theorem test_word_buildRegWrite :
    decode ⟨.hostCommand, [0x04#8, 0x07#8, 0x20#8, 0x00#8, 0xF4#8, 0x01#8, 0x00#8, 0x00#8, 0x00#8, 0x00#8, 0x00#8, 0x00#8, 0x02#8]⟩
      = .ok (.buildRegWrite 7 0x20 (U 500 2)) := by decide

theorem test_word_buildAction :
    decode ⟨.hostCommand, [0x05#8, 0x07#8]⟩
      = .ok (.buildAction 7) := by decide

theorem test_word_buildReset :
    decode ⟨.hostCommand, [0x06#8, 0x07#8]⟩
      = .ok (.buildReset 7) := by decide

theorem test_word_buildReboot :
    decode ⟨.hostCommand, [0x07#8, 0x07#8]⟩
      = .ok (.buildReboot 7) := by decide

theorem test_word_buildSyncWrite :
    decode ⟨.hostCommand, [0x83#8, 0x01#8, 0x02#8, 0x1E#8, 0x00#8, 0x05#8, 0x00#8, 0x00#8, 0x00#8, 0x00#8, 0x00#8, 0x00#8, 0x00#8, 0x01#8, 0x00#8]⟩
      = .ok (.buildSyncWrite [⟨2, 0x1E, U 5 1⟩]) := by decide

theorem test_word_buildBulkRead :
    decode ⟨.hostCommand, [0x92#8, 0x01#8, 0x05#8, 0x01#8, 0x00#8, 0x01#8, 0x06#8, 0x01#8, 0x09#8, 0x00#8]⟩
      = .ok (.buildBulkRead [⟨5, 1, 0⟩, ⟨6, 1, 9⟩]) := by decide

theorem test_word_generate :
    decode ⟨.hostCommand, [0x10#8, 0x01#8, 0x00#8, 0x08#8, 0x00#8, 0xFB#8]⟩
      = .ok (.generate ⟨1, .instruction .bulkRead, [], 0xFB⟩) := by decide

theorem test_word_parse :
    decode ⟨.hostCommand, [0x11#8, 0x01#8, 0xFF#8, 0x01#8, 0xFE#8, 0x00#8, 0x02#8, 0x04#8]⟩
      = .ok (.parse [0xFF, 0xFE] 2 4) := by decide

theorem test_word_expectedReplyLength :
    decode ⟨.hostCommand, [0x12#8, 0x02#8, 0x04#8]⟩
      = .ok (.expectedReplyLength 2 4) := by decide

theorem test_word_send :
    decode ⟨.hostCommand, [0x13#8, 0x01#8, 0x01#8, 0x24#8, 0x01#8, 0x00#8, 0x20#8, 0x00#8, 0x00#8, 0x00#8, 0x00#8, 0x00#8, 0x00#8, 0x00#8, 0x01#8, 0x00#8, 0xDB#8, 0x01#8, 0x00#8]⟩
      = .ok (.send ⟨1, .status (flags [.overload, .overheating]), [U 32 1], 0xDB⟩ 1 0) := by decide

theorem test_word_receive :
    decode ⟨.hostCommand, [0x14#8]⟩
      = .ok (.receive) := by decide

theorem test_word_checksum :
    decode ⟨.hostCommand, [0x15#8, 0x01#8, 0x02#8, 0x03#8, 0x01#8, 0xFD#8, 0x00#8]⟩
      = .ok (.checksum 1 2 3 [0xFD]) := by decide

theorem test_word_paramUnsigned :
    decode ⟨.hostCommand, [0x20#8, 0xF4#8, 0x01#8, 0x00#8, 0x00#8, 0x00#8, 0x00#8, 0x00#8, 0x00#8, 0x02#8]⟩
      = .ok (.paramUnsigned 500 2) := by decide

theorem test_word_paramSigned :
    decode ⟨.hostCommand, [0x21#8, 0xFE#8, 0xFF#8, 0xFF#8, 0xFF#8, 0xFF#8, 0xFF#8, 0xFF#8, 0xFF#8, 0x01#8]⟩
      = .ok (.paramSigned (BitVec.ofInt 64 (-2)) 1) := by decide

theorem test_word_paramAsBytes :
    decode ⟨.hostCommand, [0x22#8, 0x00#8, 0x00#8, 0x01#8, 0x00#8, 0x00#8, 0x00#8, 0x00#8, 0x00#8, 0x00#8, 0x01#8]⟩
      = .ok (.paramAsBytes (U 256 1)) := by decide

theorem test_word_paramFromSlice :
    decode ⟨.hostCommand, [0x23#8, 0x01#8, 0x00#8, 0x1E#8, 0x00#8, 0x00#8, 0x00#8, 0x00#8, 0x00#8, 0x00#8, 0x00#8, 0x01#8, 0x00#8]⟩
      = .ok (.paramFromSlice [U 30 1]) := by decide

theorem test_word_opcodeEncode :
    decode ⟨.hostCommand, [0x30#8, 0x07#8]⟩
      = .ok (.opcodeEncode .syncWrite) := by decide

theorem test_word_opcodeDecode :
    decode ⟨.hostCommand, [0x31#8, 0x83#8]⟩
      = .ok (.opcodeDecode 0x83) := by decide

theorem test_word_statusDecode :
    decode ⟨.hostCommand, [0x40#8, 0x24#8]⟩
      = .ok (.statusDecode 0x24) := by decide

theorem test_word_statusEncode :
    decode ⟨.hostCommand, [0x41#8, 0x01#8, 0x02#8, 0x01#8, 0x05#8, 0x00#8]⟩
      = .ok (.statusEncode [.overload, .overheating]) := by decide

theorem test_rejects_empty :
    decode ⟨.hostCommand, []⟩ = .error (.emptyRecord) := by decide

/-- R84, 95_test_vectors.md section 2.5. -/
theorem test_rejects_unassigned :
    decode ⟨.hostCommand, [0x50, 0x00]⟩ = .error (.illegalCommand 0x50) := by decide

theorem test_rejects_missing_operand :
    decode ⟨.hostCommand, [0x02, 0x01, 0x24]⟩ = .error (.malformedOperands 0x02) := by decide

theorem test_rejects_trailing :
    decode ⟨.hostCommand, [0x14, 0x00]⟩ = .error (.trailingBytes 0x14) := by decide

/-- R72. -/
theorem test_rejects_short_frame :
    decode ⟨.wireFrame, [0xFF, 0xFF, 0x01, 0x02, 0x01]⟩ = .error (.frameTooShort) := by decide

/-- R70. -/
theorem test_rejects_header :
    decode ⟨.wireFrame, [0xFF, 0xFE, 0x01, 0x02, 0x01, 0xFB]⟩ = .error (.badHeader) := by decide

/-- R72. -/
theorem test_rejects_length :
    decode ⟨.wireFrame, [0xFF, 0xFF, 0x01, 0x03, 0x01, 0xFA]⟩ = .error (.badLength) := by decide

/-- V-S3 as printed. -/
theorem test_rejects_checksum :
    decode ⟨.wireFrame, [0xFF, 0xFF, 0x01, 0x04, 0x03, 0x19, 0x01, 0xE2]⟩ = .error (.badChecksum) := by decide

/-- R75. -/
theorem test_rejects_opcode :
    decode ⟨.wireFrame, [0xFF, 0xFF, 0x01, 0x02, 0x08, 0xF4]⟩ = .error (.unknownOpcode 0x08) := by decide

/-- R76. -/
theorem test_rejects_block :
    decode ⟨.wireFrame, [0xFF, 0xFF, 0x01, 0x03, 0x01, 0x00, 0xFA]⟩ = .error (.badParameters 0x01) := by decide

/-! ### The checks on instruction terms -/

theorem test_wellFormed_broadcast_ping :
    (Instr.ping 0xFE).wellFormed = true := by decide

theorem test_wellFormed_no_address :
    (Instr.ping 0xFF).wellFormed = false := by decide

theorem test_wellFormed_read_no_address :
    (Instr.read 0xFF 0 1).wellFormed = false := by decide

theorem test_wellFormed_action_no_address :
    (Instr.action 0xFF).wellFormed = false := by decide

theorem test_wellFormed_reset_no_address :
    (Instr.reset 0xFF).wellFormed = false := by decide

theorem test_wellFormed_reboot_no_address :
    (Instr.reboot 0xFF).wellFormed = false := by decide

theorem test_wellFormed_write_four_bytes :
    (Instr.write 1 0x20 [1, 2, 3, 4]).wellFormed = true := by decide

theorem test_wellFormed_write_no_address :
    (Instr.write 0xFF 0x20 [1]).wellFormed = false := by decide

theorem test_wellFormed_write_no_data :
    (Instr.write 1 0x20 []).wellFormed = false := by decide

theorem test_wellFormed_write_five_bytes :
    (Instr.write 1 0x20 [1, 2, 3, 4, 5]).wellFormed = false := by decide

theorem test_wellFormed_regWrite_no_address :
    (Instr.regWrite 0xFF 0x20 [1]).wellFormed = false := by decide

theorem test_wellFormed_regWrite_no_data :
    (Instr.regWrite 1 0x20 []).wellFormed = false := by decide

theorem test_wellFormed_sync_no_device :
    (Instr.syncWrite 0x1E []).wellFormed = false := by decide

theorem test_wellFormed_sync_broadcast_device :
    (Instr.syncWrite 0x1E [⟨0xFE, [1]⟩]).wellFormed = false := by decide

theorem test_wellFormed_sync_descending :
    (Instr.syncWrite 0x1E [⟨2, [1]⟩, ⟨1, [1]⟩]).wellFormed = false := by decide

theorem test_wellFormed_sync_repeated :
    (Instr.syncWrite 0x1E [⟨2, [1]⟩, ⟨2, [1]⟩]).wellFormed = false := by decide

theorem test_wellFormed_sync_no_data :
    (Instr.syncWrite 0x1E [⟨2, []⟩]).wellFormed = false := by decide

theorem test_wellFormed_sync_unequal :
    (Instr.syncWrite 0x1E [⟨1, [1, 2]⟩, ⟨2, [1]⟩]).wellFormed = false := by decide

theorem test_wellFormed_sync_last_run :
    (Instr.syncWrite 0xFE [⟨1, [1, 2]⟩]).wellFormed = true := by decide

theorem test_wellFormed_sync_run_past_255 :
    (Instr.syncWrite 0xFF [⟨1, [1, 2, 3, 4, 5]⟩]).wellFormed = false := by decide

theorem test_wellFormed_sync_too_long :
    (Instr.syncWrite 0 [⟨1, List.replicate 252 0⟩]).wellFormed = false := by decide +kernel

theorem test_wellFormed_bulk_empty :
    (Instr.bulkRead []).wellFormed = false := by decide

theorem test_wellFormed_bulk_repeat :
    (Instr.bulkRead [⟨1, 2, 3⟩, ⟨1, 4, 5⟩]).wellFormed = false := by decide

theorem test_wellFormed_bulk_broadcast :
    (Instr.bulkRead [⟨0xFE, 2, 3⟩]).wellFormed = false := by decide

theorem test_wellFormed_bulk_too_long :
    (Instr.bulkRead ((List.range 85).map fun k => ⟨BitVec.ofNat 8 k, 1, 0⟩)).wellFormed = false := by decide +kernel

/-! ### The commands: 95_test_vectors.md sections 1 and 2 -/

/-- Section 2.2, `ping(0xFE)`. -/
theorem test_ping :
    run (.ping 0xFE)
      = some (.ok (.frame [0xFF#8, 0xFF#8, 0xFE#8, 0x02#8, 0x01#8, 0xFE#8])) := by decide

/-- Section 2.2. -/
theorem test_read :
    run (.read 1 0xFF 0xFF)
      = some (.ok (.frame [0xFF#8, 0xFF#8, 0x01#8, 0x04#8, 0x02#8, 0xFF#8, 0xFF#8, 0xFA#8])) := by decide

/-- Section 2.2. -/
theorem test_write :
    run (.write 0xFE 0x1E [0x78, 0x56, 0x34, 0x12])
      = some (.ok (.frame [0xFF#8, 0xFF#8, 0xFE#8, 0x07#8, 0x03#8, 0x1E#8, 0x78#8, 0x56#8, 0x34#8, 0x12#8, 0xC5#8])) := by decide

/-- Section 2.2. -/
theorem test_regWrite :
    run (.regWrite 3 0x1E [0xEF, 0xBE, 0xAD, 0xDE])
      = some (.ok (.frame [0xFF#8, 0xFF#8, 0x03#8, 0x07#8, 0x04#8, 0x1E#8, 0xEF#8, 0xBE#8, 0xAD#8, 0xDE#8, 0x9B#8])) := by decide

/-- Section 2.2. -/
theorem test_action :
    run (.action 0xFE)
      = some (.ok (.frame [0xFF#8, 0xFF#8, 0xFE#8, 0x02#8, 0x05#8, 0xFA#8])) := by decide

/-- Section 2.2. -/
theorem test_reset :
    run (.reset 0xFE)
      = some (.ok (.frame [0xFF#8, 0xFF#8, 0xFE#8, 0x02#8, 0x06#8, 0xF9#8])) := by decide

/-- Section 2.2. -/
theorem test_reboot :
    run (.reboot 0)
      = some (.ok (.frame [0xFF#8, 0xFF#8, 0x00#8, 0x02#8, 0x07#8, 0xF6#8])) := by decide

/-- Section 2.4. -/
theorem test_syncWrite :
    run (.syncWrite 0x20 [⟨1, [0x2C, 0x01]⟩, ⟨2, [0xFF, 0xFF]⟩])
      = some (.ok (.frame [0xFF#8, 0xFF#8, 0xFE#8, 0x0A#8, 0x83#8, 0x20#8, 0x02#8, 0x01#8, 0x2C#8, 0x01#8, 0x02#8, 0xFF#8, 0xFF#8, 0x24#8])) := by decide

/-- Section 2.4. -/
theorem test_bulkRead :
    run (.bulkRead [⟨2, 2, 36⟩, ⟨1, 2, 30⟩])
      = some (.ok (.frame [0xFF#8, 0xFF#8, 0xFE#8, 0x09#8, 0x92#8, 0x00#8, 0x02#8, 0x02#8, 0x24#8, 0x02#8, 0x01#8, 0x1E#8, 0x1D#8])) := by decide

/-- Program A, step A1. -/
theorem test_buildPing :
    run (.buildPing 1)
      = some (.ok (.packet ping1)) := by decide

/-- Section 2.2. -/
theorem test_buildPing_no_address :
    run (.buildPing 0xFF)
      = some (.error (.invalidDeviceId 0xFF)) := by decide

/-- Program B, step B1. -/
theorem test_buildRead :
    run (.buildRead 1 0x24 2)
      = some (.ok (.packet ⟨1, .instruction .read, [U 0x24 1, U 2 1], 0xD2⟩)) := by decide

/-- Section 2.2. -/
theorem test_buildWrite :
    run (.buildWrite 1 0x20 (S (-1) 2))
      = some (.ok (.packet ⟨1, .instruction .write, [U 0x20 1, S (-1) 2], 0xD8⟩)) := by decide

/-- Section 2.2. -/
theorem test_buildWrite_too_wide :
    run (.buildWrite 1 0x20 (U 256 1))
      = some (.error .parameterTooWide) := by decide

/-- V-S4. -/
theorem test_buildRegWrite :
    run (.buildRegWrite 1 30 (U 500 2))
      = some (.ok (.packet ⟨1, .instruction .regWrite, [U 30 1, U 500 2], 0xE2⟩)) := by decide

/-- Section 2.2. -/
theorem test_buildRegWrite_no_address :
    run (.buildRegWrite 0xFF 0x20 (U 1 1))
      = some (.error (.invalidDeviceId 0xFF)) := by decide

/-- Section 2.2. -/
theorem test_buildAction :
    run (.buildAction 1)
      = some (.ok (.packet ⟨1, .instruction .action, [], 0xF7⟩)) := by decide

/-- Section 2.2. -/
theorem test_buildReset :
    run (.buildReset 1)
      = some (.ok (.packet ⟨1, .instruction .reset, [], 0xF6⟩)) := by decide

/-- Section 2.2. -/
theorem test_buildReboot :
    run (.buildReboot 0xFE)
      = some (.ok (.packet ⟨0xFE, .instruction .reboot, [], 0xF8⟩)) := by decide

/-- V-S5, in the order of section 2.4. -/
theorem test_buildSyncWrite :
    run (.buildSyncWrite sync5)
      = some (.ok (.packet ⟨0xFE, .instruction .syncWrite, [U 0x1E 1, U 4 1, U 0 1, U 0x10 2,
        U 0x150 2, U 1 1, U 0x220 2, U 0x360 2], 0x67⟩)) := by decide

/-- Section 2.4. -/
theorem test_buildSyncWrite_past_255 :
    run (.buildSyncWrite [⟨1, 0xFE, U 1 2⟩, ⟨1, 0xFF, U 1 2⟩])
      = some (.error .inconsistentAddresses) := by decide

/-- V-S6. -/
theorem test_buildBulkRead :
    run (.buildBulkRead bulk6)
      = some (.ok (.packet ⟨0xFE, .instruction .bulkRead, [U 0 1, U 2 1, U 1 1, U 30 1, U 2 1,
        U 2 1, U 36 1], 0x1D⟩)) := by decide

/-- Section 2.4. -/
theorem test_buildBulkRead_repeat :
    run (.buildBulkRead [⟨3, 1, 1⟩, ⟨1, 2, 30⟩, ⟨1, 2, 36⟩, ⟨3, 4, 40⟩])
      = some (.error (.duplicateDeviceId 1)) := by decide

/-- Section 2.2, D23. -/
theorem test_generate_recomputes :
    run (.generate ⟨1, .instruction .ping, [], 0⟩)
      = some (.ok (.frame [0xFF#8, 0xFF#8, 0x01#8, 0x02#8, 0x01#8, 0xFB#8])) := by decide

/-- Section 2.2. -/
theorem test_generate_status :
    run (.generate status1)
      = some (.error .notAnInstruction) := by decide

/-- Section 2.2. -/
theorem test_parse_read :
    run (.parse [0xFF#8, 0xFF#8, 0x01#8, 0x04#8, 0x20#8, 0x34#8, 0x12#8, 0x94#8] 2 2)
      = some (.ok (.packet ⟨1, .status (flags [.overheating]), [U 0x1234 2], 0x94⟩)) := by decide

/-- Section 2.2. -/
theorem test_parse_write :
    run (.parse [0xFF#8, 0xFF#8, 0x01#8, 0x04#8, 0x00#8, 0xF4#8, 0x01#8, 0x05#8] 3 0)
      = some (.ok (.packet ⟨1, .status noFlags, [U 0xF4 1, U 1 1], 5⟩)) := by decide

/-- Section 2.2. -/
theorem test_expectedReplyLength :
    run (.expectedReplyLength 2 4)
      = some (.ok (.replyLength (some 10))) := by decide

/-- Section 2.2. -/
theorem test_expectedReplyLength_zero :
    run (.expectedReplyLength 2 0)
      = some (.error .unsupportedReadLength) := by decide

/-- Section 2.2 and program A, step A2. -/
theorem test_send :
    openAfter (exec (.send ping1 1 0) (start [.ok 6] []))
      = some (some ⟨⟨.ping, 0⟩, 6⟩) := by decide

/-- Section 2.2. -/
theorem test_send_short :
    answer (exec (.send ping1 1 0) (start [.ok 3] []))
      = some (.error (.transportError (.shortWrite 3))) := by decide

/-- Program A, step A3. -/
theorem test_receive :
    answer (exec .receive (during ⟨⟨.ping, 0⟩, 6⟩ [] [.ok [0xFF#8, 0xFF#8, 0x01#8, 0x02#8, 0x00#8, 0xFC#8]]))
      = some (.ok (.packet status1)) := by decide

/-- Section 2.2. -/
theorem test_receive_ends :
    openAfter (exec .receive (during ⟨⟨.read, 2⟩, 8⟩ [] [.err .timeout]))
      = some none := by decide

/-- Section 2.2. -/
theorem test_checksum :
    run (.checksum 0xFF 0xFF 0xFF (List.replicate 10 0xFF))
      = some (.ok (.byte 0x0C)) := by decide

/-- Section 2.2. -/
theorem test_checksum_zero :
    run (.checksum 0 0 0 [0xFF])
      = some (.ok (.byte 0)) := by decide

/-- Section 2.1. -/
theorem test_paramUnsigned :
    run (.paramUnsigned (BitVec.ofNat 64 (2 ^ 32)) 4)
      = some (.error .parameterTooWide) := by decide

/-- Section 2.1. -/
theorem test_paramUnsigned_width_first :
    run (.paramUnsigned (BitVec.ofNat 64 (2 ^ 40)) 0)
      = some (.error .invalidByteLength) := by decide

/-- Section 2.1. -/
theorem test_paramSigned :
    run (.paramSigned (BitVec.ofInt 64 (-128)) 1)
      = some (.ok (.parameter (S (-128) 1))) := by decide

/-- Section 2.1. -/
theorem test_paramSigned_too_wide :
    run (.paramSigned (BitVec.ofInt 64 (-129)) 1)
      = some (.error .parameterTooWide) := by decide

/-- Section 2.1. -/
theorem test_paramAsBytes :
    run (.paramAsBytes (S (-32768) 2))
      = some (.ok (.bytes [0x00, 0x80])) := by decide

/-- Section 2.1. -/
theorem test_paramAsBytes_too_wide :
    run (.paramAsBytes (U 256 1))
      = some (.error .parameterTooWide) := by decide

/-- Section 2.1. -/
theorem test_paramFromSlice :
    run (.paramFromSlice [S (-2) 1, U 0x123456 3, S (-100000) 4])
      = some (.ok (.bytes [0xFE#8, 0x56#8, 0x34#8, 0x12#8, 0x60#8, 0x79#8, 0xFE#8, 0xFF#8])) := by decide

/-- Section 2.1. -/
theorem test_opcodeEncode :
    run (.opcodeEncode .bulkRead)
      = some (.ok (.byte 0x92)) := by decide

/-- Section 2.1. -/
theorem test_opcodeDecode :
    run (.opcodeDecode 0x09)
      = some (.error (.unknownInstruction 0x09)) := by decide

/-- Section 2.3, R170: bit 0 is ignored. -/
theorem test_statusDecode :
    run (.statusDecode 0x25)
      = some (.ok (.flags (flags [.overload, .overheating]))) := by decide

/-- Section 2.3. -/
theorem test_statusEncode :
    run (.statusEncode [.overload, .overheating])
      = some (.ok (.byte 0x24)) := by decide

/-- Section 2.3, D10. -/
theorem test_statusEncode_success :
    run (.statusEncode [.overload, .success])
      = some (.ok (.byte 0)) := by decide

/-! ### The step -/

/-- Section 2.5. -/
theorem test_unassigned_command :
    answer (step ((start [] []).withCommand [0x50]))
      = some (.error .illegalCommand) := by decide

/-- Section 2.5, RESET. -/
theorem test_reset_event :
    openAfter (step ⟨some ⟨⟨.read, 2⟩, 8⟩, testConfig, [.reset], [], [], [], []⟩) = some none := by decide

/-- R261. -/
theorem test_waits_for_host :
    step (start [] []) = .next (start [] []) := rfl

theorem test_table_word_receive :
    decodeTableWord 8 0x14 = some .receive := by decide

/-- log 4. -/
theorem test_table_word_buildPing :
    decodeTableWord 8 0x01 = some (.buildPing 0) := by decide

theorem test_table_word_generate :
    decodeTableWord 8 0x10 = some (.generate ⟨0, .instruction .ping, [], 0⟩) := by decide

theorem test_fetch_word_runs :
    step ((start [] []).withFetchWord 8 0x14) = exec .receive (start [] []) := rfl

theorem test_reset_fetch_word_runs :
    answer (step (State.reset.withFetchWord 8 0x14)) = some (.error .noExchange) := by decide

/-- Section 2.4, the setting that is not this hardware. -/
theorem test_countOnly :
    buildSyncWrite ⟨.reject, .countOnly, .shortCircuit, default⟩ [⟨0, 0x1E, U 1 2⟩, ⟨1, 0x20, U 1 2⟩]
      = .ok ⟨0xFE, .instruction .syncWrite, [U 0x1E 1, U 2 1, U 0 1, U 1 2, U 1 1, U 1 2], 0x51⟩ := by decide

/-- R220. -/
theorem test_error_codes :
    [CmdError.noDynamixels, .inconsistentSize, .inconsistentLength, .inconsistentAddresses, .duplicateDeviceId 1,
        .invalidDeviceId 1, .parameterTooWide, .invalidByteLength, .frameTooLong, .notAnInstruction, .invalidHeader,
        .invalidLength, .invalidChecksum, .unknownInstruction 1, .unsupportedReadLength, .transportError (.shortWrite 1),
        .exchangeInFlight, .noExchange, .illegalCommand].map errorCode
      = [0x01, 0x02, 0x03, 0x04, 0x05, 0x06, 0x07, 0x08, 0x09, 0x0A, 0x10, 0x11, 0x12, 0x13, 0x14, 0x20, 0x21, 0x22, 0xFF] := by decide

/-- R220, R223. -/
theorem test_error_payload :
    errorPayload (.duplicateDeviceId 0x05) = .byte 0x05 ∧ responseCode (.ok (.byte 0x05)) = 0x00 := by decide

/-! ### Witnesses: for each statement, a state and operands that meet its hypotheses, clause by clause

The statement each one serves stands in its name; the hypotheses are those of its clauses, in their order. -/

/-- A frame of a parameter block, as R140 reads it. -/
def replyFrame : List Byte := [0xFF, 0xFF, 0x01, 0x02, 0x00, 0xFC]

/-- An open Ping exchange. -/
def pinged : State := during ⟨⟨.ping, 0⟩, 6⟩ [0xFF, 0xFF, 0x01, 0x02, 0x01, 0xFB] [.ok replyFrame]

/-- A state with the host's events. -/
def withEvents (s : State) (es : List HostEvent) : State := s.withHost es

theorem start_inv (tx : List TxResult) (rx : List RxResult) : (start tx rx).Inv :=
  ⟨⟨rfl, rfl, rfl⟩, rfl, by intro x h; cases h⟩

theorem pinged_inv : pinged.Inv :=
  ⟨⟨rfl, rfl, rfl⟩, by decide, by intro x h; cases h; exact ⟨by decide, rfl⟩⟩

theorem witness_ResetClearsOnlyTheExchange :
    (withEvents pinged [.reset]).host = .reset :: []
    ∧ (withEvents pinged [.resetDuring (encode .receive) false]).host = .resetDuring (encode .receive) false :: []
    ∧ ((withEvents (start [.ok 6] []) [.resetDuring (encode (.send ping1 1 0)) true]).host
          = .resetDuring (encode (.send ping1 1 0)) true :: []
      ∧ (start [.ok 6] []).outstanding = none
      ∧ expectedReplyLength testConfig.replyLenOther 1 0 = .ok (some 6)
      ∧ generate ping1 = .ok [0xFF, 0xFF, 0x01, 0x02, 0x01, 0xFB])
    ∧ ((withEvents pinged [.resetDuring (encode .receive) true]).host = .resetDuring (encode .receive) true :: []
      ∧ pinged.outstanding = some ⟨⟨.ping, 0⟩, 6⟩) := by decide

theorem witness_StepRunsTheDecodedInstruction :
    (withEvents pinged [.issue ⟨.hostCommand, [0x14]⟩]).host = .issue ⟨.hostCommand, [0x14]⟩ :: []
    ∧ decode ⟨.hostCommand, [0x14]⟩ = .ok .receive ∧ pinged.host = [] := by decide

theorem witness_UnassignedCodesAnswerIllegalCommand :
    (0x00#8 ∉ [0x01#8, 0x02#8, 0x03#8, 0x04#8, 0x05#8, 0x06#8, 0x07#8, 0x83#8, 0x92#8, 0x10#8, 0x11#8, 0x12#8, 0x13#8,
      0x14#8, 0x15#8, 0x20#8, 0x21#8, 0x22#8, 0x23#8, 0x30#8, 0x31#8, 0x40#8, 0x41#8])
    ∧ (withEvents pinged [.issue ⟨.hostCommand, [0x00, 0x14]⟩]).host = .issue ⟨.hostCommand, 0x00 :: [0x14]⟩ :: [] := by
  decide

theorem witness_DecodeOfEncodeIsTheInstruction :
    (Instr.syncWrite 0xFE [⟨1, [1, 2]⟩]).wellFormed = true ∧ (Instr.bulkRead bulk6).wellFormed = true
    ∧ (Instr.write 0xFE 0xFF [1, 2, 3, 4]).wellFormed = true ∧ (Instr.receive).wellFormed = true := by decide

theorem witness_DecodedBytesAreTheEncoding :
    decode ⟨.wireFrame, [0xFF, 0xFF, 0x01, 0x02, 0x01, 0xFB]⟩ = .ok (.ping 1)
    ∧ decode ⟨.hostCommand, [0x12, 0x02, 0x04]⟩ = .ok (.expectedReplyLength 2 4) := by decide

theorem witness_ParamAsBytesIsLittleEndian :
    paramError .reject (U 1 0) = some .invalidByteLength ∧ paramError .reject (U 1 5) = some .invalidByteLength
    ∧ paramError .reject (U 256 1) = some .parameterTooWide ∧ paramError .reject (U 255 1) = none
    ∧ paramError .reject (S (-128) 1) = none ∧ paramError .reject (S (-129) 1) = some .parameterTooWide
    ∧ wellFormedParam (U 0xFFFFFFFF 4) = true ∧ wellFormedParam (S (-128) 1) = true := by decide

theorem witness_ParamFromSliceConcatenates :
    ([U 1 1, U 1 7] = [U 1 1] ++ U 1 7 :: [] ∧ (∀ q ∈ [U 1 1], paramError .reject q = none)
      ∧ paramError .reject (U 1 7) = some .invalidByteLength)
    ∧ (∀ p ∈ [U 255 1, S (-1) 4], paramError .reject p = none) := by decide

theorem witness_OpcodeVocabularyIsBidirectional :
    ((InstructionCode.bulkRead, 0x92#8) ∈ [(InstructionCode.ping, 0x01#8), (.read, 0x02#8), (.write, 0x03#8),
        (.regWrite, 0x04#8), (.action, 0x05#8), (.reset, 0x06#8), (.reboot, 0x07#8), (.syncWrite, 0x83#8),
        (.bulkRead, 0x92#8)])
    ∧ 0x08#8 ∉ [0x01#8, 0x02#8, 0x03#8, 0x04#8, 0x05#8, 0x06#8, 0x07#8, 0x83#8, 0x92#8] := by decide

theorem witness_StatusEncodeOrsTheBits :
    StatusFlag.success ∈ [StatusFlag.overload, .success] ∧ StatusFlag.success ∉ [StatusFlag.overload] := by decide

theorem witness_StatusCodecRoundTrips :
    StatusFlag.success ∉ [StatusFlag.instruction, .inputVoltage] ∧ StatusFlag.success ∈ [StatusFlag.success] := by decide

theorem witness_ChecksumValidIffBytesSumTo255 : 6 ≤ replyFrame.length ∧ checksumValid replyFrame = true := by decide

theorem witness_EmptyBlockBuildersMakeSixByteFrames :
    ((Instr.buildReboot 0xFE, InstructionCode.reboot, 0x07#8) ∈ [(Instr.buildPing 0xFE, InstructionCode.ping, 0x01#8),
        (.buildAction 0xFE, .action, 0x05#8), (.buildReset 0xFE, .reset, 0x06#8), (.buildReboot 0xFE, .reboot, 0x07#8)])
    ∧ 0xFE#8 ≠ 0xFF#8 ∧ 0xFF#8 = (0xFF#8 : Byte) := by decide

theorem witness_ReadBuilderMakesEightByteFrame :
    0xFE#8 ≠ 0xFF#8 ∧ 0xFF#8 = (0xFF#8 : Byte) ∧ ¬ (1 ≤ (0#8 : Byte).toNat ∧ (0#8 : Byte).toNat ≤ 4)
    ∧ ¬ (1 ≤ (5#8 : Byte).toNat ∧ (5#8 : Byte).toNat ≤ 4) ∧ (start [] []).outstanding = none := by decide

theorem witness_WriteBuildersCarryRegisterAndData :
    ((Instr.buildRegWrite 0xFE 0 (U 1 1), InstructionCode.regWrite, 0x04#8) ∈
      [(Instr.buildWrite 0xFE 0 (U 1 1), InstructionCode.write, 0x03#8), (.buildRegWrite 0xFE 0 (U 1 1), .regWrite, 0x04#8)])
    ∧ 0xFE#8 ≠ 0xFF#8 ∧ paramError .reject (U 256 1) = some .parameterTooWide
    ∧ paramError .reject (U 0xFFFFFFFF 4) = none ∧ wellFormedParam (U 0xFFFFFFFF 4) = true := by decide

theorem witness_BuildersReturnWellFormedPackets :
    isBuilder (.buildPing 1) = true ∧ (start [] []).config.isHardware
    ∧ exec (.buildPing 1) (start [] []) = .next { start [] [] with responses := [.ok (.packet ping1)] } :=
  ⟨rfl, ⟨rfl, rfl, rfl⟩, rfl⟩

theorem witness_GenerateChecksThenSerializes :
    wellFormedPacket ping1 = true ∧ status1.operation = .status noFlags ∧ ping1.operation = .instruction .ping ∧ ping1.deviceAddress ≠ 0xFF#8
    ∧ firstParamError .reject [U 1 1, U 256 1, U 1 0] = some .parameterTooWide
    ∧ firstParamError .reject (List.replicate 254 (U 0 1)) = none
    ∧ ((List.replicate 254 (U 0 1)).map asBytes).flatten.length = 254
    ∧ ((List.replicate 253 (U 0 1)).map asBytes).flatten.length = 253 := by decide +kernel

theorem witness_GeneratedFramesAreLawful :
    exec (.generate ping1) (start [] [])
        = .next { start [] [] with responses := [.ok (.frame [0xFF, 0xFF, 0x01, 0x02, 0x01, 0xFB])] } := rfl

theorem witness_DecoderMachineAgreesWithParse :
    codeOf 0x02#8 = some .read ∧ codeOf 0x08#8 = none
    ∧ (∃ p, DecoderState.parsed ping1 = .parsed p) ∧ (∃ e, DecoderState.rejected .invalidHeader = .rejected e) :=
  ⟨rfl, rfl, ⟨ping1, rfl⟩, ⟨.invalidHeader, rfl⟩⟩

/-- A Ping frame in a Ping context, a one-value frame in Read contexts, any frame in a Write context. -/
theorem witness_ParseOfGenerateKeepsContent :
    isBuilder (.buildPing 1) = true ∧ (start [] []).config.isHardware
    ∧ exec (.buildPing 1) (start [] []) = .next { start [] [] with responses := [.ok (.packet ping1)] }
    ∧ codeOf 0x01#8 = some .ping ∧ (fromSlice ping1.parameters).length = 0
    ∧ codeOf 0x02#8 = some .read ∧ 1 ≤ (0x02#8 : Byte).toNat ∧ (0x02#8 : Byte).toNat ≤ 4
    ∧ answer (exec (.buildRead 1 0x24 2) (start [] []))
        = some (.ok (.packet ⟨1, .instruction .read, [U 0x24 1, U 2 1], 0xD2⟩))
    ∧ (fromSlice [U 0x24 1, U 2 1]).length = (0x02#8 : Byte).toNat ∧ codeOf 0x03#8 = some .write :=
  ⟨rfl, ⟨rfl, rfl, rfl⟩, rfl, rfl, rfl, rfl, by decide, by decide, by decide, by decide, rfl⟩

theorem witness_DeviceErrorsAreDataInAnOkResponse :
    (codeOf 0x01#8 = some .ping ∧ ([] : List Byte).length ≤ 253)
    ∧ (codeOf 0x02#8 = some .read ∧ 1 ≤ (0x04#8 : Byte).toNat ∧ (0x04#8 : Byte).toNat ≤ 4
      ∧ ([1, 2, 3, 4] : List Byte).length = (0x04#8 : Byte).toNat)
    ∧ (codeOf 0x03#8 = some .write ∧ (List.replicate 253 0x00#8).length ≤ 253) := by decide +kernel

theorem witness_ExpectedReplyLengthByContext :
    (1 ≤ (1#8 : Byte).toNat ∧ (1#8 : Byte).toNat ≤ 4) ∧ (1 ≤ (4#8 : Byte).toNat ∧ (4#8 : Byte).toNat ≤ 4)
    ∧ ¬ (1 ≤ (0#8 : Byte).toNat ∧ (0#8 : Byte).toNat ≤ 4) ∧ ¬ (1 ≤ (5#8 : Byte).toNat ∧ (5#8 : Byte).toNat ≤ 4)
    ∧ codeOf 0x08#8 = none ∧ codeOf 0x00#8 = none := by decide

theorem witness_SendWritesOneFrameAndOpensTheExchange :
    pinged.outstanding = some ⟨⟨.ping, 0⟩, 6⟩ ∧ (start [] []).outstanding = none
    ∧ expectedReplyLength testConfig.replyLenOther 0x08 0 = .error (.unknownInstruction 0x08)
    ∧ expectedReplyLength testConfig.replyLenOther 0x01 0 = .ok (some 6)
    ∧ expectedReplyLength testConfig.replyLenOther 0x83 0 = .ok none
    ∧ generate status1 = .error .notAnInstruction
    ∧ generate ping1 = .ok [0xFF, 0xFF, 0x01, 0x02, 0x01, 0xFB]
    ∧ (start [.err .timeout] []).txAnswer = .err .timeout
    ∧ (start [.ok 5] []).txAnswer = .ok 5 ∧ (start [.ok 6] []).txAnswer = .ok 6 := by decide

/-- A whole status frame of 7 bytes: not the 6 bytes an exchange of length 6 asks for (R151). -/
def longReply : List Byte := [0xFF, 0xFF, 0x01, 0x03, 0x00, 0x05, 0xF6]

/-- An open Write exchange of length 6 whose transport answers with the given bytes. -/
def written (bytes : List Byte) : State := during ⟨⟨.write, 0⟩, 6⟩ [] [.ok bytes]

theorem witness_ReceiveReadsTheReplyAndEndsTheExchange :
    (start [] []).outstanding = none ∧ pinged.outstanding = some ⟨⟨.ping, 0⟩, 6⟩
    ∧ pinged.rxAnswer 6 = .ok replyFrame ∧ replyFrame.length = 6
    ∧ (during ⟨⟨.ping, 0⟩, 6⟩ [] [.err .timeout]).rxAnswer 6 = .err .timeout
    ∧ ((written longReply).rxAnswer 6 = .ok longReply ∧ longReply.length ≠ 6 ∧ longReply.take 2 = [0xFF, 0xFF])
    ∧ ((written []).rxAnswer 6 = .ok [] ∧ ([] : List Byte).length ≠ 6) := by decide

/-- The reply of 7 bytes, which PARSE alone accepts in the context, is rejected for its length, and the exchange ends
(R151). -/
theorem witness_OnlyRepliesOfTheAskedLengthAreAccepted :
    (start [] []).rxAnswers = [] ∧ pinged.outstanding = some ⟨⟨.ping, 0⟩, 6⟩
    ∧ answer (exec .receive pinged) = some (.ok (.packet status1))
    ∧ answer (exec (.parse longReply 3 0) (start [] [])) = some (.ok (.packet ⟨1, .status noFlags, [U 5 1], 0xF6⟩))
    ∧ answer (exec .receive (written longReply)) = some (.error .invalidLength)
    ∧ openAfter (exec .receive (written longReply)) = some none := by decide

theorem witness_MalformedDataNeverStopsTheBlock :
    pinged.outstanding = some ⟨⟨.ping, 0⟩, 6⟩ ∧ pinged.rxAnswer 6 = .ok replyFrame
    ∧ (written longReply).rxAnswer 6 = .ok longReply := by decide

/-- V-S5's two devices. -/
def devices5 : List (Byte × List Parameter) := [(0, [U 0x10 2, U 0x150 2]), (1, [U 0x220 2, U 0x360 2])]

/-- Their entries at the highest first address that fits, 0xFD, in another order than the frame's. -/
def entries5 : List SyncWriteEntry :=
  [⟨1, 0xFF, U 0x360 2⟩, ⟨0, 0xFD, U 0x10 2⟩, ⟨1, 0xFD, U 0x220 2⟩, ⟨0, 0xFF, U 0x150 2⟩]

theorem witness_SyncWriteAggregatesInAnyOrder :
    devices5 ≠ [] ∧ (devices5.map fun d => d.1.toNat).Pairwise (· < ·) ∧ (∀ d ∈ devices5, d.1.toNat ≤ 253)
    ∧ 1 ≤ 2 ∧ (∀ d ∈ devices5, d.2.length = 2)
    ∧ (∀ d ∈ devices5, ∀ p ∈ d.2, wellFormedParam p = true ∧ p.byteLength.toNat = 2)
    ∧ (0xFD#8 : Byte).toNat + (2 - 1) * 2 ≤ 255 ∧ 2 + devices5.length * (1 + 2 * 2) ≤ 253
    ∧ entries5.Perm (devices5.flatMap fun d =>
      d.2.mapIdx fun k p => (⟨d.1, BitVec.ofNat 8 ((0xFD#8 : Byte).toNat + k * 2), p⟩ : SyncWriteEntry)) := by decide

/-- One entry list for each rejection of 95_test_vectors.md section 2.4. -/
theorem witness_SyncWriteRejectsInOrder :
    ((∀ x ∈ [(⟨1, 0x1E, U 1 1⟩ : SyncWriteEntry)], x.deviceId.toNat ≤ 253) ∧ 253 < (0xFE#8 : Byte).toNat)
    ∧ firstParamError .reject ([(⟨1, 0x1E, U 1 0⟩ : SyncWriteEntry)].map SyncWriteEntry.data) = some .invalidByteLength
    ∧ (∀ x ∈ ([⟨0, 0x1E, U 1 2⟩, ⟨1, 0x1E, U 1 1⟩] : List SyncWriteEntry), paramError .reject x.data = none)
    ∧ (∃ x ∈ ([⟨1, 0x1E, U 1 1⟩] : List SyncWriteEntry), x.data.byteLength ≠ (U 1 2).byteLength)
    ∧ (∃ x ∈ ([⟨0, 0x20, U 1 2⟩, ⟨1, 0x1E, U 1 2⟩] : List SyncWriteEntry),
        (entriesFor x.deviceId [⟨0, 0x1E, U 1 2⟩, ⟨0, 0x20, U 1 2⟩, ⟨1, 0x1E, U 1 2⟩]).length
          ≠ (entriesFor 0 [⟨0, 0x1E, U 1 2⟩, ⟨0, 0x20, U 1 2⟩, ⟨1, 0x1E, U 1 2⟩]).length) := by decide

theorem witness_SyncWriteRejectsInOrder_addresses :
    ¬ ∃ a0 : Nat, ∀ x ∈ ([⟨1, 0xFE, U 1 2⟩, ⟨1, 0xFF, U 1 2⟩] : List SyncWriteEntry),
      (addressesFor x.deviceId [⟨1, 0xFE, U 1 2⟩, ⟨1, 0xFF, U 1 2⟩]).Perm (addressRun a0 2 2) := by
  rintro ⟨a0, h⟩
  have h := h _ (List.mem_cons_self ..)
  have h1 := h.mem_iff (a := 254)
  have h2 := h.mem_iff (a := 255)
  simp [addressesFor, entriesFor, addressRun] at h1 h2
  omega

/-- 51 devices with four data bytes each at 0x10: one more than fit (95_test_vectors.md section 2.4). -/
def fiftyOne : List SyncWriteEntry := (List.range 51).map fun k => ⟨BitVec.ofNat 8 k, 0x10, U 0 4⟩

theorem witness_SyncWriteRejectsInOrder_length :
    (∀ x ∈ fiftyOne, (addressesFor x.deviceId fiftyOne).Perm (addressRun 0x10 4 1))
    ∧ 253 < 2 + (fiftyOne.map SyncWriteEntry.deviceId).dedup.length * (1 + 1 * 4) := by decide +kernel

theorem witness_BulkReadKeepsEntryOrder :
    bulk6 ≠ [] ∧ (bulk6.map BulkReadEntry.deviceId).Nodup ∧ (∀ e ∈ bulk6, e.deviceId.toNat ≤ 253)
    ∧ bulk6.length ≤ 84 := by decide

/-- 85 entries with ids 0..84: one more than fit (95_test_vectors.md section 2.4). -/
def eightyFive : List BulkReadEntry := (List.range 85).map fun k => ⟨BitVec.ofNat 8 k, 1, 0⟩

theorem witness_BulkReadRejectsInOrder :
    (([⟨3, 1, 1⟩, ⟨1, 2, 30⟩] : List BulkReadEntry).map BulkReadEntry.deviceId).Nodup
    ∧ (1 : Byte) ∈ ([⟨3, 1, 1⟩, ⟨1, 2, 30⟩] : List BulkReadEntry).map BulkReadEntry.deviceId
    ∧ (([(⟨1, 2, 30⟩ : BulkReadEntry)] ++ (⟨0xFE, 2, 36⟩ : BulkReadEntry) :: []).map BulkReadEntry.deviceId).Nodup
    ∧ 253 < (0xFE#8 : Byte).toNat
    ∧ (eightyFive.map BulkReadEntry.deviceId).Nodup ∧ (∀ x ∈ eightyFive, x.deviceId.toNat ≤ 253)
    ∧ 84 < eightyFive.length := by decide +kernel

theorem witness_WireInstructionsEmitTheirEncoding :
    (Instr.syncWrite 0x1E [⟨253, [1, 2, 3, 4, 5]⟩]).isWire = true
    ∧ (Instr.syncWrite 0x1E [⟨253, [1, 2, 3, 4, 5]⟩]).wellFormed = true
    ∧ (Instr.ping 0xFE).wellFormed = true ∧ (Instr.read 0 0xFF 0xFF).wellFormed = true
    ∧ (Instr.write 0 0xFF [1]).wellFormed = true ∧ (Instr.regWrite 0 0xFF [1, 2, 3, 4]).wellFormed = true
    ∧ (Instr.action 0).wellFormed = true ∧ (Instr.reset 0).wellFormed = true ∧ (Instr.reboot 0).wellFormed = true
    ∧ (Instr.bulkRead bulk6).wellFormed = true := by decide

theorem witness_OnlySendAndReceiveHaveSideEffects :
    isExchange (.buildPing 1) = false ∧ (start [] []).config = pinged.config := ⟨rfl, rfl⟩

theorem witness_OnlyTheListedCommandsReadTheConstants :
    readsConstants (.generate ping1) = false ∧ readsConstants .receive = false
    ∧ (⟨.truncate, .countOnly, .shortCircuit, testConfig.replyLenOther⟩ : Config).replyLenOther
        = (start [] []).config.replyLenOther
    ∧ ∃ t, exec (.generate ping1) (start [] []) = .next t := ⟨rfl, rfl, rfl, _, rfl⟩

theorem witness_ErrorsComeFromTheirCommands :
    (start [] []).Inv ∧ Instr.receive.isWire = false
    ∧ exec .receive (start [] []) = .next { start [] [] with responses := [.error .noExchange] } :=
  ⟨start_inv _ _, rfl, rfl⟩

/-- Each clause: an error before any call, SEND's TransportError, RECEIVE's errors with and without an exchange. -/
theorem witness_ErrorResponsesChangeNothingElse :
    exec (.buildPing 0xFF) (start [] []) = .next { start [] [] with responses := [.error (.invalidDeviceId 0xFF)] }
    ∧ answer (exec (.send ping1 1 0) (start [.err .timeout] [])) = some (.error (.transportError (.io .timeout)))
    ∧ exec .receive (start [] []) = .next { start [] [] with responses := [.error .noExchange] }
    ∧ answer (exec .receive (during ⟨⟨.ping, 0⟩, 6⟩ [] [.err .timeout])) = some (.error (.transportError (.io .timeout))) :=
  ⟨rfl, rfl, rfl, rfl⟩

theorem witness_StepsNeverChangeTheConstants : step (start [] []) = .next (start [] []) := rfl

theorem witness_EveryStepKeepsTheInvariant :
    (withEvents pinged [.issue (encode .receive)]).Inv
    ∧ ∃ t, step (withEvents pinged [.issue (encode .receive)]) = .next t :=
  ⟨⟨⟨rfl, rfl, rfl⟩, by decide, by intro x h; cases h; exact ⟨by decide, rfl⟩⟩, ⟨_, rfl⟩⟩

theorem witness_ReadsFollowAFullyWrittenRequest :
    (withEvents pinged [.issue (encode .receive)]).Inv
    ∧ ∃ t, step (withEvents pinged [.issue (encode .receive)]) = .next t
      ∧ t.bus = .readExact 6 (.ok replyFrame) :: (withEvents pinged [.issue (encode .receive)]).bus :=
  ⟨⟨⟨rfl, rfl, rfl⟩, by decide, by intro x h; cases h; exact ⟨by decide, rfl⟩⟩, ⟨_, rfl, rfl⟩⟩

theorem witness_OneExchangeIsInFlight :
    ∃ t, step (withEvents (start [.ok 6] []) [.issue (encode (.send ping1 1 0))]) = .next t
      ∧ t.bus = [.write [0xFF, 0xFF, 0x01, 0x02, 0x01, 0xFB] (.ok 6)] := ⟨_, rfl, rfl⟩

end Sys2Proof.Tests
end

section
/-! PROOFS. The contract of the transport and the atomic step (00_scope.md R8, R9). -/

namespace Sys2Proof.Machine

/-! ### One equation for each way a step takes an event -/

/-- Bytes that decode are run as their instruction. -/
theorem runEncoded_of_decode {e : Encoded} {i : Instr} (h : decode e = .ok i)
    (run : Instr → State → Host.Outcome State Fault Refusal) (s : State) : runEncoded run e s = run i s := by
  simp only [runEncoded, h]

/-- An issued command is run with its event taken off the queue (R8). -/
theorem step_of_issue {s : State} {e : Encoded} {rest : List HostEvent} (h : s.host = .issue e :: rest) :
    step s = runEncoded exec e (s.withHost rest) := by
  simp only [step, takeEvent, h]

/-- With no event the block waits (R261). -/
theorem step_of_no_event {s : State} (h : s.host = []) : step s = .next s := by
  simp only [step, takeEvent, h]

/-- Settles O3: the equation of an issued event, then that of bytes that decode. -/
theorem stepRunsTheDecodedInstruction : Obligations.StepRunsTheDecodedInstruction := by
  intro s
  refine ⟨fun e i rest hhost hdecode => ?_, step_of_no_event⟩
  calc step s = runEncoded exec e (s.withHost rest) := step_of_issue hhost
    _ = exec i (s.withHost rest) := runEncoded_of_decode hdecode exec _

/-! ### An OK answer of RECEIVE comes from an accepted reply -/

/-- An OK response comes from an OK result. -/
theorem resultResponse_eq_ok {r : Except CmdError Payload} {v : Payload} : resultResponse r = .ok v ↔ r = .ok v := by
  cases r <;> simp

/-- A packet answer is OK when its builder or parser is. -/
theorem packetResult_eq_ok {r : Except CmdError Packet} {v : Payload} :
    packetResult r = .ok v ↔ ∃ p, r = .ok p ∧ v = .packet p := by
  cases r <;> simp [packetResult, eq_comm]

/-- When RECEIVE answers OK in an open exchange, the transport answered bytes that the reply's parser accepts (R151). -/
theorem receive_ok {s t : State} {x : Exchange} {v : Payload} (hx : s.outstanding = some x)
    (h : exec .receive s = .next t) (hr : t.responses = .ok v :: s.responses) :
    ∃ bytes p, s.rxAnswer x.expect = .ok bytes ∧ parseReply x bytes = .ok p ∧ v = .packet p := by
  have ht : receiveState s = t := Host.Outcome.next.inj h
  rcases receiveState_cases s with ⟨hnone, -⟩ | ⟨y, hy, r, heq, hanswer⟩
  · rw [hx] at hnone; cases hnone
  · obtain rfl : x = y := Option.some.inj (hx.symm.trans hy)
    have hresp : r = .ok v := by
      rw [← ht, heq] at hr
      simpa using hr
    rcases hanswer with ⟨e, -, herr⟩ | ⟨bytes, hbytes, hres⟩
    · rw [hresp] at herr; cases herr
    · obtain ⟨p, hp, hv⟩ := packetResult_eq_ok.mp (resultResponse_eq_ok.mp (hres.symm.trans hresp))
      exact ⟨bytes, p, hbytes, hp, hv⟩

/-- Settles O46: a free draw keeps the contract, and a reply that the parser accepts has the length asked for. -/
theorem onlyRepliesOfTheAskedLengthAreAccepted : Obligations.OnlyRepliesOfTheAskedLengthAreAccepted := by
  intro s
  refine ⟨fun hfree n => ?_, fun x t v hx h hr => ?_⟩
  · rw [State.rxAnswer_nil s n hfree]
    exact keepsContract_rxDraw s n
  · obtain ⟨bytes, p, hbytes, hp, -⟩ := receive_ok hx h hr
    exact ⟨bytes, hbytes, (parseReply_ok hp).1⟩

end Sys2Proof.Machine
end

section
/-! PROOFS. The wire instructions: each one's builder and GENERATE give the frame that is its encoding (30_encoding.md
R70, R76 to R78). -/

namespace Sys2Proof.Machine

theorem validAddress_iff {b : Byte} : validAddress b = true ↔ b ≠ 0xFF#8 := by simp [validAddress]

/-! ### The single-device instructions -/

/-- An empty parameter block (R76). -/
theorem emitFrame_noBlock (policy : ParamWidthPolicy) {id : Byte} (code : InstructionCode) (h : validAddress id = true) :
    emitFrame (mkInstruction policy id code []) = .ok (.frame (frameBytes id (opcode code) [])) :=
  emitFrame_mkInstruction (validAddress_iff.mp h) (fun q => firstParamError_nil q) rfl (by simp)

/-- Read's parameter block: a register and a length (R76). -/
theorem emitFrame_readBlock (policy : ParamWidthPolicy) {id : Byte} (code : InstructionCode) (reg length : Byte)
    (h : validAddress id = true) :
    emitFrame (mkInstruction policy id code [byteParam reg, byteParam length])
      = .ok (.frame (frameBytes id (opcode code) [reg, length])) :=
  emitFrame_mkInstruction (validAddress_iff.mp h) (by simp) (by simp) (by simp)

/-- Write's and RegWrite's parameter block: a register and 1 to 4 data bytes, carried as one Parameter (R76). -/
theorem emitFrame_dataBlock (policy : ParamWidthPolicy) {id : Byte} (code : InstructionCode) (reg : Byte)
    {data : List Byte} (h : validAddress id = true) (hd : validData data = true) :
    emitFrame (mkInstruction policy id code [byteParam reg, dataParam data])
      = .ok (.frame (frameBytes id (opcode code) (reg :: data))) := by
  simp only [validData, Bool.and_eq_true, decide_eq_true_eq] at hd
  obtain ⟨h1, h4⟩ := hd
  refine emitFrame_mkInstruction (validAddress_iff.mp h) (fun q => ?_) ?_ (by simp; omega)
  · simpa [dataParam] using unLE_param_ok data h1 h4 q
  · simpa [dataParam] using asBytes_unLE data (by omega)

/-! ### BulkRead -/

/-- The conditions on a BulkRead's entries (R78, R190). -/
theorem validBulk_iff {entries : List BulkReadEntry} : validBulk entries = true ↔
    entries ≠ [] ∧ distinctIds (entries.map BulkReadEntry.deviceId) = true
      ∧ (∀ e ∈ entries, e.deviceId.toNat ≤ 253) ∧ entries.length ≤ 84 := by
  have hlen : 1 + 3 * entries.length ≤ 253 ↔ entries.length ≤ 84 := by omega
  simp [validBulk, concreteId, hlen, and_assoc]

/-- Byte values pass every check (R102). -/
@[simp] theorem firstParamError_map_byteParam (policy : ParamWidthPolicy) (bs : List Byte) :
    firstParamError policy (bs.map byteParam) = none := firstParamError_none.mpr (by simp)

/-- BulkRead emits its entries in their order (R78, R190). -/
theorem emitFrame_buildBulkRead (c : Config) {entries : List BulkReadEntry} (h : validBulk entries = true) :
    emitFrame (buildBulkRead c entries)
      = .ok (.frame (frameBytes broadcastId 0x92#8 (0x00#8 :: entries.flatMap entryBytes))) := by
  obtain ⟨hne, hdistinct, hids, hlen⟩ := validBulk_iff.mp h
  obtain ⟨hbuild, hpb⟩ := buildBulkRead_eq c hne (distinctIds_nodup hdistinct) hids hlen rfl
  rw [hbuild, emitFrame, generate_eq]
  simp only [fromSlice_map_byteParam, firstParamError_map_byteParam]
  rw [if_neg (by decide), if_neg (by omega)]
  rfl

/-! ### SyncWrite -/

/-- The conditions on a SyncWrite's devices (R77, R180). -/
theorem validGroups_iff {first : Byte} {groups : List SyncGroup} : validGroups first groups = true ↔
    groups ≠ [] ∧ (∀ g ∈ groups, g.deviceId.toNat ≤ 253)
      ∧ strictlyAscending (groups.map SyncGroup.deviceId) = true ∧ 1 ≤ groupSize groups
      ∧ (∀ g ∈ groups, g.data.length = groupSize groups) ∧ runFits first (groupSize groups) = true
      ∧ 2 + groups.length * (1 + groupSize groups) ≤ 253 := by
  simp [validGroups, concreteId, and_assoc]

/-- A run that fits with some width fits with the widest one (R182; log 21). -/
theorem widestWidth_fits {first : Byte} {n : Nat} (h : runFits first n = true) :
    first.toNat + n ≤ 255 + widestWidth n := by
  simp only [runFits, List.any_eq_true, Bool.and_eq_true, beq_iff_eq, decide_eq_true_eq] at h
  obtain ⟨bl, hmem, hdvd, hfit⟩ := h
  obtain ⟨-, -, -, hwidest⟩ := widestWidth_spec n
  have hle := hwidest bl hmem hdvd
  omega

/-- A SyncWrite's devices, the data bytes of each read as `c` values of `bl` bytes (R182). -/
def groupDevices (bl c : Nat) (groups : List SyncGroup) : List (Byte × List Parameter) :=
  groups.map fun g => (g.deviceId, chunks bl c g.data)

theorem mem_groupDevices {bl c : Nat} {groups : List SyncGroup} {d : Byte × List Parameter} :
    d ∈ groupDevices bl c groups ↔ ∃ g ∈ groups, (g.deviceId, chunks bl c g.data) = d := List.mem_map

section
variable {bl c : Nat} {groups : List SyncGroup}

/-- Every device has `c` values. -/
theorem groupDevices_count : ∀ d ∈ groupDevices bl c groups, d.2.length = c := by
  intro d hd
  obtain ⟨g, -, rfl⟩ := mem_groupDevices.mp hd
  exact chunks_length bl c g.data

/-- The ids are concrete (R20). -/
theorem groupDevices_concrete (h : ∀ g ∈ groups, g.deviceId.toNat ≤ 253) :
    ∀ d ∈ groupDevices bl c groups, d.1.toNat ≤ 253 := by
  intro d hd
  obtain ⟨g, hg, rfl⟩ := mem_groupDevices.mp hd
  exact h g hg

/-- The ids ascend (R77). -/
theorem groupDevices_ascending (h : strictlyAscending (groups.map SyncGroup.deviceId) = true) :
    ((groupDevices bl c groups).map fun d => d.1.toNat).Pairwise (· < ·) := by
  have := strictlyAscending_pairwise h
  rw [List.map_map] at this
  rwa [groupDevices, List.map_map]

variable (hpos : 1 ≤ bl) (hmax : bl ≤ 4) (hlen : ∀ g ∈ groups, g.data.length = c * bl)
include hpos hlen

/-- A SyncWrite's entries are its devices' runs (R182). -/
theorem splitEntries_groups (first : Byte) :
    (groups.flatMap fun g => splitEntries g.deviceId bl g.data.length first.toNat g.data)
      = allEntries (groupDevices bl c groups) first bl := by
  rw [allEntries, groupDevices, List.flatMap_map]
  exact List.flatMap_congr fun g hg => splitEntries_eq g.deviceId hpos c _ _ _ (hlen g hg) le_rfl

include hmax

/-- Every value is a well-formed Parameter of `bl` bytes (R23). -/
theorem groupDevices_wellFormed : ∀ d ∈ groupDevices bl c groups, ∀ p ∈ d.2,
    wellFormedParam p = true ∧ p.byteLength.toNat = bl := by
  intro d hd
  obtain ⟨g, hg, rfl⟩ := mem_groupDevices.mp hd
  exact (chunks_ok hpos hmax (hlen g hg)).1

/-- The devices' parameter bytes are the groups' own (R77). -/
theorem groupDevices_bytes :
    ((groupDevices bl c groups).flatMap fun d => d.1 :: (d.2.map asBytes).flatten) = groups.flatMap groupBytes := by
  rw [groupDevices, List.flatMap_map]
  refine List.flatMap_congr fun g hg => ?_
  rw [(chunks_ok hpos hmax (hlen g hg)).2, groupBytes]

end

/-- A SyncWrite packet's Parameters pass every check (R102, R180). -/
theorem firstParamError_devices {devices : List (Byte × List Parameter)}
    (h : ∀ d ∈ devices, ∀ p ∈ d.2, wellFormedParam p = true) {size : Nat} (hsize : size < 256) (first : Byte)
    (policy : ParamWidthPolicy) :
    firstParamError policy
      (byteParam first :: unsignedParam size 1 :: devices.flatMap fun d => byteParam d.1 :: d.2) = none := by
  refine firstParamError_none.mpr fun p hp => ?_
  simp only [List.mem_cons, List.mem_flatMap] at hp
  obtain rfl | rfl | ⟨d, hd, rfl | hp⟩ := hp
  · exact byteParam_ok first policy
  · exact unsignedParam_one_ok size hsize policy
  · exact byteParam_ok d.1 policy
  · exact paramError_of_wellFormed (h d hd p hp) policy

/-- SyncWrite emits the first register, the byte count and each device's bytes (R77, R180). -/
theorem emitFrame_buildSyncWrite (cfg : Config) {first : Byte} {groups : List SyncGroup}
    (h : validGroups first groups = true) :
    emitFrame (buildSyncWrite cfg (groupEntries first groups))
      = .ok (.frame (frameBytes broadcastId 0x83#8
          (first :: BitVec.ofNat 8 (groupSize groups) :: groups.flatMap groupBytes))) := by
  obtain ⟨hne, hids, hasc, hsize, hlen, hfits, hblock⟩ := validGroups_iff.mp h
  obtain ⟨hpos, hmax, hdvd, -⟩ := widestWidth_spec (groupSize groups)
  have hrun := widestWidth_fits hfits
  rw [groupEntries]
  generalize widestWidth (groupSize groups) = bl at *
  obtain ⟨c, hc⟩ : ∃ c, groupSize groups = c * bl := exists_eq_mul_left_of_dvd (Nat.dvd_of_mod_eq_zero hdvd)
  rw [hc] at hsize hlen hrun hblock ⊢
  have hcount : 1 ≤ c := Nat.pos_of_mul_pos_right hsize
  have hlast : first.toNat + (c - 1) * bl ≤ 255 := by rw [Nat.sub_one_mul]; omega
  have hwf := groupDevices_wellFormed hpos hmax hlen
  have hnum : (groupDevices bl c groups).length = groups.length := List.length_map ..
  have hsmall : c * bl < 256 := by
    have := Nat.mul_le_mul_right (1 + c * bl) (List.length_pos_iff.mpr hne)
    omega
  obtain ⟨hbytes, hbytesLen⟩ := fromSlice_devices groupDevices_count fun d hd p hp => (hwf d hd p hp).2
  rw [groupDevices_bytes hpos hmax hlen] at hbytes hbytesLen
  rw [splitEntries_groups hpos hlen first, buildSyncWrite_run cfg (by simpa [groupDevices] using hne)
    (groupDevices_ascending hasc) (groupDevices_concrete hids) hcount groupDevices_count hwf hlast
    (by rwa [hnum]) (List.Perm.refl _)]
  refine emitFrame_mkInstruction (by decide)
    (firstParamError_devices (fun d hd p hp => (hwf d hd p hp).1) hsmall first) ?_ ?_
  · simp [hbytes]
  · rw [List.length_cons, List.length_cons, hbytesLen, hnum]
    omega

/-! ### Every wire instruction -/

/-- The result of a well-formed wire instruction is its own encoding. -/
theorem pureResult_wire (c : Config) {i : Instr} (hwire : i.isWire = true) (hwf : i.wellFormed = true) :
    pureResult c i = .ok (.frame (encode i).bytes) := by
  cases i with
  | ping id => exact emitFrame_noBlock _ .ping hwf
  | read id reg length => exact emitFrame_readBlock _ .read reg length hwf
  | write id reg data =>
    obtain ⟨hid, hdata⟩ := Bool.and_eq_true_iff.mp hwf
    exact emitFrame_dataBlock _ .write reg hid hdata
  | regWrite id reg data =>
    obtain ⟨hid, hdata⟩ := Bool.and_eq_true_iff.mp hwf
    exact emitFrame_dataBlock _ .regWrite reg hid hdata
  | action id => exact emitFrame_noBlock _ .action hwf
  | reset id => exact emitFrame_noBlock _ .reset hwf
  | reboot id => exact emitFrame_noBlock _ .reboot hwf
  | syncWrite first groups => exact emitFrame_buildSyncWrite c hwf
  | bulkRead entries => exact emitFrame_buildBulkRead c hwf
  | _ => cases hwire

/-- A wire instruction has no side effect (R57). -/
theorem isExchange_of_isWire {i : Instr} (h : i.isWire = true) : isExchange i = false := by
  cases i with
  | send | receive => cases h
  | _ => rfl

/-- Settles O37: a wire instruction answers its result, and the result is its encoding. -/
theorem wireInstructionsEmitTheirEncoding : Obligations.WireInstructionsEmitTheirEncoding := by
  intro i s hwire hwf
  have hanswer := answers_of_finish (exec_pure (isExchange_of_isWire hwire) s)
  rwa [pureResult_wire s.config hwire hwf, resultResponse_ok] at hanswer

end Sys2Proof.Machine
end

section
/-! PROOFS. The invariant and the constants (10_state.md R33, R35, R40). -/

namespace Sys2Proof.Machine

/-- Settles O1: a closed fact about one state. -/
theorem resetSatisfiesInvariant : Obligations.ResetSatisfiesInvariant :=
  ⟨⟨⟨rfl, rfl, rfl⟩, rfl, by simp [State.reset]⟩, rfl, rfl⟩

/-- Settles O42: the constants are one part of what a step can do. -/
theorem stepsNeverChangeTheConstants : Obligations.StepsNeverChangeTheConstants :=
  fun _ _ h => (step_effect h).1

/-- An exchange stays lawful when the bus and the constants stay. -/
theorem exchangeOk_of_same {s t : State} {x : Exchange} (hbus : t.bus = s.bus) (hconfig : t.config = s.config)
    (h : exchangeOk s x) : exchangeOk t x := by
  rwa [exchangeOk, hbus, hconfig]

/-- An exchange is lawful after the full write of its request (R33, R63). -/
theorem exchangeOk_of_write {t : State} {x : Exchange} {frame : List Byte} {older : List TransportCall}
    (hbus : t.bus = .write frame (.ok frame.length) :: older)
    (hlen : replyLengthOf t.config.replyLenOther x.ctx.code x.ctx.requestedLength = .ok (some x.expect)) :
    exchangeOk t x :=
  ⟨by simp [hbus, fullyWritten], hlen⟩

/-- Settles O43: a step makes no transport call, one write, or the read of the open exchange. -/
theorem everyStepKeepsTheInvariant : Obligations.EveryStepKeepsTheInvariant := by
  rintro s t ⟨hhardware, hordered, hopen⟩ hstep
  obtain ⟨hconfig, heffect⟩ := step_effect hstep
  refine ⟨hconfig ▸ hhardware, ?_⟩
  obtain ⟨hbus, hsame | hnone⟩ | ⟨frame, r, -, hframe, hbus, hnew⟩ | ⟨x, r, hx, hnone, hbus⟩ := heffect
  · exact ⟨hbus ▸ hordered, fun x hx => exchangeOk_of_same hbus hconfig (hopen x (hsame ▸ hx))⟩
  · exact ⟨hbus ▸ hordered, by simp [hnone]⟩
  · refine ⟨by simp [hbus, busOrdered, hframe, hordered], fun x hx => ?_⟩
    obtain ⟨rfl, hlen⟩ := hnew x hx
    exact exchangeOk_of_write hbus (hconfig ▸ hlen)
  · obtain ⟨hfull, -⟩ := hopen x hx
    exact ⟨by simp [hbus, busOrdered, hfull, hordered], by simp [hnone]⟩

end Sys2Proof.Machine
end

section
/-! PROOFS. Which commands read the constants (10_state.md R37): each operation on the state, and each command that is
no reader of them, commutes with a change of the constants. -/

namespace Sys2Proof.Machine

/-- The state with other constants. -/
def State.withConfig (s : State) (c : Config) : State := { s with config := c }

@[simp] theorem State.withConfig_config (s : State) (c : Config) : (s.withConfig c).config = c := rfl
@[simp] theorem State.withConfig_outstanding (s : State) (c : Config) : (s.withConfig c).outstanding = s.outstanding := rfl
@[simp] theorem State.withConfig_answer (s : State) (c : Config) (r : Response) :
    (s.withConfig c).answer r = (s.answer r).withConfig c := rfl
@[simp] theorem State.withConfig_raise (s : State) (c : Config) (e : CmdError) :
    (s.withConfig c).raise e = (s.raise e).withConfig c := rfl
@[simp] theorem State.withConfig_finish (s : State) (c : Config) (r : Except CmdError Payload) :
    (s.withConfig c).finish r = (s.finish r).withConfig c := by cases r <;> rfl
@[simp] theorem State.withConfig_setOutstanding (s : State) (c : Config) (v : Option Exchange) :
    (s.withConfig c).setOutstanding v = (s.setOutstanding v).withConfig c := rfl

theorem sendAnswered_withConfig (frame : List Byte) (opened : Option Exchange) (answer : TxResult) (s : State)
    (c : Config) :
    sendAnswered frame opened answer (s.withConfig c) = (sendAnswered frame opened answer s).withConfig c := by
  cases answer with
  | err e => rfl
  | ok k =>
    by_cases hk : k = frame.length
    · cases opened <;> simp [sendAnswered, hk]
    · simp [sendAnswered, hk]

/-- SEND reads the OPEN reply lengths and no other constant (R37, R145). -/
theorem sendState_withConfig (p : Packet) (ctxCode reqLen : Byte) (s : State) {c : Config}
    (h : c.replyLenOther = s.config.replyLenOther) :
    sendState p ctxCode reqLen (s.withConfig c) = (sendState p ctxCode reqLen s).withConfig c := by
  simp only [sendState, State.withConfig_outstanding, State.withConfig_config, h]
  cases s.outstanding with
  | some x => rfl
  | none =>
    cases expectedReplyLength s.config.replyLenOther ctxCode reqLen with
    | error e => rfl
    | ok expect =>
      cases generate p with
      | error e => rfl
      | ok frame => exact sendAnswered_withConfig frame _ s.txAnswer (s.txWrite frame) c

theorem receiveAnswered_withConfig (x : Exchange) (answer : RxResult) (s : State) (c : Config) :
    receiveAnswered x answer (s.withConfig c) = (receiveAnswered x answer s).withConfig c := by
  cases answer with
  | err e => rfl
  | ok bytes => exact State.withConfig_finish s c _

/-- RECEIVE reads no constant (R37). -/
theorem receiveState_withConfig (s : State) (c : Config) :
    receiveState (s.withConfig c) = (receiveState s).withConfig c := by
  simp only [receiveState, State.withConfig_outstanding]
  cases s.outstanding with
  | none => rfl
  | some x => exact receiveAnswered_withConfig x (s.rxAnswer x.expect) ((s.setOutstanding none).rxReadExact x.expect) c

/-- The result of a command that is no reader of the constants depends on the OPEN reply lengths alone (R37). -/
theorem pureResult_of_replyLenOther {i : Instr} (hi : readsConstants i = false) {c d : Config}
    (h : c.replyLenOther = d.replyLenOther) : pureResult c i = pureResult d i := by
  cases i with
  | expectedReplyLength ctxCode reqLen => simp only [pureResult, h]
  | generate | parse | send | receive | checksum | paramAsBytes | paramFromSlice | opcodeEncode | opcodeDecode
  | statusDecode => rfl
  | _ => cases hi

/-- An instruction that is no reader of the constants carries a change of them through. -/
theorem exec_withConfig {i : Instr} (hi : readsConstants i = false) {s t : State} {c : Config}
    (hc : c.replyLenOther = s.config.replyLenOther) (h : exec i s = .next t) :
    exec i (s.withConfig c) = .next (t.withConfig c) := by
  by_cases hx : isExchange i = false
  · rw [exec_pure hx] at h ⊢
    cases h
    rw [State.withConfig_finish, State.withConfig_config, pureResult_of_replyLenOther hi hc]
  · cases i with
    | send p ctxCode reqLen =>
      cases h
      exact congrArg _ (sendState_withConfig p ctxCode reqLen s hc)
    | receive =>
      cases h
      exact congrArg _ (receiveState_withConfig s c)
    | _ => exact absurd rfl hx

/-- Settles O47: a change of the constants passes through each instruction that does not read them. -/
theorem onlyTheListedCommandsReadTheConstants : Obligations.OnlyTheListedCommandsReadTheConstants :=
  fun _ _ _ _ hi hc h => exec_withConfig hi hc h

end Sys2Proof.Machine
end

section
/-! PROOFS. The checksum accumulator and the packets the builders return (10_state.md R25, R32). -/

namespace Sys2Proof.Machine

/-- Settles O18: the accumulator holds the low byte of the sum of all the bytes. -/
theorem eightBitAccumulatorGivesChecksum : Obligations.EightBitAccumulatorGivesChecksum := by
  intro id len op pb
  rw [accumulate_eq, checksum, BitVec.zero_add]
  simp only [byteSum_cons, Nat.add_assoc]

/-- On this hardware the packet `mk_instruction` returns is well formed (R25, R122). -/
theorem wellFormedPacket_of_mkInstruction {addr : Byte} {code : InstructionCode} {ps : List Parameter} {p : Packet}
    (h : mkInstruction .reject addr code ps = .ok p) : wellFormedPacket p = true := by
  obtain ⟨haddr, hps, hlen, rfl⟩ := mkInstruction_ok h
  have hwf : ∀ q ∈ ps, wellFormedParam q = true := fun q hq =>
    paramError_none_iff.mp (firstParamError_none.mp hps q hq)
  simpa [wellFormedPacket, haddr, hlen] using hwf

/-- Settles O22: a builder's packet comes from `mk_instruction`, whose checks are GENERATE's. -/
theorem buildersReturnWellFormedPackets : Obligations.BuildersReturnWellFormedPackets := by
  intro i s t p hbuilder hhardware hexec hresp
  obtain ⟨addr, code, ps, hmk⟩ := built_mkInstruction hbuilder hexec hresp
  rw [hhardware.1] at hmk
  obtain ⟨-, hps, -, hp⟩ := mkInstruction_ok hmk
  have hgen := generate_of_mkInstruction hps hmk
  have hanswer := answers_of_finish (i := .generate p) (exec_pure rfl s)
  rw [pureResult, hgen] at hanswer
  exact ⟨wellFormedPacket_of_mkInstruction hmk, ⟨code, by rw [hp]⟩, _, hanswer, by rw [frameBytes_getLast?, hp]⟩

end Sys2Proof.Machine
end

section
/-! PROOFS. The decoder machine ends where PARSE does (10_state.md R31; 41_packet_codec.md R140). -/

namespace Sys2Proof.Machine

/-- The terminal state of a result of PARSE (R31). -/
def DecoderState.ofResult : Except CmdError Packet → DecoderState
  | .ok p => .parsed p
  | .error e => .rejected e

/-- Parsed and Rejected are terminal (R31). -/
@[simp] theorem decoderRun_ofResult (ctx : ReplyContext) (k : Nat) (r : Except CmdError Packet) :
    decoderRun ctx k (.ofResult r) = .ofResult r := by
  induction k with
  | zero => rfl
  | succ k ih => cases r <;> exact ih

/-- From LengthValidated the checksum decides (R140 step 8). -/
theorem decoderRun_lengthValidated (ctx : ReplyContext) (f : StatusFields) :
    decoderRun ctx 2 (.lengthValidated f)
      = .ofResult (if checksumMatches f = false then .error .invalidChecksum else .ok (statusPacket ctx f)) := by
  simp only [decoderRun, decoderStep]
  cases checksumMatches f <;> rfl

/-- From HeaderValidated the length checks decide, then the checksum (R140 steps 2 to 8). -/
theorem decoderRun_headerValidated (ctx : ReplyContext) {buf : List Byte} (h : hasHeader buf = true) :
    decoderRun ctx 3 (.headerValidated buf) = .ofResult (parseIn ctx buf) := by
  rw [parseIn, if_neg (by simp [h]), decoderRun, decoderStep]
  cases validateLength ctx buf with
  | error e => exact decoderRun_ofResult ctx 2 (.error e)
  | ok f => exact decoderRun_lengthValidated ctx f

/-- From the raw bytes, four transitions make the checks of R140's steps 1 to 9. -/
theorem decoderRun_rawBytes (ctx : ReplyContext) (buf : List Byte) :
    decoderRun ctx 4 (.rawBytes buf) = .ofResult (parseIn ctx buf) := by
  rw [decoderRun, decoderStep]
  by_cases h : hasHeader buf = true
  · rw [if_pos h]
    exact decoderRun_headerValidated ctx h
  · rw [if_neg h, parseIn, if_pos (Bool.eq_false_iff.mpr h)]
    exact decoderRun_ofResult ctx 3 (.error .invalidHeader)

/-- The context checks give the decoded context (R140 step 0). -/
theorem parseContext_ok {ctxCode reqLen : Byte} {ctx : ReplyContext} (h : parseContext ctxCode reqLen = .ok ctx) :
    codeOf ctxCode = some ctx.code ∧ ctx.requestedLength = reqLen := by
  unfold parseContext ctxOf at h
  cases hc : codeOf ctxCode with
  | none => simp [hc] at h
  | some code =>
    simp only [hc] at h
    split at h
    · cases h
    · cases h; exact ⟨rfl, rfl⟩

/-- The machine ends where PARSE does (R31, R140). -/
theorem decoderRun_start {buf : List Byte} {ctxCode reqLen : Byte} {ctx : ReplyContext}
    (hcode : codeOf ctxCode = some ctx.code) (hlen : ctx.requestedLength = reqLen) :
    decoderRun ctx 4 (decoderStart buf ctxCode reqLen) = .ofResult (parse buf ctxCode reqLen) := by
  rw [decoderStart, parse]
  cases h : parseContext ctxCode reqLen with
  | error e => exact decoderRun_ofResult ctx 4 (.error e)
  | ok ctx' =>
    obtain ⟨hcode', hlen'⟩ := parseContext_ok h
    obtain rfl : ctx = ctx' := by
      cases ctx; cases ctx'
      simp_all
    exact decoderRun_rawBytes ctx buf

/-- Settles O26: the run from the start, the context check that fails first, and the terminal states. -/
theorem decoderMachineAgreesWithParse : Obligations.DecoderMachineAgreesWithParse := by
  intro buf ctxCode reqLen ctx
  refine ⟨fun hcode hlen => ?_, fun hnone => ?_, ?_⟩
  · rw [decoderRun_start hcode hlen]
    cases parse buf ctxCode reqLen <;> rfl
  · simp [decoderStart, parseContext, ctxOf, hnone]
  · rintro k d (⟨p, rfl⟩ | ⟨e, rfl⟩)
    · exact decoderRun_ofResult ctx k (.ok p)
    · exact decoderRun_ofResult ctx k (.error e)

end Sys2Proof.Machine
end

section
/-! PROOFS. Side effects and the order of the bus (20_memory.md R56, R57, R63, R64, R68). -/

namespace Sys2Proof.Machine

/-- A command without side effects answers its result, and changes nothing else (R57). -/
theorem answers_pureResult {i : Instr} (h : isExchange i = false) (s : State) :
    Answers i s (resultResponse (pureResult s.config i)) :=
  answers_of_finish (exec_pure h s)

/-- Settles O38: the common response is that of the instruction's result under the common constants. -/
theorem onlySendAndReceiveHaveSideEffects : Obligations.OnlySendAndReceiveHaveSideEffects := by
  intro i hpure s s' hconfig
  refine ⟨resultResponse (pureResult s.config i), answers_pureResult hpure s, ?_⟩
  rw [hconfig]
  exact answers_pureResult hpure s'

/-- A request is fully written when the newest call is a write of as many bytes as its frame has (R63). -/
theorem fullyWritten_iff {bus : List TransportCall} :
    fullyWritten bus = true ↔ ∃ frame older, bus = .write frame (.ok frame.length) :: older := by
  constructor
  · intro h
    match bus, h with
    | .write frame (.ok k) :: older, h =>
      obtain rfl : k = frame.length := by simpa [fullyWritten] using h
      exact ⟨frame, older, rfl⟩
  · rintro ⟨frame, older, rfl⟩
    simp [fullyWritten]

/-- A step that reads the bus has an exchange open, and asks for the length the exchange expects (R68). -/
theorem step_read {s t : State} {n : Nat} {r : RxResult} (h : step s = .next t)
    (hread : t.bus = .readExact n r :: s.bus) : ∃ x, s.outstanding = some x ∧ n = x.expect := by
  obtain ⟨-, ⟨hbus, -⟩ | ⟨frame, w, -, -, hbus, -⟩ | ⟨x, r', hx, -, hbus⟩⟩ := step_effect h
  · exact absurd (hread.symm.trans hbus) (List.cons_ne_self _ _)
  · cases hread.symm.trans hbus
  · have hcall := List.head_eq_of_cons_eq (hread.symm.trans hbus)
    exact ⟨x, hx, (TransportCall.readExact.inj hcall).1⟩

/-- Settles O44: the read is that of the open exchange, whose request the invariant says is fully written. -/
theorem readsFollowAFullyWrittenRequest : Obligations.ReadsFollowAFullyWrittenRequest := by
  rintro s t n r ⟨-, -, hopen⟩ hstep hread
  obtain ⟨x, hx, hn⟩ := step_read hstep hread
  obtain ⟨hfull, -⟩ := hopen x hx
  exact ⟨fullyWritten_iff.mp hfull, x, hx, hn⟩

/-- Settles O45: the three effects a step can have on the bus. -/
theorem oneExchangeIsInFlight : Obligations.OneExchangeIsInFlight := by
  intro s t hstep
  obtain ⟨-, ⟨hbus, -⟩ | ⟨frame, r, hnone, hframe, hbus, -⟩ | ⟨x, r, hx, hended, hbus⟩⟩ := step_effect hstep
  · exact .inl hbus
  · exact .inr (.inr ⟨frame, r, hbus, hnone, hframe⟩)
  · exact .inr (.inl ⟨x.expect, r, hbus, by simp [hx], hended⟩)

end Sys2Proof.Machine
end

section
/-! PROOFS. The encodings: the block's decoder and encoder agree in both directions, on the command records (30_encoding.md
R82, R84, R85) and on the wire frames (R70, R72, R74, R76 to R78). -/

namespace Sys2Proof

open Sys2Proof.Machine

/-! ### A command record decodes to its instruction -/

/-- A record whose code has a row is read by the row's reader (R82). -/
theorem readCommand_of_lookup {cmd : Byte} {r : Reader Instr} {b : List Byte} {x : Instr × List Byte}
    (hrow : commandTable.lookup cmd = some r) (hr : r b = some x) : readCommand (cmd :: b) = .ok x := by
  simp only [readCommand, hrow, hr]

/-- A reader of the first operand leaves the later operands' bytes to the readers after it. -/
theorem Matches.readThen_append {α β : Type} {r : Reader α} {w : α → List Byte} (h : Matches r w) (f : α → Reader β)
    (a : α) (later rest : List Byte) : Sys2Proof.readThen r f (w a ++ later ++ rest) = f a (later ++ rest) := by
  rw [List.append_assoc, h.readThen]

/-- The record of a host command is read back, whatever bytes follow it (R82, R85). -/
theorem readCommand_encode {i : Instr} (h : i.isWire = false) (rest : List Byte) :
    readCommand ((encode i).bytes ++ rest) = .ok (i, rest) := by
  cases i with
  | ping | read | write | regWrite | action | reset | reboot | syncWrite | bulkRead => cases h
  | buildPing | buildRead | buildAction | buildReset | buildReboot | expectedReplyLength | receive | opcodeDecode
  | statusDecode => rfl
  | buildWrite a r d | buildRegWrite a r d =>
    exact readCommand_of_lookup rfl (matches_parameter.readThen _ d rest)
  | buildSyncWrite es => exact readCommand_of_lookup rfl ((matches_list matches_syncEntry).readThen _ es rest)
  | buildBulkRead es => exact readCommand_of_lookup rfl ((matches_list matches_bulkEntry).readThen _ es rest)
  | generate p => exact readCommand_of_lookup rfl (matches_packet.readThen _ p rest)
  | parse b c n => exact readCommand_of_lookup rfl ((matches_list matches_u8).readThen_append _ b [c, n] rest)
  | send p c n => exact readCommand_of_lookup rfl (matches_packet.readThen_append _ p [c, n] rest)
  | checksum id len op b => exact readCommand_of_lookup rfl ((matches_list matches_u8).readThen _ b rest)
  | paramUnsigned v n | paramSigned v n => exact readCommand_of_lookup rfl (matches_u64.readThen_append _ v [n] rest)
  | paramAsBytes p => exact readCommand_of_lookup rfl (matches_parameter.readThen _ p rest)
  | paramFromSlice ps => exact readCommand_of_lookup rfl ((matches_list matches_parameter).readThen _ ps rest)
  | opcodeEncode c => exact readCommand_of_lookup rfl (matches_code.readThen _ c rest)
  | statusEncode fs => exact readCommand_of_lookup rfl ((matches_list matches_flag).readThen _ fs rest)

/-- A host command is encoded as a record (R82). -/
theorem encode_format_of_host {i : Instr} (h : i.isWire = false) : encode i = hostCommand (encode i).bytes := by
  cases i with
  | ping | read | write | regWrite | action | reset | reboot | syncWrite | bulkRead => cases h
  | _ => rfl

theorem decode_encode_of_host {i : Instr} (h : i.isWire = false) : decode (encode i) = .ok i := by
  have hread := readCommand_encode h []
  rw [List.append_nil] at hread
  rw [encode_format_of_host h]
  simp only [decode, hostCommand, decodeCommand, hread]

/-! ### A record that decodes is an encoding -/

/-- After the bytes `pre`, the reader `r` takes the rest of the encoding of the host command that it gives. -/
def CompletesRecord (pre : List Byte) (r : Reader Instr) : Prop :=
  ∀ b i rest, r b = some (i, rest) → ∃ w, encode i = hostCommand (pre ++ w) ∧ b = w ++ rest

theorem CompletesRecord.done {pre : List Byte} {i : Instr} (h : encode i = hostCommand pre) :
    CompletesRecord pre (readNothing i) := by
  intro b j rest hr
  cases hr
  exact ⟨[], by simpa using h, rfl⟩

theorem CompletesRecord.andThen {α : Type} {pre : List Byte} {r : Reader α} {w : α → List Byte} {f : α → Reader Instr}
    (hm : Matches r w) (hf : ∀ a, CompletesRecord (pre ++ w a) (f a)) : CompletesRecord pre (readThen r f) := by
  intro b i rest hr
  obtain ⟨a, b', ha, hi⟩ := readThen_eq_some.mp hr
  obtain ⟨v, hv, rfl⟩ := hf a b' i rest hi
  exact ⟨w a ++ v, by simpa using hv, by simpa using hm.write b a _ ha⟩

/-- Every row's reader takes what the encoder writes after the row's code (R82). -/
theorem completesRecord_of_mem : ∀ row ∈ commandTable, CompletesRecord [row.1] row.2 := by
  simp only [commandTable, List.cons_append, List.nil_append, List.forall_mem_cons]
  refine ⟨?buildPing, ?buildRead, ?buildWrite, ?buildRegWrite, ?buildAction, ?buildReset, ?buildReboot,
    ?buildSyncWrite, ?buildBulkRead, ?generate, ?parse, ?expectedReplyLength, ?send, ?receive, ?checksum,
    ?paramUnsigned, ?paramSigned, ?paramAsBytes, ?paramFromSlice, ?opcodeEncode, ?opcodeDecode, ?statusDecode,
    ?statusEncode, by simp⟩
  case buildPing | buildAction | buildReset | buildReboot | opcodeDecode | statusDecode =>
    exact .andThen matches_u8 fun _ => .done rfl
  case expectedReplyLength =>
    exact .andThen matches_u8 fun _ => .andThen matches_u8 fun _ => .done rfl
  case buildRead =>
    exact .andThen matches_u8 fun _ => .andThen matches_u8 fun _ =>
      .andThen matches_u8 fun _ => .done rfl
  case buildWrite | buildRegWrite =>
    exact .andThen matches_u8 fun _ => .andThen matches_u8 fun _ =>
      .andThen matches_parameter fun _ => .done rfl
  case buildSyncWrite => exact .andThen (matches_list matches_syncEntry) fun _ => .done rfl
  case buildBulkRead => exact .andThen (matches_list matches_bulkEntry) fun _ => .done rfl
  case generate => exact .andThen matches_packet fun _ => .done rfl
  case parse =>
    exact .andThen (matches_list matches_u8) fun _ => .andThen matches_u8 fun _ =>
      .andThen matches_u8 fun _ => .done (by simp [encode])
  case send =>
    exact .andThen matches_packet fun _ => .andThen matches_u8 fun _ =>
      .andThen matches_u8 fun _ => .done (by simp [encode])
  case receive => exact .done rfl
  case checksum =>
    exact .andThen matches_u8 fun _ => .andThen matches_u8 fun _ =>
      .andThen matches_u8 fun _ => .andThen (matches_list matches_u8) fun _ =>
      .done rfl
  case paramUnsigned | paramSigned =>
    exact .andThen matches_u64 fun _ => .andThen matches_u8 fun _ =>
      .done rfl
  case paramAsBytes => exact .andThen matches_parameter fun _ => .done rfl
  case paramFromSlice => exact .andThen (matches_list matches_parameter) fun _ => .done rfl
  case opcodeEncode => exact .andThen matches_code fun _ => .done rfl
  case statusEncode => exact .andThen (matches_list matches_flag) fun _ => .done rfl

/-- What is read from a record is a host command whose encoding stands at the front (R82). -/
theorem readCommand_ok {b : List Byte} {i : Instr} {rest : List Byte} (h : readCommand b = .ok (i, rest)) :
    ∃ w, encode i = hostCommand w ∧ b = w ++ rest := by
  cases b with
  | nil => cases h
  | cons cmd b =>
    simp only [readCommand] at h
    split at h
    · cases h
    · rename_i r hrow
      split at h
      · cases h
      · rename_i answer hr
        cases h
        obtain ⟨before, after, htable, -⟩ := List.lookup_eq_some_iff.mp hrow
        obtain ⟨w, hw, rfl⟩ := completesRecord_of_mem (cmd, r) (by simp [htable]) b i rest hr
        exact ⟨[cmd] ++ w, hw, rfl⟩

theorem encode_of_decodeCommand {record : List Byte} {i : Instr} (h : decodeCommand record = .ok i) :
    encode i = hostCommand record := by
  simp only [decodeCommand] at h
  split at h
  · cases h
  · rename_i j hread
    cases h
    obtain ⟨w, hw, rfl⟩ := readCommand_ok hread
    rw [hw, List.append_nil]
  · cases h

/-- Every host command is well formed (R85). -/
theorem wellFormed_of_encode {i : Instr} {record : List Byte} (h : encode i = hostCommand record) :
    i.wellFormed = true := by
  cases i with
  | ping | read | write | regWrite | action | reset | reboot | syncWrite | bulkRead => cases h
  | _ => rfl

/-! ### The parameter blocks -/

theorem noBlock_eq_some {i j : Instr} {pb : List Byte} : noBlock i pb = some j ↔ pb = [] ∧ i = j := by
  cases pb <;> simp [noBlock]

theorem readBlock_eq_some {id : Byte} {pb : List Byte} {i : Instr} :
    readBlock id pb = some i ↔ ∃ reg length, pb = [reg, length] ∧ i = .read id reg length := by
  constructor
  · intro h
    match pb, h with
    | [reg, length], h => exact ⟨reg, length, rfl, (Option.some.inj h).symm⟩
  · rintro ⟨reg, length, rfl, rfl⟩
    rfl

theorem writeBlock_eq_some {make : Byte → List Byte → Instr} {pb : List Byte} {i : Instr} :
    writeBlock make pb = some i ↔ ∃ reg data, pb = reg :: data ∧ i = make reg data := by
  cases pb <;> simp [writeBlock, eq_comm]

/-- The devices of a parameter block are those whose bytes it is (R77). -/
theorem splitGroups_eq_some {n : Nat} {body : List Byte} {groups : List SyncGroup} :
    splitGroups n body.length body = some groups ↔
      body = groups.flatMap groupBytes ∧ ∀ g ∈ groups, g.data.length = n := by
  refine ⟨splitGroups_write, ?_⟩
  rintro ⟨rfl, hsize⟩
  refine splitGroups_read n groups hsize _ ?_
  rw [flatMap_groupBytes_length n groups hsize]
  exact Nat.le_mul_of_pos_right _ (by omega)

theorem splitTriples_eq_some {body : List Byte} {entries : List BulkReadEntry} :
    splitTriples body = some entries ↔ body = entries.flatMap entryBytes :=
  ⟨splitTriples_write, fun h => h ▸ splitTriples_read entries⟩

theorem flatMap_entryBytes_length (entries : List BulkReadEntry) :
    (entries.flatMap entryBytes).length = 3 * entries.length := by
  simp [entryBytes, Nat.mul_comm]

theorem syncBlock_eq_some {id : Byte} {pb : List Byte} {i : Instr} :
    syncBlock id pb = some i ↔ id = broadcastId ∧ ∃ first size groups, i = .syncWrite first groups
      ∧ pb = first :: size :: groups.flatMap groupBytes ∧ ∀ g ∈ groups, g.data.length = size.toNat := by
  constructor
  · intro h
    match pb, h with
    | first :: size :: body, h =>
      obtain ⟨hid, h⟩ := Option.ite_none_right_eq_some.mp h
      obtain ⟨groups, hgroups, rfl⟩ := Option.map_eq_some_iff.mp h
      obtain ⟨rfl, hsize⟩ := splitGroups_eq_some.mp hgroups
      exact ⟨hid, first, size, groups, rfl, rfl, hsize⟩
  · rintro ⟨rfl, first, size, groups, rfl, rfl, hsize⟩
    simp only [syncBlock, if_true, splitGroups_eq_some.mpr ⟨rfl, hsize⟩, Option.map_some]

theorem bulkBlock_eq_some {id : Byte} {pb : List Byte} {i : Instr} :
    bulkBlock id pb = some i ↔ id = broadcastId ∧ ∃ entries, i = .bulkRead entries
      ∧ pb = 0x00#8 :: entries.flatMap entryBytes := by
  cases pb with
  | nil => simp [bulkBlock]
  | cons reserved body =>
    simp only [bulkBlock, Option.ite_none_right_eq_some, Option.map_eq_some_iff, splitTriples_eq_some, List.cons.injEq]
    constructor
    · rintro ⟨⟨hid, hres⟩, entries, hbody, rfl⟩
      exact ⟨hid, entries, rfl, hres, hbody⟩
    · rintro ⟨hid, entries, rfl, hres, hbody⟩
      exact ⟨⟨hid, hres⟩, entries, hbody, rfl⟩

/-- The count byte of a well-formed SyncWrite is the number of each device's data bytes (R77). -/
theorem groupSize_eq {groups : List SyncGroup} {n : Nat} (hne : groups ≠ []) (hsize : ∀ g ∈ groups, g.data.length = n) :
    groupSize groups = n := by
  cases groups with
  | nil => exact absurd rfl hne
  | cons g gs => exact hsize g (by simp)

/-! ### The frames -/

/-- A register and at most 4 data bytes fit in a parameter block (R72, R76). -/
theorem dataBlock_length {data : List Byte} (reg : Byte) (h : validData data = true) : (reg :: data).length ≤ 253 := by
  simp only [validData, Bool.and_eq_true, decide_eq_true_eq] at h
  obtain ⟨-, hmax⟩ := h
  rw [List.length_cons]
  omega

/-- A wire instruction's frame has an id, an opcode and a parameter block of at most 253 bytes, which is read back as the
instruction (R70, R72, R76 to R78). -/
theorem encode_eq_wireFrame {i : Instr} (hwire : i.isWire = true) (hwf : i.wellFormed = true) :
    ∃ id code pb, encode i = wireFrame id (opcode code) pb ∧ wireInstr id code pb = some i ∧ pb.length ≤ 253 := by
  cases i with
  | ping id => exact ⟨id, .ping, [], rfl, rfl, by simp⟩
  | read id reg length => exact ⟨id, .read, [reg, length], rfl, rfl, by simp⟩
  | write id reg data =>
    obtain ⟨-, hdata⟩ := Bool.and_eq_true_iff.mp hwf
    exact ⟨id, .write, reg :: data, rfl, rfl, dataBlock_length reg hdata⟩
  | regWrite id reg data =>
    obtain ⟨-, hdata⟩ := Bool.and_eq_true_iff.mp hwf
    exact ⟨id, .regWrite, reg :: data, rfl, rfl, dataBlock_length reg hdata⟩
  | action id => exact ⟨id, .action, [], rfl, rfl, by simp⟩
  | reset id => exact ⟨id, .reset, [], rfl, rfl, by simp⟩
  | reboot id => exact ⟨id, .reboot, [], rfl, rfl, by simp⟩
  | syncWrite first groups =>
    obtain ⟨hne, -, -, -, hlen, -, hblock⟩ := validGroups_iff.mp hwf
    have hsmall : groupSize groups < 256 := by
      have := Nat.mul_le_mul_right (1 + groupSize groups) (List.length_pos_iff.mpr hne)
      omega
    refine ⟨broadcastId, .syncWrite, _, rfl, syncBlock_eq_some.mpr ⟨rfl, first, _, groups, rfl, rfl, ?_⟩, ?_⟩
    · rwa [BitVec.toNat_ofNat, Nat.mod_eq_of_lt hsmall]
    · simp only [List.length_cons, flatMap_groupBytes_length _ groups hlen]
      omega
  | bulkRead entries =>
    obtain ⟨-, -, -, hlen⟩ := validBulk_iff.mp hwf
    refine ⟨broadcastId, .bulkRead, _, rfl, bulkBlock_eq_some.mpr ⟨rfl, entries, rfl, rfl⟩, ?_⟩
    rw [List.length_cons, flatMap_entryBytes_length]
    omega
  | _ => cases hwire

/-- A parameter block that is read as a well-formed instruction is the one the encoder writes (R76 to R78). -/
theorem encode_of_wireInstr {id : Byte} {code : InstructionCode} {pb : List Byte} {i : Instr}
    (h : wireInstr id code pb = some i) (hwf : i.wellFormed = true) : encode i = wireFrame id (opcode code) pb := by
  cases code with
  | ping | action | reset | reboot =>
    obtain ⟨rfl, rfl⟩ := noBlock_eq_some.mp h
    rfl
  | read =>
    obtain ⟨reg, length, rfl, rfl⟩ := readBlock_eq_some.mp h
    rfl
  | write | regWrite =>
    obtain ⟨reg, data, rfl, rfl⟩ := writeBlock_eq_some.mp h
    rfl
  | syncWrite =>
    obtain ⟨rfl, first, size, groups, rfl, rfl, hsize⟩ := syncBlock_eq_some.mp h
    obtain ⟨hne, -⟩ := validGroups_iff.mp hwf
    rw [encode, groupSize_eq hne hsize, BitVec.ofNat_toNat, BitVec.setWidth_eq]
    rfl
  | bulkRead =>
    obtain ⟨rfl, entries, rfl, rfl⟩ := bulkBlock_eq_some.mp h
    rfl

/-- A frame of the encoder is decoded by its parameter block (R70, R72, R74). -/
theorem decodeFrame_frameBytes {id : Byte} {code : InstructionCode} {pb : List Byte} {i : Instr} (hlen : pb.length ≤ 253)
    (hblock : wireInstr id code pb = some i) (hwf : i.wellFormed = true) :
    decodeFrame (frameBytes id (opcode code) pb) = .ok i := by
  have hparts := decodeFrame_parts headerByte headerByte id (wireLength pb) (opcode code) pb
    (checksum id (wireLength pb) (opcode code) pb)
  simpa [wireLength_toNat hlen, hblock, hwf, frameBytes] using hparts

/-- A frame that decodes has the header, the length byte and the checksum of the encoder's frame (R70, R72, R120). -/
theorem decodeFrame_ok {frame : List Byte} {i : Instr} (h : decodeFrame frame = .ok i) :
    ∃ id code pb, frame = frameBytes id (opcode code) pb ∧ wireInstr id code pb = some i ∧ i.wellFormed = true := by
  match frame with
  | h0 :: h1 :: id :: len :: op :: p0 :: rest =>
    obtain ⟨pb, ck, htail⟩ : ∃ pb ck, p0 :: rest = pb ++ [ck] :=
      (List.eq_nil_or_concat' (p0 :: rest)).resolve_left (by simp)
    rw [htail, decodeFrame_parts] at h
    split_ifs at h with hheader hlen hck
    obtain ⟨rfl, rfl⟩ : h0 = headerByte ∧ h1 = headerByte := by simpa using hheader
    obtain rfl : len = wireLength pb := by simpa [wireLength] using (congrArg (BitVec.ofNat 8) (not_not.mp hlen))
    obtain rfl := not_not.mp hck
    split at h
    · cases h
    · rename_i code hcode
      split at h
      · cases h
      · rename_i j hblock
        split_ifs at h with hwf
        cases h
        obtain rfl := codeOf_eq_some.mp hcode
        exact ⟨id, code, pb, by simp [htail, frameBytes], hblock, hwf⟩

/-! ### The statements about decoding and encoding -/

/-- Settles O5: a record is read back by its row's reader, a frame by its parameter block. -/
theorem decodeOfEncodeIsTheInstruction : Obligations.DecodeOfEncodeIsTheInstruction := by
  intro i hwf
  cases hwire : i.isWire with
  | false => exact decode_encode_of_host hwire
  | true =>
    obtain ⟨id, code, pb, hencode, hblock, hlen⟩ := encode_eq_wireFrame hwire hwf
    rw [hencode]
    exact decodeFrame_frameBytes hlen hblock hwf

/-- Settles O6: the bytes that a reader or a parameter block takes are those that the encoder writes. -/
theorem decodedBytesAreTheEncoding : Obligations.DecodedBytesAreTheEncoding := by
  rintro ⟨format, bytes⟩ i h
  cases format with
  | hostCommand =>
    have hencode : encode i = hostCommand bytes := encode_of_decodeCommand h
    exact ⟨wellFormed_of_encode hencode, hencode⟩
  | wireFrame =>
    obtain ⟨id, code, pb, rfl, hblock, hwf⟩ := decodeFrame_ok h
    exact ⟨hwf, encode_of_wireInstr hblock hwf⟩

/-- Settles O7: seven closed words. -/
theorem specVectorWordsDecode : Obligations.SpecVectorWordsDecode := by
  unfold Obligations.SpecVectorWordsDecode
  decide

/-! ### Unassigned codes -/

/-- A record whose code has no row decodes to the illegal code, whatever bytes follow it (R84). -/
theorem decode_of_unassigned {cmd : Byte} (h : cmd ∉ commandTable.map Prod.fst) (operands : List Byte) :
    decode ⟨.hostCommand, cmd :: operands⟩ = .error (.illegalCommand cmd) := by
  have hrow : commandTable.lookup cmd = none := by
    refine List.lookup_eq_none_iff.mpr fun row hmem => ?_
    simp only [bne_iff_ne]
    rintro rfl
    exact h (List.mem_map_of_mem hmem)
  simp only [decode, decodeCommand, readCommand, hrow]

theorem runEncoded_of_illegal {e : Encoded} {cmd : Byte} (h : decode e = .error (.illegalCommand cmd))
    (run : Instr → State → Host.Outcome State Fault Refusal) (s : State) :
    runEncoded run e s = .next (s.raise .illegalCommand) := by
  simp only [runEncoded, h]

/-- Settles O4: the listed codes are those of the table's rows, and a code without a row is illegal. -/
theorem unassignedCodesAnswerIllegalCommand : Obligations.UnassignedCodesAnswerIllegalCommand := by
  intro s cmd operands rest hcmd hhost
  calc step s = runEncoded exec ⟨.hostCommand, cmd :: operands⟩ (s.withHost rest) := step_of_issue hhost
    _ = .next ((s.withHost rest).raise .illegalCommand) := runEncoded_of_illegal (decode_of_unassigned hcmd operands) exec _

end Sys2Proof
end

section
/-! PROOFS. One response for each command (30_encoding.md R83). -/

namespace Sys2Proof.Machine

/-- Every instruction completes with one more response (R83, R233). -/
theorem exec_answers (i : Instr) (s : State) : ∃ t r, exec i s = .next t ∧ t.responses = r :: s.responses := by
  by_cases hx : isExchange i = false
  · exact ⟨_, resultResponse (pureResult s.config i), exec_pure hx s, by simp [State.finish_eq]⟩
  · cases i with
    | send p ctxCode reqLen =>
      refine ⟨sendState p ctxCode reqLen s, ?_⟩
      rcases sendState_cases p ctxCode reqLen s with
        ⟨e, heq, -⟩ | ⟨frame, expect, -, -, -, ⟨why, heq⟩ | ⟨-, code, -, heq⟩⟩
      · exact ⟨.error e, rfl, by simp [heq]⟩
      · exact ⟨.error (.transportError why), rfl, by simp [heq]⟩
      · exact ⟨.ok (.written frame.length), rfl, by simp [heq]⟩
    | receive =>
      refine ⟨receiveState s, ?_⟩
      rcases receiveState_cases s with ⟨-, heq⟩ | ⟨x, -, r, heq, -⟩
      · exact ⟨.error .noExchange, rfl, by simp [heq]⟩
      · exact ⟨r, rfl, by simp [heq]⟩
    | _ => exact absurd rfl hx

/-- Settles O39: every instruction answers once, and its effect spares the host's events and the constants. -/
theorem everyCommandReturnsOneResponse : Obligations.EveryCommandReturnsOneResponse := by
  intro i s
  obtain ⟨t, r, hexec, hresp⟩ := exec_answers i s
  obtain ⟨hhost, hconfig, -⟩ := exec_effect hexec
  exact ⟨t, r, hexec, hresp, hhost, hconfig⟩

end Sys2Proof.Machine
end

section
/-! PROOFS. Parameters and the opcode vocabulary (40_parameter.md R100 to R108). -/

namespace Sys2Proof.Machine

/-- A command without side effects whose result is a payload answers it. -/
theorem answers_ok {i : Instr} {s : State} {v : Payload} (hi : isExchange i = false)
    (hv : pureResult s.config i = .ok v) : Answers i s (.ok v) := by
  simpa only [hv, resultResponse_ok] using answers_pureResult hi s

/-- A command without side effects whose result is an error answers it. -/
theorem answers_error {i : Instr} {s : State} {e : CmdError} (hi : isExchange i = false)
    (he : pureResult s.config i = .error e) : Answers i s (.error e) := by
  simpa only [he, resultResponse_error] using answers_pureResult hi s

/-! ### The checks -/

theorem checkParam_of_some {policy : ParamWidthPolicy} {p : Parameter} {e : CmdError}
    (h : paramError policy p = some e) : checkParam policy p = .error e := by
  rw [checkParam_eq, h]

theorem checkParam_of_none {policy : ParamWidthPolicy} {p : Parameter} (h : paramError policy p = none) :
    checkParam policy p = .ok () := by
  rw [checkParam_eq, h]

theorem checkedSlice_of_some {ps : List Parameter} {e : CmdError} (h : firstParamError .reject ps = some e) :
    checkedSlice ps = .error e := by
  simp only [checkedSlice, checkParams_eq, h]

theorem checkedSlice_of_none {ps : List Parameter} (h : firstParamError .reject ps = none) :
    checkedSlice ps = .ok (.bytes (fromSlice ps)) := by
  simp only [checkedSlice, checkParams_eq, h]

/-- The first failing element decides (R104). -/
theorem firstParamError_append_cons {policy : ParamWidthPolicy} {before after : List Parameter} {p : Parameter}
    {e : CmdError} (hbefore : ∀ q ∈ before, paramError policy q = none) (hp : paramError policy p = some e) :
    firstParamError policy (before ++ p :: after) = some e := by
  have hnone : before.findSome? (paramError policy) = none := firstParamError_none.mpr hbefore
  simp only [firstParamError, List.findSome?_append, List.findSome?_cons, hnone, hp, Option.none_or]

/-! ### PARAM_UNSIGNED and PARAM_SIGNED -/

/-- `check_param` with R23's range condition in the form `outside` gives it. -/
theorem paramError_of_inRange_iff (policy : ParamWidthPolicy) {p : Parameter} {outside : Prop} [Decidable outside]
    (h : inRange p = true ↔ ¬ outside) :
    paramError policy p =
      if p.byteLength.toNat < 1 ∨ 4 < p.byteLength.toNat then some .invalidByteLength
      else if policy = .reject ∧ outside then some .parameterTooWide
      else none := by
  have hout : inRange p = false ↔ outside := by rw [← Bool.not_eq_true, h, not_not]
  simp only [paramError, hout, Nat.lt_one_iff]

/-- A constructor answers the width's error, then the value's, else the Parameter (R100, R101). -/
theorem construct_answers_checks {s : State} {p : Parameter} {i : Instr} {outside : Prop} [Decidable outside]
    (hi : exec i s = .next (s.finish (constructParam s.config.paramWidthPolicy p)))
    (h : inRange p = true ↔ ¬ outside) :
    Answers i s
      (if p.byteLength.toNat < 1 ∨ 4 < p.byteLength.toNat then .error .invalidByteLength
       else if s.config.paramWidthPolicy = .reject ∧ outside then .error .parameterTooWide
       else .ok (.parameter p)) := by
  have hans := construct_answers s p i hi
  rw [paramError_of_inRange_iff _ h] at hans
  split_ifs at hans ⊢ <;> exact hans

/-- Settles O8: an unsigned value is outside R23's range from `256 ^ byte_length` on. -/
theorem paramUnsignedChecksThenConstructs : Obligations.ParamUnsignedChecksThenConstructs := by
  refine fun s v n => ⟨construct_answers_checks (p := ⟨.unsigned, v, n⟩) rfl ?_, rfl⟩
  rw [inRange_unsigned _ rfl, not_le]

/-- Settles O9: a signed value is outside R23's range when it fails one of the two bounds. -/
theorem paramSignedChecksThenConstructs : Obligations.ParamSignedChecksThenConstructs := by
  refine fun s v n => ⟨construct_answers_checks (p := ⟨.signed, v, n⟩) rfl ?_, rfl⟩
  rw [inRange_signed _ rfl, not_or, not_lt, not_le]

/-! ### PARAM_AS_BYTES -/

/-- The bytes of a Parameter stand for its value modulo `256 ^ byte_length`, whichever its kind (R103). -/
theorem unLE_asBytes {p : Parameter} (h : p.byteLength.toNat ≤ 8) :
    (unLE (asBytes p) : Int) = paramValue p % 256 ^ p.byteLength.toNat := by
  rw [asBytes, unLE_leBytes]
  obtain ⟨_ | _, v, n⟩ := p
  · simp [paramValue]
  · exact (toInt_emod v n.toNat h).symm

theorem wellFormedParam_iff {p : Parameter} :
    wellFormedParam p = true ↔ (1 ≤ p.byteLength.toNat ∧ p.byteLength.toNat ≤ 4) ∧ inRange p = true := by
  rw [wellFormedParam, Bool.and_eq_true, decide_eq_true_eq]

/-- An unsigned value in R23's range is the number that its bytes stand for (R103). -/
theorem paramValue_of_unsigned {p : Parameter} (hkind : p.kind = .unsigned) (hwf : wellFormedParam p = true) :
    paramValue p = unLE (asBytes p) := by
  obtain ⟨-, hrange⟩ := wellFormedParam_iff.mp hwf
  have hlt := (inRange_unsigned p hkind).mp hrange
  rw [asBytes, unLE_leBytes, Nat.mod_eq_of_lt hlt]
  simp only [paramValue, hkind]

/-- A number in the two's-complement range of `m` values, from its residue modulo `m`. -/
theorem eq_of_twosComplement_range {v : Int} {m : Nat} (hlow : -m ≤ v * 2) (hhigh : v * 2 < m) :
    v = if 2 * (v % m) < m then v % m else v % m - m :=
  calc v = v.bmod m := (Int.bmod_eq_of_le_mul_two hlow hhigh).symm
    _ = _ := by rw [Int.bmod_def]; exact if_congr (by omega) rfl rfl

/-- The values of n bytes are twice as many as those of their low `8 * n - 1` bits. -/
theorem pow256_eq {n : Nat} (h : 1 ≤ n) : 256 ^ n = 2 ^ (8 * n - 1) * 2 := by
  rw [← pow_succ, show 8 * n - 1 + 1 = 8 * n by omega, pow_mul]; norm_num

/-- A signed value in R23's range is the number that its bytes stand for as a two's-complement number (R103). -/
theorem paramValue_of_signed {p : Parameter} (hkind : p.kind = .signed) (hwf : wellFormedParam p = true) :
    paramValue p = if 2 * unLE (asBytes p) < 256 ^ (asBytes p).length then (unLE (asBytes p) : Int)
      else unLE (asBytes p) - 256 ^ (asBytes p).length := by
  obtain ⟨⟨hpos, hle⟩, hrange⟩ := wellFormedParam_iff.mp hwf
  have hvalue : paramValue p = p.value.toInt := by simp only [paramValue, hkind]
  obtain ⟨hlow, hhigh⟩ := (inRange_signed p hkind).mp hrange
  have hpow : ((256 ^ p.byteLength.toNat : Nat) : Int) = 2 ^ (8 * p.byteLength.toNat - 1) * 2 := by
    exact_mod_cast pow256_eq hpos
  have hdec := eq_of_twosComplement_range (v := paramValue p) (m := 256 ^ p.byteLength.toNat) (by omega) (by omega)
  rw [Nat.cast_pow, Nat.cast_ofNat, ← unLE_asBytes (by omega)] at hdec
  rw [asBytes_length, hdec]
  exact if_congr (by norm_cast) rfl rfl

/-- Settles O10: `check_param` decides, and the bytes determine a value in R23's range of the Parameter's kind. -/
theorem paramAsBytesIsLittleEndian : Obligations.ParamAsBytesIsLittleEndian := by
  refine fun s p => ⟨fun e he => ?_, fun hok => ⟨asBytes p, ?_, asBytes_length p, ?_, fun hwf => ?_⟩, rfl⟩
  · exact answers_error rfl (by simp only [pureResult, checkParam_of_some he])
  · exact answers_ok rfl (by simp only [pureResult, checkParam_of_none hok])
  · exact unLE_asBytes (by have := paramError_none_width hok; omega)
  · cases hkind : p.kind with
    | unsigned => exact paramValue_of_unsigned hkind hwf
    | signed => exact paramValue_of_signed hkind hwf

/-! ### PARAM_FROM_SLICE -/

/-- A parameter block has the sum of the widths as its length (R104). -/
theorem fromSlice_length (ps : List Parameter) :
    (fromSlice ps).length = (ps.map fun p => p.byteLength.toNat).sum := by
  simp only [fromSlice, List.length_flatMap, asBytes_length]

/-- Settles O11: the checks of the list report its first failing element, and otherwise the block is answered. -/
theorem paramFromSliceConcatenates : Obligations.ParamFromSliceConcatenates := by
  refine fun s ps => ⟨?_, fun hok => ⟨?_, ?_⟩, rfl⟩
  · rintro before p after e rfl hbefore hp
    exact answers_error rfl (checkedSlice_of_some (firstParamError_append_cons hbefore hp))
  · rw [← List.flatMap_def]
    exact answers_ok rfl (checkedSlice_of_none (firstParamError_none.mpr hok))
  · rw [← List.flatMap_def]
    exact fromSlice_length ps

/-! ### OPCODE_ENCODE and OPCODE_DECODE -/

@[simp] theorem mem_allCodes (c : InstructionCode) : c ∈ allCodes := by cases c <;> decide

/-- The pairs of R74's table are those of a code and its byte. -/
theorem mem_codePairs {c : InstructionCode} {b : Byte} :
    (c, b) ∈ allCodes.map (fun d => (d, opcode d)) ↔ b = opcode c := by
  simp [eq_comm]

/-- A byte has no code when it is none of the nine bytes (R107). -/
theorem codeOf_eq_none {b : Byte} : codeOf b = none ↔ b ∉ allCodes.map opcode := by
  simp only [codeOf, List.find?_eq_none, beq_iff_eq, List.mem_map, not_exists, not_and]

theorem opcodeEncode_answers (c : InstructionCode) (s : State) :
    Answers (.opcodeEncode c) s (.ok (.byte (opcode c))) :=
  answers_ok rfl rfl

theorem opcodeDecode_answers_code (c : InstructionCode) (s : State) :
    Answers (.opcodeDecode (opcode c)) s (.ok (.code c)) :=
  answers_ok rfl (by simp only [pureResult, codeOf_opcode])

theorem opcodeDecode_answers_error {b : Byte} (h : codeOf b = none) (s : State) :
    Answers (.opcodeDecode b) s (.error (.unknownInstruction b)) :=
  answers_error rfl (by simp only [pureResult, h])

/-- Settles O12: the listed pairs and bytes are those of the nine members. -/
theorem opcodeVocabularyIsBidirectional : Obligations.OpcodeVocabularyIsBidirectional := by
  refine fun s => ⟨fun c b hpair => ?_, fun b hbyte => ?_, fun _ => rfl, fun _ => rfl⟩
  · obtain rfl : b = opcode c := mem_codePairs.mp hpair
    exact ⟨opcodeEncode_answers c s, opcodeDecode_answers_code c s⟩
  · exact opcodeDecode_answers_error (codeOf_eq_none.mpr hbyte) s

end Sys2Proof.Machine
end

section
/-! PROOFS. The checksum and the frame by its offsets (41_packet_codec.md R120, R121; 30_encoding.md R71, R73). -/

namespace Sys2Proof.Machine

/-! ### A frame in its parts, and the offsets of the parts -/

/-- A buffer of at least 6 bytes is the five fixed bytes, the parameter bytes and the last byte (R71). -/
theorem exists_parts_of_length {buf : List Byte} (h : 6 ≤ buf.length) :
    ∃ h0 h1 id len op pb ck, buf = h0 :: h1 :: id :: len :: op :: (pb ++ [ck]) := by
  match buf, h with
  | h0 :: h1 :: id :: len :: op :: p0 :: rest, _ =>
    obtain ⟨pb, ck, htail⟩ : ∃ pb ck, p0 :: rest = pb ++ [ck] :=
      (List.eq_nil_or_concat' (p0 :: rest)).resolve_left (by simp)
    exact ⟨h0, h1, id, len, op, pb, ck, by rw [htail]⟩

section
variable (h0 h1 id len op : Byte) (pb : List Byte) (ck : Byte)

theorem parts_length : (h0 :: h1 :: id :: len :: op :: (pb ++ [ck])).length = pb.length + 6 := by simp

/-- The parameter bytes stand at offsets 5..n-2 (R71). -/
theorem parts_paramBytes :
    ((h0 :: h1 :: id :: len :: op :: (pb ++ [ck])).drop 5).take
      ((h0 :: h1 :: id :: len :: op :: (pb ++ [ck])).length - 6) = pb := by simp

/-- The checksum byte stands at offset n-1 (R71). -/
theorem parts_last :
    (h0 :: h1 :: id :: len :: op :: (pb ++ [ck])).getD
      ((h0 :: h1 :: id :: len :: op :: (pb ++ [ck])).length - 1) 0#8 = ck := by simp

end

/-! ### The checksum -/

/-- R120's formula, with the sum over the list. -/
theorem checksum_toNat_sum (id len op : Byte) (pb : List Byte) :
    (checksum id len op pb).toNat = 255 - (id.toNat + len.toNat + op.toNat + (pb.map BitVec.toNat).sum) % 256 := by
  rw [checksum_toNat, byteSum_eq]

/-- A byte is the checksum of others when it completes their sum to 0xFF modulo 256 (R120). -/
theorem checksum_eq_iff (id len op ck : Byte) (pb : List Byte) :
    checksum id len op pb = ck ↔ (id.toNat + len.toNat + op.toNat + byteSum pb + ck.toNat) % 256 = 0xFF := by
  have hck := ck.isLt
  rw [← BitVec.toNat_inj, checksum_toNat]
  omega

/-- The checksum as a sum of bytes modulo 256 (R32, R120). -/
theorem checksum_eq_accumulate (id len op : Byte) (pb : List Byte) :
    checksum id len op pb = ~~~ accumulate (id + len + op) pb := by
  rw [← eightBitAccumulatorGivesChecksum id len op pb]
  simp only [accumulate, BitVec.zero_add]

/-- Settles O16: CHECKSUM answers the function of R120. -/
theorem checksumIsComplementOfLowByte : Obligations.ChecksumIsComplementOfLowByte :=
  fun _ id len op bytes => ⟨_, answers_ok rfl rfl, checksum_toNat_sum id len op bytes, rfl⟩

/-- Settles O17: in the frame's parts, both conditions say that the last byte completes the sum of the others. -/
theorem checksumValidIffBytesSumTo255 : Obligations.ChecksumValidIffBytesSumTo255 := by
  refine ⟨checksum_toNat_sum, fun frame hlen => ?_⟩
  obtain ⟨h0, h1, id, len, op, pb, ck, rfl⟩ := exists_parts_of_length hlen
  have hvalid : checksumValid (h0 :: h1 :: id :: len :: op :: (pb ++ [ck])) = true ↔ checksum id len op pb = ck := by
    rw [checksumValid_parts, beq_iff_eq, eq_comm]
  have hsum : (((h0 :: h1 :: id :: len :: op :: (pb ++ [ck])).drop 2).map BitVec.toNat).sum
      = id.toNat + len.toNat + op.toNat + byteSum pb + ck.toNat := by
    simp [← byteSum_eq]; omega
  constructor
  · rw [hvalid, parts_paramBytes, parts_last]; rfl
  · rw [hvalid, hsum, checksum_eq_iff]

end Sys2Proof.Machine
end

section
/-! PROOFS. PARSE by the offsets of the buffer (41_packet_codec.md R140). -/

namespace Sys2Proof.Machine

/-- Step 1 by offsets (R140). -/
theorem hasHeader_eq_false_iff {buf : List Byte} :
    hasHeader buf = false ↔ buf.length < 2 ∨ buf.getD 0 0#8 ≠ 0xFF#8 ∨ buf.getD 1 0#8 ≠ 0xFF#8 := by
  match buf with
  | [] | [_] => simp [hasHeader]
  | h0 :: h1 :: rest => simp [hasHeader, imp_iff_not_or]

/-- Step 1 by the first two bytes (R140). -/
theorem hasHeader_iff_take {buf : List Byte} : hasHeader buf = true ↔ buf.take 2 = [0xFF#8, 0xFF#8] := by
  match buf with
  | [] | [_] => simp [hasHeader]
  | h0 :: h1 :: rest => simp [hasHeader]

/-- Steps 3 and 4 (R140). -/
theorem contextLengthOk_eq_false_iff {code : InstructionCode} {reqLen : Byte} {n : Nat} :
    contextLengthOk ⟨code, reqLen⟩ n = false ↔ (code = .ping ∧ n ≠ 6) ∨ (code = .read ∧ n ≠ 6 + reqLen.toNat) := by
  cases code <;> simp [contextLengthOk]

/-- Steps 2 to 6 by offsets (R140). -/
theorem validateLength_offsets (code : InstructionCode) (reqLen : Byte) (buf : List Byte) :
    validateLength ⟨code, reqLen⟩ buf =
      if buf.length < 6 ∨ (code = .ping ∧ buf.length ≠ 6) ∨ (code = .read ∧ buf.length ≠ 6 + reqLen.toNat)
        ∨ (buf.getD 3 0#8).toNat ≠ buf.length - 4 then .error .invalidLength
      else .ok ⟨buf.getD 2 0#8, buf.getD 3 0#8, buf.getD 4 0#8, (buf.drop 5).take (buf.length - 6),
        buf.getD (buf.length - 1) 0#8⟩ := by
  by_cases hshort : buf.length < 6
  · rw [if_pos (.inl hshort), validateLength_short _ _ hshort]
  · obtain ⟨h0, h1, id, len, err, pb, ck, rfl⟩ := exists_parts_of_length (not_lt.mp hshort)
    rw [ite_or, if_neg hshort, validateLength_parts, parts_paramBytes, parts_last, parts_length]
    simp only [contextLengthOk_eq_false_iff, ite_or, List.getD_cons_succ, List.getD_cons_zero, Nat.reduceSubDiff]

/-- Step 7: the Parameters of a reply (R140, R80). -/
theorem replyParams_eq (code : InstructionCode) (reqLen : Byte) (pb : List Byte) :
    replyParams ⟨code, reqLen⟩ pb = if code = .read then [unsignedParam (unLE pb) reqLen.toNat] else pb.map byteParam := by
  cases code <;> rfl

/-- Steps 8 and 9 on the fields (R140). -/
theorem response_of_fields (code : InstructionCode) (reqLen : Byte) (f : StatusFields) :
    resultResponse (packetResult
        (if checksumMatches f = false then .error .invalidChecksum else .ok (statusPacket ⟨code, reqLen⟩ f))) =
      if checksum f.id f.len f.err f.pb ≠ f.checksum then .error .invalidChecksum
      else .ok (.packet ⟨f.id, .status (statusDecode f.err),
        if code = .read then [unsignedParam (unLE f.pb) reqLen.toNat] else f.pb.map byteParam, f.checksum⟩) := by
  simp only [checksumMatches, beq_eq_false_iff_ne, statusPacket, replyParams_eq]
  split <;> rfl

/-- PARSE's result is that of R140's steps by offsets. -/
theorem parse_eq_parseByOffsets (buf : List Byte) (ctxCode reqLen : Byte) :
    resultResponse (packetResult (parse buf ctxCode reqLen)) = parseByOffsets buf ctxCode reqLen := by
  have hreq : ¬ readLengthOk reqLen ↔ reqLen.toNat < 1 ∨ 4 < reqLen.toNat := by rw [not_and_or, not_le, not_le]
  simp only [parse, parseContext, ctxOf, parseByOffsets, ← ite_or]
  cases codeOf ctxCode with
  | none => rfl
  | some code =>
    by_cases hcontext : code = .read ∧ (reqLen.toNat < 1 ∨ 4 < reqLen.toNat)
    · simp only [hreq, if_pos hcontext]
      rfl
    simp only [hreq, if_neg hcontext, parseIn, hasHeader_eq_false_iff, validateLength_offsets]
    by_cases hheader : buf.length < 2 ∨ buf.getD 0 0#8 ≠ 0xFF#8 ∨ buf.getD 1 0#8 ≠ 0xFF#8
    · simp only [if_pos hheader]
      rfl
    by_cases hlength : buf.length < 6 ∨ (code = .ping ∧ buf.length ≠ 6) ∨ (code = .read ∧ buf.length ≠ 6 + reqLen.toNat)
        ∨ (buf.getD 3 0#8).toNat ≠ buf.length - 4
    · simp only [if_neg hheader, if_pos hlength]
      rfl
    simp only [if_neg hheader, if_neg hlength]
    exact response_of_fields code reqLen _

/-- PARSE answers the error of its checks. -/
theorem parse_answers_error {buf : List Byte} {ctxCode reqLen : Byte} {e : CmdError}
    (h : parse buf ctxCode reqLen = .error e) (s : State) : Answers (.parse buf ctxCode reqLen) s (.error e) :=
  answers_error rfl (by simp only [pureResult, h, packetResult])

/-- PARSE refuses a Read context of an unsupported length before it looks at the buffer (R140 step 0). -/
theorem parse_read_unsupported (buf : List Byte) {reqLen : Byte} (h : ¬ readLengthOk reqLen) :
    parse buf (opcode .read) reqLen = .error .unsupportedReadLength := by
  simp only [parse, parseContext, ctxOf_opcode, true_and, if_pos h]

/-- Settles O25: PARSE has no side effect, and its result is that of the steps by offsets. -/
theorem parseFollowsTheOffsets : Obligations.ParseFollowsTheOffsets := by
  refine fun s buf ctxCode reqLen => ⟨?_, rfl⟩
  rw [← parse_eq_parseByOffsets]
  exact answers_pureResult rfl s

end Sys2Proof.Machine
end

section
/-! PROOFS. GENERATE: its checks in order, its frame, and the round trip through PARSE (41_packet_codec.md R130, R131,
R142). -/

namespace Sys2Proof.Machine

/-- GENERATE answers the error of its checks. -/
theorem generate_answers_error {p : Packet} {e : CmdError} (h : generate p = .error e) (s : State) :
    Answers (.generate p) s (.error e) :=
  answers_error rfl (by simp only [pureResult, h, frameResult])

/-- GENERATE answers its frame. -/
theorem generate_answers_frame {p : Packet} {frame : List Byte} (h : generate p = .ok frame) (s : State) :
    Answers (.generate p) s (.ok (.frame frame)) :=
  answers_ok rfl (by simp only [pureResult, h, frameResult])

/-- A frame that GENERATE has answered is the one of its packet (R131). -/
theorem generate_of_answered {s t : State} {p : Packet} {frame : List Byte} (h : exec (.generate p) s = .next t)
    (hr : t.responses = .ok (.frame frame) :: s.responses) : generate p = .ok frame := by
  have hresult : frameResult (generate p) = .ok (.frame frame) :=
    resultResponse_eq_ok.mp (response_of_finish h hr).symm
  cases hg : generate p with
  | error e => simp [hg, frameResult] at hresult
  | ok f => simpa [hg, frameResult] using hresult

section
variable {p : Packet} {code : InstructionCode}

theorem generate_of_status {flags : FlagSet} (h : p.operation = .status flags) : generate p = .error .notAnInstruction := by
  simp only [generate_eq, h]

theorem generate_of_noAddress (hcode : p.operation = .instruction code) (haddr : p.deviceAddress = 0xFF#8) :
    generate p = .error (.invalidDeviceId 0xFF#8) := by
  simp only [generate_eq, hcode, if_pos haddr]

theorem generate_of_paramError {e : CmdError} (hcode : p.operation = .instruction code)
    (haddr : p.deviceAddress ≠ 0xFF#8) (he : firstParamError .reject p.parameters = some e) : generate p = .error e := by
  simp only [generate_eq, hcode, if_neg haddr, he]

theorem generate_of_long (hcode : p.operation = .instruction code) (haddr : p.deviceAddress ≠ 0xFF#8)
    (hok : firstParamError .reject p.parameters = none) (hlong : 253 < (fromSlice p.parameters).length) :
    generate p = .error .frameTooLong := by
  simp only [generate_eq, hcode, if_neg haddr, hok, if_pos hlong]

theorem generate_of_checked (hcode : p.operation = .instruction code) (haddr : p.deviceAddress ≠ 0xFF#8)
    (hok : firstParamError .reject p.parameters = none) (hlen : (fromSlice p.parameters).length ≤ 253) :
    generate p = .ok (frameBytes p.deviceAddress (opcode code) (fromSlice p.parameters)) := by
  simp only [generate_eq, hcode, if_neg haddr, hok, if_neg (not_lt.mpr hlen)]

/-- A well-formed Instruction packet holds its own checksum (R25). -/
theorem checksum_of_wellFormedPacket (hcode : p.operation = .instruction code) (hwf : wellFormedPacket p = true) :
    checksum p.deviceAddress (wireLength (fromSlice p.parameters)) (opcode code) (fromSlice p.parameters) = p.checksum := by
  simp only [wellFormedPacket, hcode, Bool.and_eq_true, beq_iff_eq] at hwf
  exact hwf.2.symm

end

/-- Settles O23: one equation of GENERATE for each of its checks. -/
theorem generateChecksThenSerializes : Obligations.GenerateChecksThenSerializes := by
  refine fun s p => ⟨fun flags h => generate_answers_error (generate_of_status h) s, fun code hcode => ⟨fun haddr => ?_,
    fun haddr => ⟨fun e he => ?_, ?_⟩⟩, rfl⟩
  · exact generate_answers_error (generate_of_noAddress hcode haddr) s
  · exact generate_answers_error (generate_of_paramError hcode haddr he) s
  · rintro hok pb rfl
    rw [← List.flatMap_def]
    refine ⟨fun hlong => ?_, fun hlen => ⟨?_, checksum_of_wellFormedPacket hcode⟩⟩
    · exact generate_answers_error (generate_of_long hcode haddr hok hlong) s
    · exact generate_answers_frame (generate_of_checked hcode haddr hok hlen) s

/-- Settles O24: a frame answered is the packet's, and GENERATE reads no state. -/
theorem generatedFramesAreLawful : Obligations.GeneratedFramesAreLawful := by
  intro s s' t p frame hexec hresp
  have hgen := generate_of_answered hexec hresp
  exact ⟨instructionFrame_of_generate hgen, generate_answers_frame hgen s'⟩

/-- Settles O27: a builder's packet is serialized to the frame of its fields, which PARSE reads back. -/
theorem parseOfGenerateKeepsContent : Obligations.ParseOfGenerateKeepsContent := by
  intro i s t p ctxCode reqLen ctx hbuilder hhardware hexec hresp hctx hping hread
  obtain ⟨addr, code, ps, hmk⟩ := built_mkInstruction hbuilder hexec hresp
  rw [hhardware.1] at hmk
  obtain ⟨-, hok, hlen, rfl⟩ := mkInstruction_ok hmk
  have hparse := parse_frame ctxCode reqLen addr (opcode code) (fromSlice ps) ctx hctx hlen hping hread
  refine ⟨_, _, code, rfl, generate_answers_frame (generate_of_mkInstruction hok hmk) s,
    answers_ok rfl (packetResult_eq_ok.mpr ⟨_, hparse, rfl⟩), rfl, ?_, rfl, rfl⟩
  exact fromSlice_reply ctx reqLen (fromSlice ps) hread

end Sys2Proof.Machine
end

section
/-! PROOFS. The transport boundary: the reply's length, SEND and RECEIVE (41_packet_codec.md R145, R150, R151). -/

namespace Sys2Proof.Machine

/-! ### EXPECTED_REPLY_LENGTH -/

theorem expectedReplyLength_opcode (t : ReplyLenTable) (code : InstructionCode) (reqLen : Byte) :
    expectedReplyLength t (opcode code) reqLen = replyLengthOf t code reqLen := by
  simp only [expectedReplyLength, ctxOf_opcode]

theorem expectedReplyLength_of_codeOf_none (t : ReplyLenTable) {c : Byte} (reqLen : Byte) (h : codeOf c = none) :
    expectedReplyLength t c reqLen = .error (.unknownInstruction c) := by
  simp only [expectedReplyLength, ctxOf, h]

/-- A Read of an unsupported length has no reply length (R145, D17). -/
theorem replyLengthOf_read_unsupported (t : ReplyLenTable) {reqLen : Byte} (h : ¬ readLengthOk reqLen) :
    replyLengthOf t .read reqLen = .error .unsupportedReadLength := if_pos h

theorem replyLengthOf_read (t : ReplyLenTable) {reqLen : Byte} (h : readLengthOk reqLen) :
    replyLengthOf t .read reqLen = .ok (some (6 + reqLen.toNat)) := if_neg (not_not.mpr h)

theorem expectedReplyLength_answers {s : State} {c reqLen : Byte} {n : Option Nat}
    (h : expectedReplyLength s.config.replyLenOther c reqLen = .ok n) :
    Answers (.expectedReplyLength c reqLen) s (.ok (.replyLength n)) :=
  answers_ok rfl (by simp only [pureResult, h])

theorem expectedReplyLength_answers_error {s : State} {c reqLen : Byte} {e : CmdError}
    (h : expectedReplyLength s.config.replyLenOther c reqLen = .error e) :
    Answers (.expectedReplyLength c reqLen) s (.error e) :=
  answers_error rfl (by simp only [pureResult, h])

/-- The rows of the OPEN table are those of the seven codes that have no length of their own (R145). -/
theorem expectedReplyLength_of_mem_otherRows {t : ReplyLenTable} {c : Byte} {n : Option Nat}
    (h : (c, n) ∈ [InstructionCode.write, .regWrite, .action, .reset, .reboot, .syncWrite, .bulkRead].map
      fun code => (opcode code, replyLenOther t code)) (reqLen : Byte) :
    expectedReplyLength t c reqLen = .ok n := by
  obtain ⟨code, hmem, hrow⟩ := List.mem_map.mp h
  obtain ⟨rfl, rfl⟩ := Prod.mk.inj hrow
  rw [expectedReplyLength_opcode]
  cases code with
  | ping | read => simp at hmem
  | _ => rfl

/-- Settles O29: the code decides which length it is. -/
theorem expectedReplyLengthByContext : Obligations.ExpectedReplyLengthByContext := by
  refine fun s reqLen => ⟨?_, fun hok => ?_, fun hbad => ?_, fun c n hrow => ?_, fun c hnone => ?_, fun _ => rfl⟩
  · exact expectedReplyLength_answers (expectedReplyLength_opcode _ .ping reqLen)
  · exact expectedReplyLength_answers ((expectedReplyLength_opcode _ .read reqLen).trans (replyLengthOf_read _ hok))
  · exact expectedReplyLength_answers_error
      ((expectedReplyLength_opcode _ .read reqLen).trans (replyLengthOf_read_unsupported _ hbad))
  · exact expectedReplyLength_answers (expectedReplyLength_of_mem_otherRows hrow reqLen)
  · exact expectedReplyLength_answers_error (expectedReplyLength_of_codeOf_none _ reqLen hnone)

/-! ### SEND -/

section
variable {s : State} {packet : Packet} {ctxCode reqLen : Byte}

theorem sendState_of_open {x : Exchange} (h : s.outstanding = some x) :
    sendState packet ctxCode reqLen s = s.raise .exchangeInFlight := by
  simp only [sendState, h]

theorem sendState_of_contextError {e : CmdError} (hnone : s.outstanding = none)
    (he : expectedReplyLength s.config.replyLenOther ctxCode reqLen = .error e) :
    sendState packet ctxCode reqLen s = s.raise e := by
  simp only [sendState, hnone, he]

section
variable {expect : Option Nat} (hnone : s.outstanding = none)
  (hexpect : expectedReplyLength s.config.replyLenOther ctxCode reqLen = .ok expect)
include hnone hexpect

theorem sendState_of_generateError {e : CmdError} (he : generate packet = .error e) :
    sendState packet ctxCode reqLen s = s.raise e := by
  simp only [sendState, hnone, hexpect, he]

/-- Past its checks SEND writes the frame, and the transport's answer decides (R150). -/
theorem sendState_of_frame {frame : List Byte} (hframe : generate packet = .ok frame) :
    sendState packet ctxCode reqLen s
      = sendAnswered frame (openedExchange ctxCode reqLen expect) s.txAnswer (s.txWrite frame) := by
  simp only [sendState, hnone, hexpect, hframe]

end
end

/-- The write and its answer go on the bus (R9). -/
theorem State.txWrite_of_answer {s : State} {r : TxResult} (h : s.txAnswer = r) (frame : List Byte) :
    s.txWrite frame = { s with txAnswers := s.txAnswers.tail, bus := .write frame r :: s.bus } := by
  rw [State.txWrite, h]

theorem exec_send_of_sendState {s t : State} {packet : Packet} {ctxCode reqLen : Byte}
    (h : sendState packet ctxCode reqLen s = t) : exec (.send packet ctxCode reqLen) s = .next t :=
  congrArg Host.Outcome.next h

theorem sendAnswered_short {frame : List Byte} (opened : Option Exchange) {k : Nat} (h : k ≠ frame.length) (s : State) :
    sendAnswered frame opened (.ok k) s = s.raise (.transportError (.shortWrite k)) := if_pos h

/-- After a full write the tracker holds the exchange opened, if any (R150). -/
theorem sendAnswered_full (frame : List Byte) (opened : Option Exchange) {s : State} (hnone : s.outstanding = none) :
    sendAnswered frame opened (.ok frame.length) s = (s.setOutstanding opened).answer (.ok (.written frame.length)) := by
  cases opened with
  | none => simp only [sendAnswered, State.setOutstanding, ← hnone, ne_eq, not_true_eq_false, if_false]
  | some x => simp only [sendAnswered, ne_eq, not_true_eq_false, if_false]

theorem openedExchange_of_codeOf {ctxCode : Byte} {code : InstructionCode} (h : codeOf ctxCode = some code)
    (reqLen : Byte) (expect : Option Nat) :
    openedExchange ctxCode reqLen expect = expect.map fun m => ⟨⟨code, reqLen⟩, m⟩ := by
  cases expect <;> simp only [openedExchange, ctxOf, h, Option.map]

/-- Settles O30: the checks before the write, then one case for each answer of the transport. -/
theorem sendWritesOneFrameAndOpensTheExchange : Obligations.SendWritesOneFrameAndOpensTheExchange := by
  refine fun s packet ctxCode reqLen => ⟨fun x hx => exec_send_of_sendState (sendState_of_open hx), fun hnone =>
    ⟨fun e he => exec_send_of_sendState (sendState_of_contextError hnone he), fun expect hexpect =>
      ⟨fun e he => exec_send_of_sendState (sendState_of_generateError hnone hexpect he), fun frame hframe => ?_⟩⟩, rfl⟩
  have hsend := exec_send_of_sendState (sendState_of_frame hnone hexpect hframe)
  refine ⟨fun e he => ?_, fun k hk hne => ?_, fun hfull => ?_⟩
  · rw [hsend, State.txWrite_of_answer he, he]; rfl
  · rw [hsend, State.txWrite_of_answer hk, hk, sendAnswered_short _ hne]; rfl
  · obtain ⟨code, hcode, -⟩ := expectedReplyLength_ok hexpect
    refine ⟨code, hcode, ?_⟩
    have hstill : (s.txWrite frame).outstanding = none := hnone
    rw [hsend, hfull, sendAnswered_full _ _ hstill, openedExchange_of_codeOf hcode, State.txWrite_of_answer hfull]
    rfl

/-! ### RECEIVE -/

theorem receiveState_of_none {s : State} (h : s.outstanding = none) : receiveState s = s.raise .noExchange := by
  simp only [receiveState, h]

/-- RECEIVE ends the exchange and reads, and the transport's answer decides (R151). -/
theorem receiveState_of_open {s : State} {x : Exchange} (h : s.outstanding = some x) :
    receiveState s = receiveAnswered x (s.rxAnswer x.expect) ((s.setOutstanding none).rxReadExact x.expect) := by
  simp only [receiveState, h]

/-- The read that ends the exchange and its answer go on the bus (R9, R151). -/
theorem State.rxReadExact_of_answer {s : State} {n : Nat} {r : RxResult} (h : s.rxAnswer n = r) :
    (s.setOutstanding none).rxReadExact n
      = { s with outstanding := none, rxAnswers := s.rxAnswers.tail, bus := .readExact n r :: s.bus } := by
  rw [← h]; rfl

theorem exec_receive_of_receiveState {s t : State} (h : receiveState s = t) : exec .receive s = .next t :=
  congrArg Host.Outcome.next h

/-- Settles O31: one case for each answer of the transport, and of the bytes for each length. -/
theorem receiveReadsTheReplyAndEndsTheExchange : Obligations.ReceiveReadsTheReplyAndEndsTheExchange := by
  refine fun s => ⟨fun hnone => exec_receive_of_receiveState (receiveState_of_none hnone), fun x hx => ?_, rfl⟩
  have hreceive := exec_receive_of_receiveState (receiveState_of_open hx)
  refine ⟨fun e he => ?_, fun bytes hbytes => ⟨resultResponse (packetResult (parseReply x bytes)), ?_, fun hlen => ?_,
    fun hlen => ?_⟩⟩
  · rw [hreceive, State.rxReadExact_of_answer he, he]; rfl
  · rw [hreceive, State.rxReadExact_of_answer hbytes, hbytes, receiveAnswered, State.finish_eq]
  · rw [parseReply_asked hlen, parse_eq_parseByOffsets]
  · simp only [parseReply_other hlen, hasHeader_iff_take]; rfl

end Sys2Proof.Machine
end

section
/-! PROOFS. The single-device builders: the packet, its frame and the errors (41_packet_codec.md R122 to R129). -/

namespace Sys2Proof.Machine

/-! ### What a builder that ends in `mk_instruction` answers -/

section
variable {i : Instr} {s : State} {addr : Byte} {code : InstructionCode} {ps : List Parameter}
  (hexec : exec i s = .next (s.finish (packetResult (mkInstruction s.config.paramWidthPolicy addr code ps))))
include hexec

theorem build_answers_noAddress (haddr : addr = 0xFF#8) : Answers i s (.error (.invalidDeviceId 0xFF#8)) := by
  have hanswer := answers_of_finish hexec
  rwa [mkInstruction_eq, if_pos haddr] at hanswer

theorem build_answers_paramError {e : CmdError} (haddr : addr ≠ 0xFF#8)
    (he : firstParamError s.config.paramWidthPolicy ps = some e) : Answers i s (.error e) := by
  have hanswer := answers_of_finish hexec
  rw [mkInstruction_eq, if_neg haddr, he] at hanswer
  exact hanswer

theorem build_answers_packet (haddr : addr ≠ 0xFF#8) (hok : firstParamError s.config.paramWidthPolicy ps = none)
    (hlen : (fromSlice ps).length ≤ 253) :
    Answers i s (.ok (.packet ⟨addr, .instruction code, ps,
      checksum addr (wireLength (fromSlice ps)) (opcode code) (fromSlice ps)⟩)) := by
  have hanswer := answers_of_finish hexec
  rw [mkInstruction_eq, if_neg haddr, hok] at hanswer
  simpa only [if_neg (not_lt.mpr hlen), packetResult, resultResponse_ok] using hanswer

end

/-- GENERATE serializes a packet of parameters that pass R102's checks, whatever checksum it holds (R130). -/
theorem generate_answers_built {addr : Byte} {code : InstructionCode} {ps : List Parameter} (haddr : addr ≠ 0xFF#8)
    (hok : firstParamError .reject ps = none) (hlen : (fromSlice ps).length ≤ 253) (ck : Byte) (s : State) :
    Answers (.generate ⟨addr, .instruction code, ps, ck⟩) s
      (.ok (.frame (frameBytes addr (opcode code) (fromSlice ps)))) :=
  generate_answers_frame (generate_of_checked rfl haddr hok hlen) s

/-! ### The empty block -/

/-- BUILD_PING, BUILD_ACTION, BUILD_RESET and BUILD_REBOOT are `mk_instruction` of no parameters (R123, R127 to R129). -/
theorem exec_emptyBlockBuilder {addr : Byte} {i : Instr} {code : InstructionCode} {op : Byte}
    (h : (i, code, op) ∈ [(Instr.buildPing addr, InstructionCode.ping, 0x01#8), (.buildAction addr, .action, 0x05#8),
      (.buildReset addr, .reset, 0x06#8), (.buildReboot addr, .reboot, 0x07#8)]) :
    (∀ s, exec i s = .next (s.finish (packetResult (mkInstruction s.config.paramWidthPolicy addr code []))))
      ∧ op = opcode code ∧ (encode i).bytes.head? = some op := by
  simp only [List.mem_cons, Prod.mk.injEq, List.not_mem_nil, or_false] at h
  rcases h with ⟨rfl, rfl, rfl⟩ | ⟨rfl, rfl, rfl⟩ | ⟨rfl, rfl, rfl⟩ | ⟨rfl, rfl, rfl⟩
  all_goals exact ⟨fun _ => rfl, rfl, rfl⟩

/-- Settles O19: the four builders are `mk_instruction` of no parameters, and GENERATE serializes its packet. -/
theorem emptyBlockBuildersMakeSixByteFrames : Obligations.EmptyBlockBuildersMakeSixByteFrames := by
  intro s addr i code op hrow
  obtain ⟨hexec, rfl, hcode⟩ := exec_emptyBlockBuilder hrow
  refine ⟨build_answers_noAddress (hexec s), fun haddr => ?_, hcode⟩
  have hck : ~~~ (addr + 0x02#8 + opcode code) = checksum addr 0x02#8 (opcode code) [] :=
    (checksum_eq_accumulate addr 0x02#8 (opcode code) []).symm
  rw [hck]
  exact ⟨build_answers_packet (hexec s) haddr rfl (Nat.zero_le _), generate_answers_built haddr rfl (Nat.zero_le _) _ s⟩

/-! ### Read -/

/-- Settles O20: the two operands pass every check, and the Read context's own check refuses the other lengths. -/
theorem readBuilderMakesEightByteFrame : Obligations.ReadBuilderMakesEightByteFrame := by
  refine fun s addr reg length => ⟨build_answers_noAddress rfl, fun haddr => ?_, fun hbad => ⟨fun buf => ?_,
    fun hnone p => ?_⟩, rfl⟩
  · have hbytes : fromSlice [byteParam reg, byteParam length] = [reg, length] := by simp
    have hok : ∀ policy, firstParamError policy [byteParam reg, byteParam length] = none := by simp
    have hbuild := build_answers_packet (i := .buildRead addr reg length) (s := s) rfl haddr (hok _) (by simp [hbytes])
    have hgen := generate_answers_built (code := .read) haddr (hok .reject) (by simp [hbytes])
    rw [hbytes] at hbuild hgen
    exact ⟨_, hbuild, by rw [checksum_eq_accumulate]; rfl, hgen _ s⟩
  · exact parse_answers_error (parse_read_unsupported buf hbad) s
  · exact exec_send_of_sendState (sendState_of_contextError hnone
      ((expectedReplyLength_opcode _ .read length).trans (replyLengthOf_read_unsupported _ hbad)))

/-! ### Write and RegWrite -/

/-- BUILD_WRITE and BUILD_REGWRITE are `mk_instruction` of the register and the data (R125, R126). -/
theorem exec_writeBuilder {addr reg : Byte} {data : Parameter} {i : Instr} {code : InstructionCode} {op : Byte}
    (h : (i, code, op) ∈ [(Instr.buildWrite addr reg data, InstructionCode.write, 0x03#8),
      (.buildRegWrite addr reg data, .regWrite, 0x04#8)]) :
    (∀ s, exec i s
        = .next (s.finish (packetResult (mkInstruction s.config.paramWidthPolicy addr code [byteParam reg, data]))))
      ∧ op = opcode code ∧ (encode i).bytes.head? = some op := by
  simp only [List.mem_cons, Prod.mk.injEq, List.not_mem_nil, or_false] at h
  rcases h with ⟨rfl, rfl, rfl⟩ | ⟨rfl, rfl, rfl⟩
  all_goals exact ⟨fun _ => rfl, rfl, rfl⟩

/-- The wire length of a register and a Parameter's bytes is `3 + byte_length` (R72, R125). -/
theorem wireLength_register_data (reg : Byte) (data : Parameter) :
    wireLength (reg :: asBytes data) = 0x03#8 + data.byteLength := by
  apply BitVec.eq_of_toNat_eq
  simp only [wireLength, List.length_cons, asBytes_length, BitVec.toNat_ofNat, BitVec.toNat_add]
  omega

/-- Settles O21: the register passes every check, so that the data's check decides, and GENERATE serializes the packet of
well-formed data. -/
theorem writeBuildersCarryRegisterAndData : Obligations.WriteBuildersCarryRegisterAndData := by
  intro s addr reg data i code op hrow
  obtain ⟨hexec, rfl, hcode⟩ := exec_writeBuilder hrow
  have hparams : ∀ policy, firstParamError policy [byteParam reg, data] = paramError policy data := by simp
  refine ⟨build_answers_noAddress (hexec s), fun e haddr he => ?_, fun haddr hok => ?_, hcode⟩
  · exact build_answers_paramError (hexec s) haddr ((hparams _).trans he)
  · have hwidth := paramError_none_width hok
    have hbytes : fromSlice [byteParam reg, data] = reg :: asBytes data := by simp
    have hlen : (fromSlice [byteParam reg, data]).length ≤ 253 := by simp; omega
    have hbuild := build_answers_packet (hexec s) haddr ((hparams _).trans hok) hlen
    rw [hbytes, wireLength_register_data] at hbuild
    refine ⟨_, hbuild, rfl, fun hwf => ?_⟩
    simpa only [hbytes, frameBytes, wireLength_register_data, List.cons_append, List.nil_append] using
      generate_answers_built haddr ((hparams _).trans (paramError_none_iff.mpr hwf)) hlen _ s

end Sys2Proof.Machine
end

section
/-! PROOFS. The status flags: the codec bit by bit, its three laws, and device errors as data (42_status_flags.md R170 to
R173). -/

namespace Sys2Proof.Machine

/-! ### The index of a flag -/

/-- A flag stands at its index in the order of R22. -/
theorem allFlags_getElem?_flagIndex (f : StatusFlag) : allFlags[flagIndex f]? = some f := by
  cases f <;> rfl

theorem flagIndex_injective : Function.Injective flagIndex := by
  intro f g h
  have hsome : some f = some g := by
    rw [← allFlags_getElem?_flagIndex f, h, allFlags_getElem?_flagIndex g]
  exact Option.some.inj hsome

/-- Every bit of a byte is a flag's bit (R22). -/
theorem exists_flagIndex_eq {i : Nat} (h : i < 8) : ∃ f, flagIndex f = i := by
  have hmembers : ∀ i < 8, ∃ f ∈ allFlags, flagIndex f = i := by decide
  obtain ⟨f, -, hf⟩ := hmembers i h
  exact ⟨f, hf⟩

/-- The mask 0xFE clears the bit of `Success` and keeps the others (R173). -/
theorem and_0xFE_getLsbD_flagIndex (b : Byte) (f : StatusFlag) :
    (b &&& 0xFE#8).getLsbD (flagIndex f) = true ↔ f ≠ .success ∧ b.getLsbD (flagIndex f) = true := by
  have hmask : (0xFE#8 : Byte).getLsbD (flagIndex f) = true ↔ f ≠ .success := by cases f <;> decide
  rw [BitVec.getLsbD_and, Bool.and_eq_true, hmask, and_comm]

/-- Bytes with the same bit for each flag are the same byte. -/
theorem byte_ext_of_flagIndex {a b : Byte}
    (h : ∀ f, a.getLsbD (flagIndex f) = true ↔ b.getLsbD (flagIndex f) = true) : a = b := by
  refine BitVec.eq_of_getLsbD_eq fun i hi => ?_
  obtain ⟨f, rfl⟩ := exists_flagIndex_eq hi
  exact Bool.eq_iff_iff.mpr (h f)

/-! ### STATUS_DECODE and STATUS_ENCODE -/

/-- The members of the decoded set (R170). -/
theorem hasFlag_statusDecode_iff {b : Byte} {f : StatusFlag} :
    hasFlag (statusDecode b) f = true ↔ f ≠ .success ∧ b.getLsbD (flagIndex f) = true := by
  rw [hasFlag_statusDecode, Bool.and_eq_true, bne_iff_ne]

theorem success_not_mem_flagList (s : FlagSet) : .success ∉ flagList s := by
  simp [hasFlag]

section
variable (setting : StatusEncodeSuccess) {flags : List StatusFlag}

/-- `Success` anywhere in the list gives 0x00 (R171). -/
theorem statusEncode_of_success_mem (h : .success ∈ flags) : statusEncode setting flags = 0x00#8 := by
  simp only [statusEncode, List.contains_iff_mem, if_pos h]

/-- Without `Success`, a bit of the byte is set when it is a listed flag's bit (R171). -/
theorem statusEncode_getLsbD (h : .success ∉ flags) (i : Nat) :
    (statusEncode setting flags).getLsbD i = true ↔ ∃ f ∈ flags, flagIndex f = i := by
  simp only [statusEncode, List.contains_iff_mem, if_neg h, orBits_getLsbD, BitVec.getLsbD_zero, Bool.false_or,
    List.any_eq_true, beq_iff_eq]

/-- Without `Success`, a flag's bit is set when the flag is listed (R171). -/
theorem statusEncode_getLsbD_flagIndex (h : .success ∉ flags) (f : StatusFlag) :
    (statusEncode setting flags).getLsbD (flagIndex f) = true ↔ f ∈ flags := by
  rw [statusEncode_getLsbD setting h]
  constructor
  · rintro ⟨g, hg, hindex⟩
    exact flagIndex_injective hindex ▸ hg
  · exact fun hf => ⟨f, hf, rfl⟩

end

/-- Settles O13: the command answers the decoded set, whose members are the set bits but bit 0. -/
theorem statusDecodeReadsBitsOneToSeven : Obligations.StatusDecodeReadsBitsOneToSeven :=
  fun _ _ => ⟨_, answers_ok rfl rfl, fun _ => hasFlag_statusDecode_iff, rfl⟩

/-- Settles O14: the short circuit, and each bit of the OR otherwise. -/
theorem statusEncodeOrsTheBits : Obligations.StatusEncodeOrsTheBits :=
  fun _ _ => ⟨_, answers_ok rfl rfl, statusEncode_of_success_mem _, fun h i _ => statusEncode_getLsbD _ h i, rfl⟩

/-- Settles O15: the two bytes of law (a) have the same flags' bits, and the two sets of laws (b) and (c) the same
members. -/
theorem statusCodecRoundTrips : Obligations.StatusCodecRoundTrips := by
  refine ⟨fun b => byte_ext_of_flagIndex fun f => ?_, fun flags hnone f => ?_, fun flags hsuccess => ?_⟩
  · rw [statusEncode_getLsbD_flagIndex _ (success_not_mem_flagList _), mem_flagList, hasFlag_statusDecode_iff,
      and_0xFE_getLsbD_flagIndex]
  · rw [hasFlag_statusDecode_iff, statusEncode_getLsbD_flagIndex _ hnone]
    exact and_iff_right_of_imp fun hf => ne_of_mem_of_not_mem hf hnone
  · rw [statusEncode_of_success_mem _ hsuccess]
    rfl

/-! ### Device errors are data -/

/-- Settles O28: the buffer is the frame of its fields, so PARSE answers its Status packet for every error byte (R172). -/
theorem deviceErrorsAreDataInAnOkResponse : Obligations.DeviceErrorsAreDataInAnOkResponse := by
  intro s ctxCode reqLen id err pb ctx hctx hlen hping hread
  have hparse := parse_frame ctxCode reqLen id err pb ctx hctx hlen (fun h => List.length_eq_zero_iff.mpr (hping h)) hread
  exact ⟨_, answers_ok rfl (packetResult_eq_ok.mpr ⟨_, hparse, rfl⟩), rfl, rfl⟩

end Sys2Proof.Machine
end

section
/-! PROOFS. The multi-device builders: SyncWrite and BulkRead packets, their frames and the errors (43_multi_device.md R180
to R184, R190, R191). -/

namespace Sys2Proof.Machine

/-! ### What both builders answer -/

/-- A builder whose result is an error answers it. -/
theorem build_answers_error {i : Instr} {s : State} {built : Except CmdError Packet} {e : CmdError}
    (hexec : exec i s = .next (s.finish (packetResult built))) (he : built = .error e) : Answers i s (.error e) := by
  subst he
  exact answers_of_finish hexec

/-- A Broadcast packet's fields, and GENERATE's frame of it (R122, R130). -/
theorem broadcast_answers {i : Instr} {s : State} {code : InstructionCode} {ps : List Parameter} {len : Byte}
    {pb : List Byte}
    (hbuild : Answers i s (.ok (.packet ⟨0xFE#8, .instruction code, ps,
      checksum 0xFE#8 (wireLength (fromSlice ps)) (opcode code) (fromSlice ps)⟩)))
    (hok : firstParamError .reject ps = none) (hbytes : fromSlice ps = pb) (hmax : pb.length ≤ 253)
    (hlen : len = wireLength pb) :
    ∃ p : Packet, Answers i s (.ok (.packet p)) ∧ p.deviceAddress = 0xFE#8 ∧ p.operation = .instruction code
      ∧ p.parameters = ps ∧ p.checksum = checksum 0xFE#8 len (opcode code) pb
      ∧ Answers (.generate p) s (.ok (.frame
          ([0xFF#8, 0xFF#8, 0xFE#8, len, opcode code] ++ pb ++ [checksum 0xFE#8 len (opcode code) pb]))) := by
  subst hbytes hlen
  exact ⟨_, hbuild, rfl, rfl, rfl, rfl, generate_answers_built (by decide) hok hmax _ s⟩

/-! ### BulkRead -/

/-- Check 2 of R190. -/
theorem buildBulkRead_of_repeat (c : Config) {entries : List BulkReadEntry} {d : Byte}
    (h : firstRepeat [] (entries.map BulkReadEntry.deviceId) = some d) :
    buildBulkRead c entries = .error (.duplicateDeviceId d) := by
  cases entries with
  | nil => cases h
  | cons => simp only [buildBulkRead, h]

/-- Distinct ids pass check 2 of R190. -/
theorem firstRepeat_of_nodup {ds : List Byte} (h : ds.Nodup) : firstRepeat [] ds = none :=
  firstRepeat_none.mpr ⟨h, fun _ _ => List.not_mem_nil⟩

section
variable (c : Config) {entries : List BulkReadEntry} (hdistinct : (entries.map BulkReadEntry.deviceId).Nodup)
include hdistinct

/-- Check 3 of R190, after check 2. -/
theorem buildBulkRead_of_nonConcrete {d : Byte}
    (h : firstNonConcrete (entries.map BulkReadEntry.deviceId) = some d) :
    buildBulkRead c entries = .error (.invalidDeviceId d) := by
  cases entries with
  | nil => cases h
  | cons => simp only [buildBulkRead, firstRepeat_of_nodup hdistinct, h]

/-- Check 4 of R190, after checks 2 and 3. -/
theorem buildBulkRead_of_long (hids : ∀ x ∈ entries, x.deviceId.toNat ≤ 253) (hlong : 84 < entries.length) :
    buildBulkRead c entries = .error .frameTooLong := by
  have hconcrete := firstNonConcrete_none.mpr (List.forall_mem_map.mpr hids)
  cases entries with
  | nil => cases hlong
  | cons x xs =>
    simp only [buildBulkRead, firstRepeat_of_nodup hdistinct, hconcrete]
    exact if_pos (show 253 < 1 + 3 * (x :: xs).length by omega)

end

/-- Settles O35: the packet holds the byte values of the block, which GENERATE serializes. -/
theorem bulkReadKeepsEntryOrder : Obligations.BulkReadKeepsEntryOrder := by
  intro s entries hne hdistinct hids hmax len pb hlen hpb
  obtain ⟨hbuild, hsize⟩ := buildBulkRead_eq s.config hne hdistinct hids hmax hpb
  have hanswer : Answers (.buildBulkRead entries) s _ :=
    answers_ok rfl (packetResult_eq_ok.mpr ⟨_, hbuild, rfl⟩)
  have hwire : len = wireLength pb := by rw [hlen, wireLength, hsize]; congr 1; omega
  obtain ⟨p, hp, haddr, hop, hparams, hck, hgen⟩ := broadcast_answers (code := .bulkRead)
    (by rwa [fromSlice_map_byteParam]) (firstParamError_map_byteParam _ pb) (fromSlice_map_byteParam pb) (by omega) hwire
  exact ⟨p, hp, haddr, hop, hparams, hck, hgen, rfl⟩

/-- Settles O36: one equation of BUILD_BULKREAD for each of its checks. -/
theorem bulkReadRejectsInOrder : Obligations.BulkReadRejectsInOrder := by
  refine fun s => ⟨build_answers_error rfl rfl, fun before e after hdistinct hrepeat => ?_,
    fun before e after hdistinct hids he => ?_, fun entries hdistinct hids hlong =>
      build_answers_error rfl (buildBulkRead_of_long _ hdistinct hids hlong)⟩
  · refine build_answers_error rfl (buildBulkRead_of_repeat _ ?_)
    rw [List.map_append, List.map_cons]
    exact firstRepeat_append hdistinct (fun _ _ => List.not_mem_nil) (.inl hrepeat)
  · refine build_answers_error rfl (buildBulkRead_of_nonConcrete _ hdistinct ?_)
    rw [List.map_append, List.map_cons]
    exact firstNonConcrete_append (List.forall_mem_map.mpr hids) he

/-! ### SyncWrite -/

/-- Settles O33: the entries are those of the devices' runs, whatever their order, so that the packet is the runs'. -/
theorem syncWriteAggregatesInAnyOrder : Obligations.SyncWriteAggregatesInAnyOrder := by
  intro s devices a0 bl c entries hne hasc hids hc hcount hwf hlast hblock hperm len pb hlen hpb
  obtain ⟨hbytes, hbytesLen⟩ := fromSlice_devices hcount fun d hd p hp => (hwf d hd p hp).2
  have hsmall : c * bl < 256 := by
    have := Nat.mul_le_mul_right (1 + c * bl) (List.length_pos_iff.mpr hne)
    omega
  have hok := firstParamError_devices (fun d hd p hp => (hwf d hd p hp).1) hsmall a0
  have hblockBytes : fromSlice (byteParam a0 :: unsignedParam (c * bl) 1
      :: devices.flatMap fun d => byteParam d.1 :: d.2) = pb := by
    simp [hbytes, hpb]
  have hsize : pb.length = 2 + devices.length * (1 + c * bl) := by
    rw [hpb, List.length_append, hbytesLen]
    rfl
  have hexec : exec (.buildSyncWrite entries) s = .next (s.finish (packetResult _)) :=
    congrArg (Host.Outcome.next ∘ s.finish ∘ packetResult)
      (buildSyncWrite_run s.config hne hasc hids hc hcount hwf hlast hblock hperm)
  have hwire : len = wireLength pb := by rw [hlen, wireLength, hsize]; congr 1; omega
  obtain ⟨p, hp, haddr, hop, hparams, hck, hgen⟩ := broadcast_answers
    (build_answers_packet hexec (by decide) (hok _) (by rw [hblockBytes]; omega)) (hok _) hblockBytes (by omega) hwire
  exact ⟨p, hp, haddr, hop, hparams, hck, hgen, rfl⟩

/-- Check 2 of R180. -/
theorem buildSyncWrite_of_nonConcrete (c : Config) {entries : List SyncWriteEntry} {d : Byte}
    (h : firstNonConcrete (entries.map SyncWriteEntry.deviceId) = some d) :
    buildSyncWrite c entries = .error (.invalidDeviceId d) := by
  cases entries with
  | nil => cases h
  | cons => simp only [buildSyncWrite, h]

/-- Check 3 of R180, after check 2. -/
theorem buildSyncWrite_of_paramError (c : Config) {entries : List SyncWriteEntry} {e : CmdError}
    (hids : ∀ x ∈ entries, x.deviceId.toNat ≤ 253)
    (h : firstParamError c.paramWidthPolicy (entries.map SyncWriteEntry.data) = some e) :
    buildSyncWrite c entries = .error e := by
  have hconcrete := firstNonConcrete_none.mpr (List.forall_mem_map.mpr hids)
  cases entries with
  | nil => cases h
  | cons => simp only [buildSyncWrite, hconcrete, checkParams_eq, h]

/-- A test of every device is one of every entry's device. -/
theorem any_devicesOf {entries : List SyncWriteEntry} {test : Byte → Bool} :
    (devicesOf entries).any test = true ↔ ∃ x ∈ entries, test x.deviceId = true := by
  simp only [List.any_eq_true, mem_devicesOf, List.mem_map, exists_exists_and_eq_and]

/-- Every device's addresses, in any order, are the run from `a0` (R182). -/
abbrev RunsFrom (a0 bl c : Nat) (entries : List SyncWriteEntry) : Prop :=
  ∀ x ∈ entries, (addressesFor x.deviceId entries).Perm (addressRun a0 bl c)

section
variable {e0 : SyncWriteEntry} {es : List SyncWriteEntry}

/-- Check 4 of R180 compares the widths with the first entry's, which has its own. -/
theorem widths_differ_iff : (e0 :: es).any (fun e => e.data.byteLength != e0.data.byteLength) = true ↔
    ∃ x ∈ es, x.data.byteLength ≠ e0.data.byteLength := by
  simp

/-- The first device is that of an entry. -/
theorem exists_first_device (e0 : SyncWriteEntry) (es : List SyncWriteEntry) (fallback : Byte) :
    ∃ x ∈ e0 :: es, x.deviceId = (devicesOf (e0 :: es)).headD fallback := by
  have hmem := (mem_devicesOf (e0 :: es) e0.deviceId).mpr List.mem_cons_self
  refine List.mem_map.mp ((mem_devicesOf _ _).mp ?_)
  rw [List.headD_eq_head?_getD, List.head?_eq_some_head (List.ne_nil_of_mem hmem)]
  exact List.head_mem _

/-- The first device has as many entries as the first entry's device, when every device has. -/
theorem first_device_count
    (h : ∀ x ∈ es, (entriesFor x.deviceId (e0 :: es)).length = (entriesFor e0.deviceId (e0 :: es)).length) :
    (entriesFor ((devicesOf (e0 :: es)).headD 0x00#8) (e0 :: es)).length
      = (entriesFor e0.deviceId (e0 :: es)).length := by
  obtain ⟨y, hy, hfirst⟩ := exists_first_device e0 es 0x00#8
  rw [← hfirst]
  rcases List.mem_cons.mp hy with rfl | hy
  · rfl
  · exact h y hy

/-- Check 5 of R180 compares the counts with the first device's; comparing them with those of the first entry's device
is the same. -/
theorem counts_differ_iff :
    (devicesOf (e0 :: es)).any (fun d => (entriesFor d (e0 :: es)).length
        != (entriesFor ((devicesOf (e0 :: es)).headD 0x00#8) (e0 :: es)).length) = true ↔
      ∃ x ∈ es, (entriesFor x.deviceId (e0 :: es)).length ≠ (entriesFor e0.deviceId (e0 :: es)).length := by
  simp only [any_devicesOf, bne_iff_ne]
  constructor
  · rintro ⟨x, hx, hne⟩
    by_contra hsame
    push Not at hsame
    rw [first_device_count hsame] at hne
    rcases List.mem_cons.mp hx with rfl | hx
    · exact hne rfl
    · exact hne (hsame x hx)
  · rintro ⟨x, hx, hne⟩
    by_contra hsame
    push Not at hsame
    exact hne ((hsame x (List.mem_cons_of_mem _ hx)).trans (hsame e0 List.mem_cons_self).symm)

/-- Check 7 of R180 compares the sorted addresses with the run: the addresses in any order are not the run's. -/
theorem addresses_differ_iff {a0 bl c : Nat} {entries : List SyncWriteEntry} :
    (devicesOf entries).any (fun d => addressesFor d (sortEntries entries) != addressRun a0 bl c) = true ↔
      ¬ RunsFrom a0 bl c entries := by
  rw [any_devicesOf]
  simp [addressesFor_eq_run]

/-- Runs from a common address start at the first sorted entry's (R182). -/
theorem exists_runsFrom_iff {bl c : Nat} : (∃ a0, RunsFrom a0 bl c (e0 :: es)) ↔
    RunsFrom ((sortEntries (e0 :: es)).headD e0).registerAddress.toNat bl c (e0 :: es) :=
  ⟨fun ⟨_, h⟩ => (run_start h).symm ▸ h, fun h => ⟨_, h⟩⟩

/-- Checks 4 to 8 of R180 in order, after checks 1 to 3, over the entries as they come. -/
theorem buildSyncWrite_checked (cfg : Config) (hids : ∀ x ∈ e0 :: es, x.deviceId.toNat ≤ 253)
    (hok : ∀ x ∈ e0 :: es, paramError cfg.paramWidthPolicy x.data = none) {bl c : Nat}
    (hbl : bl = e0.data.byteLength.toNat) (hc : c = (entriesFor e0.deviceId (e0 :: es)).length) :
    buildSyncWrite cfg (e0 :: es) =
      if ∃ x ∈ es, x.data.byteLength ≠ e0.data.byteLength then .error .inconsistentSize
      else if ∃ x ∈ es, (entriesFor x.deviceId (e0 :: es)).length ≠ (entriesFor e0.deviceId (e0 :: es)).length then
        .error .inconsistentLength
      else if cfg.swAddrCheck = .strict
          ∧ ¬ RunsFrom ((sortEntries (e0 :: es)).headD e0).registerAddress.toNat bl c (e0 :: es) then
        .error .inconsistentAddresses
      else if 253 < 2 + ((e0 :: es).map SyncWriteEntry.deviceId).dedup.length * (1 + c * bl) then .error .frameTooLong
      else mkInstruction cfg.paramWidthPolicy 0xFE#8 .syncWrite
        (syncParams ((sortEntries (e0 :: es)).headD e0).registerAddress (c * bl) (devicesOf (e0 :: es))
          (sortEntries (e0 :: es))) := by
  subst hbl hc
  have hconcrete := firstNonConcrete_none.mpr (List.forall_mem_map.mpr hids)
  have hparams := firstParamError_none.mpr (List.forall_mem_map.mpr hok)
  simp only [buildSyncWrite, hconcrete, checkParams_eq, hparams]
  refine if_congr widths_differ_iff rfl ?_
  by_cases hcount : ∃ x ∈ es, (entriesFor x.deviceId (e0 :: es)).length ≠ (entriesFor e0.deviceId (e0 :: es)).length
  · rw [if_pos hcount, if_pos (counts_differ_iff.mpr hcount)]
  · rw [if_neg hcount, if_neg (mt counts_differ_iff.mp hcount)]
    push Not at hcount
    rw [first_device_count hcount, devicesOf_length]
    exact if_congr (and_congr_right' addresses_differ_iff) rfl rfl

end

/-- Settles O34: checks 1 to 3 have an equation each, and the equation of checks 4 to 8 gives the others. -/
theorem syncWriteRejectsInOrder : Obligations.SyncWriteRejectsInOrder := by
  rintro s policy rfl
  refine ⟨build_answers_error rfl rfl, fun before e after hids he => ?_, fun e0 es hids =>
    ⟨fun err herr => build_answers_error rfl (buildSyncWrite_of_paramError _ hids herr), fun hok => ?_⟩⟩
  · refine build_answers_error rfl (buildSyncWrite_of_nonConcrete _ ?_)
    rw [List.map_append, List.map_cons]
    exact firstNonConcrete_append (List.forall_mem_map.mpr hids) he
  have hbuild := buildSyncWrite_checked s.config hids hok rfl rfl
  refine ⟨fun hwidths => build_answers_error rfl (hbuild.trans (if_pos hwidths)), fun hwidths => ?_⟩
  rw [if_neg (by simpa using hwidths)] at hbuild
  refine ⟨fun hcounts => build_answers_error rfl (hbuild.trans (if_pos hcounts)), fun hcounts => ?_⟩
  rw [if_neg (by simpa using hcounts)] at hbuild
  rintro bl c rfl rfl
  constructor
  · intro hstrict hnoRun
    exact build_answers_error rfl (hbuild.trans (if_pos ⟨hstrict, mt exists_runsFrom_iff.mpr hnoRun⟩))
  · intro hrun hlong
    rw [if_neg fun h => h.2 (exists_runsFrom_iff.mp hrun)] at hbuild
    exact build_answers_error rfl (hbuild.trans (if_pos hlong))

end Sys2Proof.Machine
end

section
/-! PROOFS. Errors: malformed data, which commands raise which errors, and what an error response leaves unchanged
(60_exceptions.md R220 to R223, R231, R233). -/

namespace Sys2Proof.Machine

/-! ### Malformed data is answered -/

/-- What PARSE accepts is a Status packet (R140 step 9). -/
theorem parse_ok_status {buf : List Byte} {ctxCode reqLen : Byte} {p : Packet} (h : parse buf ctxCode reqLen = .ok p) :
    ∃ flags, p.operation = .status flags := by
  unfold parse parseIn at h
  split at h
  · cases h
  split at h
  · cases h
  split at h
  · cases h
  split at h
  · cases h
  · cases h
    exact ⟨_, rfl⟩

/-- The errors of PARSE are of the parse class (R220, R221). -/
theorem parse_error_class {buf : List Byte} {ctxCode reqLen : Byte} {e : CmdError}
    (h : parse buf ctxCode reqLen = .error e) : errorClass e = .parse := by
  rcases parse_error h with ⟨rfl, -⟩ | ⟨rfl, -⟩ | rfl | rfl | rfl <;> rfl

/-- The errors of a reply are of the parse class (R151, R221). -/
theorem parseReply_error_class {x : Exchange} {bytes : List Byte} {e : CmdError} (h : parseReply x bytes = .error e) :
    errorClass e = .parse := by
  rcases parseReply_error h with ⟨rfl, -⟩ | rfl | rfl | rfl <;> rfl

/-- The answer of a parser that accepts Status packets only and fails with parse errors only (R233). -/
theorem response_status_or_parse {r : Except CmdError Packet}
    (hok : ∀ p, r = .ok p → ∃ flags, p.operation = .status flags)
    (herror : ∀ e, r = .error e → errorClass e = .parse) :
    (∃ p flags, resultResponse (packetResult r) = .ok (.packet p) ∧ p.operation = .status flags)
      ∨ ∃ e, resultResponse (packetResult r) = .error e ∧ errorClass e = .parse := by
  cases r with
  | ok p =>
    obtain ⟨flags, hstatus⟩ := hok p rfl
    exact .inl ⟨p, flags, rfl, hstatus⟩
  | error e => exact .inr ⟨e, rfl, herror e rfl⟩

/-- Settles O32: the answer is PARSE's result in the first case and that of the reply's parser in the second. -/
theorem malformedDataNeverStopsTheBlock : Obligations.MalformedDataNeverStopsTheBlock := by
  refine fun s bytes ctxCode reqLen => ⟨⟨_, answers_pureResult rfl s, ?_⟩, fun x hx hbytes => ?_⟩
  · exact response_status_or_parse (fun _ => parse_ok_status) (fun _ => parse_error_class)
  · have hreceive := exec_receive_of_receiveState (receiveState_of_open hx)
    rw [hbytes, receiveAnswered, State.finish_eq] at hreceive
    exact ⟨_, _, hreceive, rfl, response_status_or_parse (fun _ hp => parse_ok_status (parseReply_ok hp).2)
      fun _ => parseReply_error_class⟩

/-! ### Where an error response comes from -/

section
variable {s t : State} {e : CmdError} (hresp : t.responses = .error e :: s.responses)
include hresp

/-- A command without side effects that answers an error has that result, and has answered it only (R57). -/
theorem pureResult_of_error_response {i : Instr} (hi : isExchange i = false) (hexec : exec i s = .next t) :
    pureResult s.config i = .error e ∧ t = s.raise e := by
  rw [exec_pure hi] at hexec
  have herror := resp_err (response_of_finish hexec hresp)
  rw [herror] at hexec
  exact ⟨herror, (Host.Outcome.next.inj hexec).symm⟩

/-- SEND answers an error before its write, or a TransportError after it (R150). -/
theorem send_error_cases {p : Packet} {ctxCode reqLen : Byte} (hexec : exec (.send p ctxCode reqLen) s = .next t) :
    (t = s.raise e ∧ (e = .exchangeInFlight ∨ e = .unknownInstruction ctxCode ∨ e = .unsupportedReadLength
        ∨ e = .notAnInstruction ∨ e = .invalidDeviceId 0xFF#8 ∨ e = .invalidByteLength ∨ e = .parameterTooWide
        ∨ e = .frameTooLong))
      ∨ ∃ frame why, e = .transportError why ∧ t = (s.txWrite frame).raise e := by
  obtain rfl : sendState p ctxCode reqLen s = t := Host.Outcome.next.inj hexec
  rcases sendState_cases p ctxCode reqLen s with
    ⟨e', heq, herrors⟩ | ⟨frame, expect, -, -, -, ⟨why, heq⟩ | ⟨-, code, -, heq⟩⟩ <;> rw [heq] at hresp ⊢
  · cases hresp
    exact .inl ⟨rfl, herrors⟩
  · cases hresp
    exact .inr ⟨frame, why, rfl, rfl⟩
  · cases hresp

/-- RECEIVE answers NoExchange, or has ended the exchange and answers a TransportError or an error of the reply (R151). -/
theorem receive_error_cases (hexec : exec .receive s = .next t) :
    (e = .noExchange ∧ t = s.raise e)
      ∨ ∃ x, s.outstanding = some x ∧ t.outstanding = none
        ∧ ((∃ why, e = .transportError why) ∨ ∃ bytes, parseReply x bytes = .error e) := by
  obtain rfl : receiveState s = t := Host.Outcome.next.inj hexec
  rcases receiveState_cases s with ⟨-, heq⟩ | ⟨x, hx, r, heq, hanswer⟩ <;> rw [heq] at hresp ⊢
  · cases hresp
    exact .inl ⟨rfl, rfl⟩
  · obtain rfl : r = .error e := List.head_eq_of_cons_eq hresp
    refine .inr ⟨x, hx, rfl, ?_⟩
    rcases hanswer with ⟨io, -, herr⟩ | ⟨bytes, -, hreply⟩
    · exact .inl ⟨_, Response.error.inj herr⟩
    · exact .inr ⟨bytes, packetResult_error (resp_err hreply)⟩

end

/-- An instruction has no side effects, or is SEND or RECEIVE (R57). -/
theorem isExchange_cases (i : Instr) :
    isExchange i = false ∨ (∃ p ctxCode reqLen, i = .send p ctxCode reqLen) ∨ i = .receive := by
  cases i with
  | send p ctxCode reqLen => exact .inr (.inl ⟨p, ctxCode, reqLen, rfl⟩)
  | receive => exact .inr (.inr rfl)
  | _ => exact .inl rfl

/-! ### An error response changes nothing else -/

/-- Settles O41: the three kinds of commands, each with the state in which it answers an error. -/
theorem errorResponsesChangeNothingElse : Obligations.ErrorResponsesChangeNothingElse := by
  intro i s t e hexec hresp
  rcases isExchange_cases i with hi | ⟨p, ctxCode, reqLen, rfl⟩ | rfl
  · obtain ⟨-, rfl⟩ := pureResult_of_error_response hresp hi hexec
    have hne : i ≠ .receive := by rintro rfl; cases hi
    exact ⟨fun _ => rfl, fun _ _ => rfl, fun h => absurd h hne, fun h => absurd h hne⟩
  · rcases send_error_cases hresp hexec with ⟨rfl, -⟩ | ⟨frame, why, rfl, rfl⟩
    · exact ⟨fun _ => rfl, fun _ _ => rfl, nofun, nofun⟩
    · exact ⟨fun _ => rfl, fun _ hno => absurd rfl (hno why), nofun, nofun⟩
  · rcases receive_error_cases hresp hexec with ⟨rfl, rfl⟩ | ⟨x, -, hended, herror⟩
    · exact ⟨(absurd rfl ·), (absurd rfl ·), fun _ hne => absurd rfl hne, fun _ _ => rfl⟩
    · have hne : e ≠ .noExchange := by
        rcases herror with ⟨why, rfl⟩ | ⟨bytes, hreply⟩
        · nofun
        · rintro rfl
          cases parseReply_error_class hreply
      exact ⟨(absurd rfl ·), (absurd rfl ·), fun _ _ => hended, fun _ he => absurd he hne⟩

/-! ### A command raises only the errors of its row -/

/-- `mk_instruction` of a block that fits cannot raise FrameTooLong (R122). -/
theorem mkInstruction_error_of_fits {policy : ParamWidthPolicy} {addr : Byte} {code : InstructionCode}
    {ps : List Parameter} {e : CmdError} (h : mkInstruction policy addr code ps = .error e)
    (hfits : firstParamError policy ps = none → (fromSlice ps).length ≤ 253) :
    e = .invalidDeviceId 0xFF#8 ∨ firstParamError policy ps = some e := by
  rcases mkInstruction_error h with ⟨rfl, -⟩ | he | ⟨-, hok, hlong⟩
  · exact .inl rfl
  · exact .inr he
  · exact absurd (hfits hok) (not_le.mpr hlong)

/-- A builder of no Parameter operand raises InvalidDeviceId only (R123, R124, R127 to R129). -/
theorem mkInstruction_error_of_bytes {policy : ParamWidthPolicy} {addr : Byte} {code : InstructionCode} {bs : List Byte}
    {e : CmdError} (hlen : bs.length ≤ 253) (h : mkInstruction policy addr code (bs.map byteParam) = .error e) :
    e = .invalidDeviceId 0xFF#8 := by
  rcases mkInstruction_error_of_fits h (fun _ => by rwa [fromSlice_map_byteParam]) with he | he
  · exact he
  · rw [firstParamError_map_byteParam] at he
    cases he

/-- BUILD_WRITE and BUILD_REGWRITE raise InvalidDeviceId or the data's error, since a checked value has at most 4 bytes
(R125, R126). -/
theorem mkInstruction_error_of_data {policy : ParamWidthPolicy} {addr reg : Byte} {code : InstructionCode}
    {data : Parameter} {e : CmdError} (h : mkInstruction policy addr code [byteParam reg, data] = .error e) :
    e = .invalidDeviceId 0xFF#8 ∨ e = .invalidByteLength ∨ e = .parameterTooWide := by
  refine (mkInstruction_error_of_fits h fun hok => ?_).imp_right firstParamError_cases
  rw [firstParamError_byteParam, firstParamError_single] at hok
  have hwidth := (paramError_none_width hok).2
  simp only [fromSlice_cons, fromSlice_nil, asBytes_byteParam, List.length_append, asBytes_length, List.length_cons,
    List.length_nil]
  omega

/-- The errors of `check_param` (R102). -/
theorem checkParam_error {policy : ParamWidthPolicy} {p : Parameter} {e : CmdError}
    (h : checkParam policy p = .error e) : e = .invalidByteLength ∨ e = .parameterTooWide := by
  rw [checkParam_eq] at h
  split at h
  · cases h
    exact paramError_cases ‹_›
  · cases h

/-- The errors of PARAM_UNSIGNED and PARAM_SIGNED (R100, R101). -/
theorem constructParam_error {policy : ParamWidthPolicy} {p : Parameter} {e : CmdError}
    (h : constructParam policy p = .error e) : e = .invalidByteLength ∨ e = .parameterTooWide := by
  unfold constructParam at h
  split at h
  · cases h
    exact checkParam_error ‹_›
  · cases h

/-- The errors of PARAM_FROM_SLICE (R104). -/
theorem checkedSlice_error {ps : List Parameter} {e : CmdError} (h : checkedSlice ps = .error e) :
    e = .invalidByteLength ∨ e = .parameterTooWide := by
  cases hok : firstParamError .reject ps with
  | none => rw [checkedSlice_of_none hok] at h; cases h
  | some e' =>
    rw [checkedSlice_of_some hok] at h
    cases h
    exact firstParamError_cases hok

/-- A command that takes a Parameter may raise the errors of `check_param` (R102, R222). -/
theorem mayRaise_of_paramCheck {i : Instr} {e : CmdError} (hi : takesParameter i = true)
    (he : e = .invalidByteLength ∨ e = .parameterTooWide) : mayRaise i e = true := by
  rcases he with rfl | rfl <;> exact hi

/-- UnknownInstruction carries the byte taken as a code (R107, R141, R222). -/
theorem mayRaise_unknownInstruction {i : Instr} {b : Byte} (h : codeOperand i = some b) :
    mayRaise i (.unknownInstruction b) = true :=
  beq_iff_eq.mpr h

/-- A command without side effects raises the errors of its row in R222. -/
theorem mayRaise_of_pureResult {c : Config} {i : Instr} {e : CmdError} (hwire : i.isWire = false)
    (hi : isExchange i = false) (h : pureResult c i = .error e) : mayRaise i e = true := by
  cases i with
  | ping | read | write | regWrite | action | reset | reboot | syncWrite | bulkRead => cases hwire
  | send | receive => cases hi
  | checksum | opcodeEncode | statusDecode | statusEncode => cases h
  | buildPing | buildAction | buildReset | buildReboot =>
    obtain rfl := mkInstruction_error_of_bytes (bs := []) (Nat.zero_le _) (packetResult_error h)
    rfl
  | buildRead addr reg length =>
    obtain rfl := mkInstruction_error_of_bytes (bs := [reg, length]) (by simp) (packetResult_error h)
    rfl
  | buildWrite | buildRegWrite =>
    rcases mkInstruction_error_of_data (packetResult_error h) with rfl | rfl | rfl <;> rfl
  | buildSyncWrite entries =>
    rcases buildSyncWrite_error (packetResult_error h) with
      rfl | rfl | rfl | rfl | rfl | rfl | rfl | rfl | rfl <;> rfl
  | buildBulkRead entries =>
    rcases buildBulkRead_error (packetResult_error h) with rfl | ⟨d, rfl, hd⟩ | rfl | rfl | rfl
    case inr.inl => exact List.contains_iff_mem.mpr hd
    all_goals rfl
  | generate p =>
    rcases generate_error (frameResult_error h) with rfl | rfl | rfl | rfl | rfl <;> rfl
  | parse buf ctxCode reqLen =>
    rcases parse_error (packetResult_error h) with ⟨rfl, -⟩ | ⟨rfl, -⟩ | rfl | rfl | rfl
    case inl => exact mayRaise_unknownInstruction rfl
    all_goals rfl
  | expectedReplyLength ctxCode reqLen =>
    simp only [pureResult] at h
    split at h
    · cases h
      rcases expectedReplyLength_error ‹_› with rfl | rfl
      · exact mayRaise_unknownInstruction rfl
      · rfl
    · cases h
  | paramUnsigned | paramSigned => exact mayRaise_of_paramCheck rfl (constructParam_error h)
  | paramAsBytes p =>
    simp only [pureResult] at h
    split at h
    · cases h
      exact mayRaise_of_paramCheck rfl (checkParam_error ‹_›)
    · cases h
  | paramFromSlice ps => exact mayRaise_of_paramCheck rfl (checkedSlice_error h)
  | opcodeDecode b =>
    simp only [pureResult] at h
    split at h
    · cases h
    · cases h
      exact mayRaise_unknownInstruction rfl

/-- The invariant gives a stored Read context a supported length: another has no reply length (R145; log 18). -/
theorem readLengthOk_of_exchangeOk {s : State} {x : Exchange} (h : exchangeOk s x) (hread : x.ctx.code = .read) :
    readLengthOk x.ctx.requestedLength := by
  obtain ⟨-, hlen⟩ := h
  by_contra hbad
  rw [hread, replyLengthOf_read_unsupported _ hbad] at hlen
  cases hlen

/-- Settles O40: a command without side effects raises its result's error, SEND's and RECEIVE's errors are known, and
the invariant rules out the reply's UnsupportedReadLength. -/
theorem errorsComeFromTheirCommands : Obligations.ErrorsComeFromTheirCommands := by
  rintro i s t e ⟨-, -, hopen⟩ hwire hexec hresp
  rcases isExchange_cases i with hi | ⟨p, ctxCode, reqLen, rfl⟩ | rfl
  · exact mayRaise_of_pureResult hwire hi (pureResult_of_error_response hresp hi hexec).1
  · rcases send_error_cases hresp hexec with ⟨-, herrors⟩ | ⟨frame, why, rfl, -⟩
    · rcases herrors with rfl | rfl | rfl | rfl | rfl | rfl | rfl | rfl
      case inr.inl => exact mayRaise_unknownInstruction rfl
      all_goals rfl
    · rfl
  · rcases receive_error_cases hresp hexec with ⟨rfl, -⟩ | ⟨x, hx, -, ⟨why, rfl⟩ | ⟨bytes, hreply⟩⟩
    · rfl
    · rfl
    · rcases parseReply_error hreply with ⟨-, hread, hbad⟩ | rfl | rfl | rfl
      case inl => exact absurd (readLengthOk_of_exchangeOk (hopen x hx) hread) hbad
      all_goals rfl

end Sys2Proof.Machine
end

section
/-! PROOFS. Reset between commands and during one (70_reset_and_hazards.md R260). -/

namespace Sys2Proof.Machine

/-! ### One equation for each way a reset arrives -/

section
variable {s : State} {rest : List HostEvent}

/-- A reset between commands clears the tracker. -/
theorem step_of_reset (h : s.host = .reset :: rest) : step s = .next (s.withHost rest).applyReset := by
  simp only [step, takeEvent, h]

/-- Before its commit point the command is abandoned, whatever its bytes are (log 17). -/
theorem step_of_reset_before_commit {e : Encoded} (h : s.host = .resetDuring e false :: rest) :
    step s = .next (s.withHost rest).applyReset := by
  simp only [step, takeEvent, h, runAbandoned, Bool.false_eq_true, if_false]

/-- After its commit point a host command completes its step, loses its response, and is reset. -/
theorem step_of_reset_after_commit {i : Instr} {t : State} (hhost : i.isWire = false)
    (h : s.host = .resetDuring (encode i) true :: rest) (hexec : exec i (s.withHost rest) = .next t) :
    step s = .next (t.withoutResponse s).applyReset := by
  have hrun : runEncoded exec (encode i) (s.withHost rest) = .next t :=
    (runEncoded_of_decode (decode_encode_of_host hhost) exec _).trans hexec
  simp only [step, takeEvent, h, runAbandoned, if_true, hrun]
  rfl

end

/-! ### The transport's answer shows only in the response and the tracker, which the reset takes away -/

theorem applyReset_withoutResponse_sendAnswered (frame : List Byte) (opened : Option Exchange) (answer : TxResult)
    (s before : State) :
    ((sendAnswered frame opened answer s).withoutResponse before).applyReset
      = (s.withoutResponse before).applyReset := by
  cases answer with
  | err e => rfl
  | ok k =>
    by_cases hk : k = frame.length
    · subst hk
      simp only [sendAnswered, ne_eq, not_true_eq_false, if_false]
      cases opened <;> rfl
    · rw [sendAnswered_short opened hk]
      rfl

theorem withoutResponse_receiveAnswered (x : Exchange) (answer : RxResult) (s before : State) :
    (receiveAnswered x answer s).withoutResponse before = s.withoutResponse before := by
  cases answer with
  | err e => rfl
  | ok bytes =>
    rw [receiveAnswered, State.finish_eq]
    rfl

/-- Settles O2: one equation for each way a reset arrives; after the transport call of SEND or RECEIVE its answer no
longer matters, and the wire Reset and BUILD_RESET have no side effects. -/
theorem resetClearsOnlyTheExchange : Obligations.ResetClearsOnlyTheExchange := by
  refine fun s rest => ⟨step_of_reset, fun _ => step_of_reset_before_commit,
    fun packet ctxCode reqLen expect frame hhost hnone hexpect hframe => ?_, fun x hhost hx => ?_,
    fun id => ⟨⟨_, answers_pureResult rfl s⟩, _, answers_pureResult rfl s⟩⟩
  · have hsend := exec_send_of_sendState (sendState_of_frame (s := s.withHost rest) hnone hexpect hframe)
    rw [step_of_reset_after_commit rfl hhost hsend, applyReset_withoutResponse_sendAnswered]
    rfl
  · have hreceive := exec_receive_of_receiveState (receiveState_of_open (s := s.withHost rest) hx)
    rw [step_of_reset_after_commit rfl hhost hreceive, withoutResponse_receiveAnswered]
    rfl

end Sys2Proof.Machine
end
